-- ==== Sys2Proof/Word.lean ====
section
/-! DEFINITION. The words of the HUFCMP block: bits, bytes, 32-bit and 64-bit words (spec 00_scope R7, 20_memory R41).
All values are unsigned. A bit string is a list whose first element is produced or consumed first. -/

namespace Sys2Proof

/-- One bit of a bit string; `false` is 0 and `true` is 1. -/
abbrev Bit := Bool

/-- ByteValue: "an integer in [0,255]" (00_scope R8). -/
abbrev Byte := BitVec 8

/-- A command word, a CSR, the register LEN (00_scope R6: CMD_W, LEN_W). -/
abbrev Word := BitVec 32

/-- ARG, RES and one FREQ entry (00_scope R6: ARG_W, RES_W, FREQ_W). -/
abbrev Dword := BitVec 64

end Sys2Proof
end

