-- ==== Sys2Proof/Syntax.lean ====
section
/-! DEFINITION. The 31 commands of the block, one constructor per row of spec/opcode_table.json (30_encoding R63).
An operand has the type its form admits (R61): a byte for form I, one bit for form B. -/

namespace Sys2Proof

/-- A command of HUFCMP command set revision 1. -/
inductive Instr where
  | nop
  | srst
  | smark
  | srew
  | setlen
  | putb (imm : Byte)
  | getb
  | putlen
  | getlen
  | bwinit
  | bput (b : Bit)
  | bflush
  | brinit
  | bget
  | fclr
  | fscan
  | fset (imm : Byte)
  | fget (imm : Byte)
  | tbuild
  | twrite
  | tread
  | tcodes
  | clen (imm : Byte)
  | putsym (imm : Byte)
  | henc
  | getsym
  | hdec
  | renc (imm : Byte)
  | rdec
  | cmp
  | dcmp
  deriving DecidableEq, Repr

/-- The mnemonic of a command, as spec/opcode_table.json spells it (R63, R67). -/
def Instr.mnemonic : Instr → String
  | .nop => "NOP"
  | .srst => "SRST"
  | .smark => "SMARK"
  | .srew => "SREW"
  | .setlen => "SETLEN"
  | .putb _ => "PUTB"
  | .getb => "GETB"
  | .putlen => "PUTLEN"
  | .getlen => "GETLEN"
  | .bwinit => "BWINIT"
  | .bput _ => "BPUT"
  | .bflush => "BFLUSH"
  | .brinit => "BRINIT"
  | .bget => "BGET"
  | .fclr => "FCLR"
  | .fscan => "FSCAN"
  | .fset _ => "FSET"
  | .fget _ => "FGET"
  | .tbuild => "TBUILD"
  | .twrite => "TWRITE"
  | .tread => "TREAD"
  | .tcodes => "TCODES"
  | .clen _ => "CLEN"
  | .putsym _ => "PUTSYM"
  | .henc => "HENC"
  | .getsym => "GETSYM"
  | .hdec => "HDEC"
  | .renc _ => "RENC"
  | .rdec => "RDEC"
  | .cmp => "CMP"
  | .dcmp => "DCMP"

end Sys2Proof
end

