-- ==== Sys2Proof/WellFormed.lean ====
section
/-! DEFINITION. Which command words are well formed (spec 30_encoding R60 to R65): the fields of a word, the table of
R63 as mask and match, and the four ways a word is illegal (R65). An `Instr` needs no check of its own: the type of its
operand admits exactly the values its form admits (R61). -/

namespace Sys2Proof

/-- `op`, bits 7:0 of a command word (R60). -/
def CmdWord.op (w : Word) : Byte := w.extractLsb' 0 8

/-- `imm8`, bits 15:8 of a command word (R60). -/
def CmdWord.imm8 (w : Word) : Byte := w.extractLsb' 8 8

/-- `rsv`, bits 31:16 of a command word (R60). -/
def CmdWord.rsv (w : Word) : BitVec 16 := w.extractLsb' 16 16

/-- One row of the opcode map (R63): "a word w encodes the command exactly when (w AND mask) = match". -/
structure OpRow where
  mnemonic : String
  pattern  : Word
  mask     : Word
  deriving DecidableEq, Repr

/-- The rows of families 0x0 and 0x1 (control, byte streams, bit streams). -/
def opRowsLow : List OpRow :=
  [ ⟨"NOP", 0x00000000, 0xFFFFFFFF⟩,
    ⟨"SRST", 0x00000001, 0xFFFFFFFF⟩,
    ⟨"SMARK", 0x00000002, 0xFFFFFFFF⟩,
    ⟨"SREW", 0x00000003, 0xFFFFFFFF⟩,
    ⟨"SETLEN", 0x00000004, 0xFFFFFFFF⟩,
    ⟨"PUTB", 0x00000005, 0xFFFF00FF⟩,
    ⟨"GETB", 0x00000006, 0xFFFFFFFF⟩,
    ⟨"PUTLEN", 0x00000007, 0xFFFFFFFF⟩,
    ⟨"GETLEN", 0x00000008, 0xFFFFFFFF⟩,
    ⟨"BWINIT", 0x00000010, 0xFFFFFFFF⟩,
    ⟨"BPUT", 0x00000011, 0xFFFFFEFF⟩,
    ⟨"BFLUSH", 0x00000012, 0xFFFFFFFF⟩,
    ⟨"BRINIT", 0x00000013, 0xFFFFFFFF⟩,
    ⟨"BGET", 0x00000014, 0xFFFFFFFF⟩ ]

/-- The rows of families 0x2 to 0x7 (frequency table, tree, codes, run length, codec). -/
def opRowsHigh : List OpRow :=
  [ ⟨"FCLR", 0x00000020, 0xFFFFFFFF⟩,
    ⟨"FSCAN", 0x00000021, 0xFFFFFFFF⟩,
    ⟨"FSET", 0x00000022, 0xFFFF00FF⟩,
    ⟨"FGET", 0x00000023, 0xFFFF00FF⟩,
    ⟨"TBUILD", 0x00000030, 0xFFFFFFFF⟩,
    ⟨"TWRITE", 0x00000031, 0xFFFFFFFF⟩,
    ⟨"TREAD", 0x00000032, 0xFFFFFFFF⟩,
    ⟨"TCODES", 0x00000033, 0xFFFFFFFF⟩,
    ⟨"CLEN", 0x00000034, 0xFFFF00FF⟩,
    ⟨"PUTSYM", 0x00000040, 0xFFFF00FF⟩,
    ⟨"HENC", 0x00000041, 0xFFFFFFFF⟩,
    ⟨"GETSYM", 0x00000042, 0xFFFFFFFF⟩,
    ⟨"HDEC", 0x00000043, 0xFFFFFFFF⟩,
    ⟨"RENC", 0x00000050, 0xFFFF00FF⟩,
    ⟨"RDEC", 0x00000051, 0xFFFFFFFF⟩,
    ⟨"CMP", 0x00000070, 0xFFFFFFFF⟩,
    ⟨"DCMP", 0x00000071, 0xFFFFFFFF⟩ ]

/-- The opcode map (R63), 31 rows. -/
def opRows : List OpRow := opRowsLow ++ opRowsHigh

/-- The word matches the row (R63). -/
def OpRow.matchesWord (r : OpRow) (w : Word) : Bool := w &&& r.mask == r.pattern

/-- R65 (a): the reserved bits are not zero. -/
def CmdWord.badReserved (w : Word) : Bool := CmdWord.rsv w != 0

/-- R65 (b): the opcode is none of the 31 opcodes of R63. -/
def CmdWord.badOpcode (w : Word) : Bool := !(opRows.any fun r => CmdWord.op r.pattern == CmdWord.op w)

/-- The opcodes of form I, "PUTB, FSET, FGET, CLEN, PUTSYM, RENC" (R61). -/
def formIOpcodes : List Byte := [0x05, 0x22, 0x23, 0x34, 0x40, 0x50]

/-- The opcode of form B, BPUT (R61). -/
def formBOpcode : Byte := 0x11

/-- R65 (c): the command's form is Z and imm8 is not zero. -/
def CmdWord.badImmediate (w : Word) : Bool :=
  !CmdWord.badOpcode w && !(formIOpcodes.contains (CmdWord.op w)) && CmdWord.op w != formBOpcode
    && CmdWord.imm8 w != 0

/-- R65 (d): the command is BPUT and imm8[7:1] is not zero. -/
def CmdWord.badBitOperand (w : Word) : Bool :=
  CmdWord.op w == formBOpcode && (CmdWord.imm8 w).extractLsb' 1 7 != 0

/-- The word is well formed: none of the four grounds of R65 holds. -/
def CmdWord.wellFormed (w : Word) : Bool :=
  !CmdWord.badReserved w && !CmdWord.badOpcode w && !CmdWord.badImmediate w && !CmdWord.badBitOperand w

end Sys2Proof
end

