-- ==== Sys2Proof/Decode.lean ====
section
/-! DEFINITION. Decoding command words (spec 30_encoding R60 to R66), total on all 2^32 words, an illegal word rejected by
name; then the encoder, written from the same opcode map. -/

namespace Sys2Proof

/-- Why a word is illegal (30_encoding R65, grounds a to d). -/
inductive IllegalWord where
  /-- (a) rsv is not zero. -/
  | reservedBits
  /-- (b) op is none of the 31 opcodes. -/
  | unknownOpcode
  /-- (c) a form Z command with imm8 not zero. -/
  | immediateNotZero
  /-- (d) BPUT with imm8[7:1] not zero. -/
  | bitOperand
  deriving DecidableEq, Repr

/-- The outcome of decoding a word. -/
inductive Decoded where
  | command (i : Instr)
  | illegal (why : IllegalWord)
  deriving DecidableEq, Repr

/-- The three operand forms (R61), each with the command it makes of its operand. -/
inductive OpForm where
  | z (i : Instr)
  | imm (mk : Byte → Instr)
  | bit (mk : Bit → Instr)

/-- The opcode map of R63: the form and command of an opcode, none for an unused one. -/
def opForm (op : Byte) : Option OpForm :=
  match op with
  | 0x00#8 => some (.z .nop)
  | 0x01#8 => some (.z .srst)
  | 0x02#8 => some (.z .smark)
  | 0x03#8 => some (.z .srew)
  | 0x04#8 => some (.z .setlen)
  | 0x05#8 => some (.imm .putb)
  | 0x06#8 => some (.z .getb)
  | 0x07#8 => some (.z .putlen)
  | 0x08#8 => some (.z .getlen)
  | 0x10#8 => some (.z .bwinit)
  | 0x11#8 => some (.bit .bput)
  | 0x12#8 => some (.z .bflush)
  | 0x13#8 => some (.z .brinit)
  | 0x14#8 => some (.z .bget)
  | 0x20#8 => some (.z .fclr)
  | 0x21#8 => some (.z .fscan)
  | 0x22#8 => some (.imm .fset)
  | 0x23#8 => some (.imm .fget)
  | 0x30#8 => some (.z .tbuild)
  | 0x31#8 => some (.z .twrite)
  | 0x32#8 => some (.z .tread)
  | 0x33#8 => some (.z .tcodes)
  | 0x34#8 => some (.imm .clen)
  | 0x40#8 => some (.imm .putsym)
  | 0x41#8 => some (.z .henc)
  | 0x42#8 => some (.z .getsym)
  | 0x43#8 => some (.z .hdec)
  | 0x50#8 => some (.imm .renc)
  | 0x51#8 => some (.z .rdec)
  | 0x70#8 => some (.z .cmp)
  | 0x71#8 => some (.z .dcmp)
  | _ => none

/-- Decode a command word: "A decoder tests rsv, then op, then the imm8 constraint of the row's form" (R64). -/
def decode (w : Word) : Decoded :=
  if CmdWord.rsv w ≠ 0 then .illegal .reservedBits
  else
    match opForm (CmdWord.op w) with
    | none => .illegal .unknownOpcode
    | some (.z i) => if CmdWord.imm8 w = 0 then .command i else .illegal .immediateNotZero
    | some (.imm mk) => .command (mk (CmdWord.imm8 w))
    | some (.bit mk) =>
      if (CmdWord.imm8 w).extractLsb' 1 7 = 0 then .command (mk ((CmdWord.imm8 w).getLsbD 0))
      else .illegal .bitOperand

/-- The instruction read from a row's bits as spec/opcode_table.json numbers them. Every command is one 32-bit word
(R60), written to CMD as one 32-bit access (10_state R25), so bit n of the row is bit n of the word. -/
def decodeTableWord (nbits w : Nat) : Option Instr :=
  if 32 < nbits then none
  else
    match decode (BitVec.ofNat 32 (w % 2 ^ nbits)) with
    | .command i => some i
    | .illegal _ => none

/-- Assemble a word from its fields (R60), rsv = 0: "The command word is op + 256·imm8" (R67). -/
def cmdWord (op imm : Byte) : Word := (0#16) ++ imm ++ op

/-- The imm8 field of a bit operand (R61, form B). -/
def bitImm (b : Bit) : Byte := if b then 1 else 0

/-- The word of a command (R63). -/
def encode (i : Instr) : Word :=
  match i with
  | .nop => cmdWord 0x00 0
  | .srst => cmdWord 0x01 0
  | .smark => cmdWord 0x02 0
  | .srew => cmdWord 0x03 0
  | .setlen => cmdWord 0x04 0
  | .putb imm => cmdWord 0x05 imm
  | .getb => cmdWord 0x06 0
  | .putlen => cmdWord 0x07 0
  | .getlen => cmdWord 0x08 0
  | .bwinit => cmdWord 0x10 0
  | .bput b => cmdWord 0x11 (bitImm b)
  | .bflush => cmdWord 0x12 0
  | .brinit => cmdWord 0x13 0
  | .bget => cmdWord 0x14 0
  | .fclr => cmdWord 0x20 0
  | .fscan => cmdWord 0x21 0
  | .fset imm => cmdWord 0x22 imm
  | .fget imm => cmdWord 0x23 imm
  | .tbuild => cmdWord 0x30 0
  | .twrite => cmdWord 0x31 0
  | .tread => cmdWord 0x32 0
  | .tcodes => cmdWord 0x33 0
  | .clen imm => cmdWord 0x34 imm
  | .putsym imm => cmdWord 0x40 imm
  | .henc => cmdWord 0x41 0
  | .getsym => cmdWord 0x42 0
  | .hdec => cmdWord 0x43 0
  | .renc imm => cmdWord 0x50 imm
  | .rdec => cmdWord 0x51 0
  | .cmp => cmdWord 0x70 0
  | .dcmp => cmdWord 0x71 0

end Sys2Proof
end

