-- ==== Sys2Proof/Config.lean ====
section
/-! DEFINITION. The fixed parameters of the block (spec 00_scope R6). "All are fixed; none is left as a model argument",
so nothing here is free: the spec leaves no observable value open (93_implementation_defined, end of part 1). -/

namespace Sys2Proof.Config

/-- MAXLEN: the largest input length and the largest run count. -/
def maxLen : Nat := 4294967295

/-- NODE_CAP: the most tree nodes the block holds. -/
def nodeCap : Nat := 511

/-- MAX_CODE_LEN: the longest possible code in bits. -/
def maxCodeLen : Nat := 255

/-- TAG_H: the type tag of a Huffman container. -/
def tagH : Byte := 0x48

/-- TAG_R: the type tag of a run-length container. -/
def tagR : Byte := 0x52

/-- MARK_NODE: the second byte of a real node in the serialised tree. -/
def markNode : Byte := 0x00

/-- PLACEHOLDER: the first byte of an internal node in the serialised tree. -/
def placeholder : Byte := 0x00

/-- The first byte of SENTINEL, the pair for an absent child. -/
def sentinelFirst : Byte := 0x00

/-- The second byte of SENTINEL. -/
def sentinelSecond : Byte := 0x01

end Sys2Proof.Config
end

