-- ==== Sys2Proof/Machine/State.lean ====
section
/-! DEFINITION. The state of the HUFCMP block and of its environment, as plain data (spec 10_state), and the state right
after reset (10_state R30). The block has no addressable memory (20_memory R40, R58), so State holds no memory list. -/

namespace Sys2Proof.Machine

/-- STATUS.STATE (10_state R13, R14). The value 3 is never produced, so it has no constructor. -/
inductive RunState where
  /-- 0: the block accepts a command. -/
  | idle
  /-- 1: a command is executing. Never the value between steps (10_state R14). -/
  | busy
  /-- 2: a command has faulted; only SRST is accepted. -/
  | fault
  deriving DecidableEq, Repr

/-- HuffmanTree (10_state R20): a leaf holds one byte, an internal node exactly two children and no byte. -/
inductive Tree where
  | leaf (v : Byte)
  | node (l r : Tree)
  deriving DecidableEq, Repr

/-- EncodingTable (10_state R21): for each byte `none` (no leaf) or its bit string, the branch at the root first. -/
abbrev CodeTable := Vector (Option (List Bit)) 256

/-- FrequencyTable (10_state R19): 256 unsigned 64-bit counts. -/
abbrev FreqTable := Vector Dword 256

/-- The source stream SRC (10_state R28): a finite list of bytes, a read position and a mark. -/
structure Source where
  data : List Byte
  pos  : Nat
  mark : Nat
  deriving DecidableEq, Repr

/-- An action of the host between two steps (20_memory R48, and CSR accesses by offset, 10_state R25 to R27). A CSR is
named by its word index, offset / 4: "All accesses are aligned 32-bit accesses" (R25; DESIGN CHOICE, notes/assumptions/7.md). -/
inductive HostAction where
  /-- HostLoadSource(bytes). -/
  | loadSource (bytes : List Byte)
  /-- HostTakeSink(). -/
  | takeSink
  /-- HostWriteARG(v). -/
  | writeArg (v : Dword)
  /-- HostIssue(w): writes w to CMD. -/
  | issue (w : Word)
  /-- A 32-bit CSR write of v at offset 4·index. -/
  | writeCsr (index : BitVec 6) (v : Word)
  /-- HostRead(csr): a 32-bit CSR read at offset 4·index. -/
  | readCsr (index : BitVec 6)
  /-- HostReset(): hardware reset. -/
  | reset
  deriving DecidableEq, Repr

/-- What a host action returned to the host (20_memory R48). -/
inductive HostAnswer where
  /-- The value of a CSR read. -/
  | csr (v : Word)
  /-- The bytes of a taken sink. -/
  | sink (bytes : List Byte)
  deriving DecidableEq, Repr

/-- The whole state. TVALID is the presence of `tree` and CVALID the presence of `code` (10_state R31;
DEDUCED, notes/assumptions/1.md). The last two fields are the model's own (DESIGN CHOICE, notes/assumptions/3.md, 5.md). -/
structure State where
  /-- ARG, the operand register (R11). -/
  arg     : Dword
  /-- RES, the result register (R11). -/
  res     : Dword
  /-- LEN, the length register (R11). -/
  len     : Word
  /-- STATUS.STATE (R14). -/
  run     : RunState
  /-- STATUS.EOS (R15). -/
  eos     : Bool
  /-- STATUS.ERR (R17). -/
  err     : Byte
  /-- EINFO (R17). -/
  einfo   : Word
  /-- FREQ[0..255] (R19). -/
  freq    : FreqTable
  /-- TREE, and TVALID (R20, R16, R31). -/
  tree    : Option Tree
  /-- CODE[0..255], and CVALID (R21, R16, R31). -/
  code    : Option CodeTable
  /-- WBUF, the bit writer's buffer (R22). -/
  wbuf    : Byte
  /-- WCNT, the number of bits in WBUF (R22). -/
  wcnt    : BitVec 4
  /-- RBUF, the bit reader's buffer (R23). -/
  rbuf    : Byte
  /-- RCNT, the number of bits in RBUF (R23). -/
  rcnt    : BitVec 4
  /-- SRC, the source stream (R28). -/
  src     : Source
  /-- SNK, the sink stream (R29). -/
  snk     : List Byte
  /-- The host's list of actions still to come (00_scope R9, 10_state R12). -/
  script  : List HostAction
  /-- What the host has been given back, oldest first (20_memory R48). -/
  answers : List HostAnswer
  deriving DecidableEq, Repr

/-- Why a step stops. A fault of the SPEC (ERR_ILLCMD and the rest) is not here: its entry is described (60_exceptions
R212), so it is a next state with STATUS.STATE = FAULT. -/
inductive Fault where
  /-- The host loads the source, takes the sink, or accesses a CSR other than by a read of STATUS or a write of CMD while
  STATE = BUSY. Raised by `hostAct` alone, in states no run reaches (10_state R14). The spec makes it a host duty not to
  do so (10_state R26, 70_reset_and_hazards R246) and gives no move (93_implementation_defined I22). Safe (DESIGN CHOICE,
  notes/assumptions/2.md). -/
  | hostActsWhileBusy
  deriving DecidableEq, Repr

/-- Why an instruction has no meaning. -/
inductive Refusal where
  /-- An arm of `exec` whose instruction has no meaning yet; no arm answers with it. Safe. -/
  | notModelled (mnemonic : String)
  deriving DecidableEq, Repr

/-- The block's state after hardware reset (10_state R30), attached to an empty source and an empty sink, with no host
action to come (DESIGN CHOICE, notes/assumptions/3.md, 5.md, 6.md). -/
def State.reset : State where
  arg     := 0
  res     := 0
  len     := 0
  run     := .idle
  eos     := false
  err     := 0
  einfo   := 0
  freq    := Vector.replicate 256 0
  tree    := none
  code    := none
  wbuf    := 0
  wcnt    := 0
  rbuf    := 0
  rcnt    := 0
  src     := { data := [], pos := 0, mark := 0 }
  snk     := []
  script  := []
  answers := []

end Sys2Proof.Machine
end

