-- ==== Sys2Proof/Machine/Formats.lean ====
section
/-! DEFINITION. The data formats as pure functions: table access, 4-byte integers (20_memory R51), bit packing (R52), the
tree and its serialisation (30_encoding R75), the codes of its leaves (43_tree R154, R155). -/

namespace Sys2Proof.Machine

/-- Entry v of a 256-entry table. -/
def tget {α : Type} (t : Vector α 256) (v : Byte) : α := t[v.toNat]'(v.isLt)

/-- A 256-entry table with entry v replaced by x. -/
def tset {α : Type} (t : Vector α 256) (v : Byte) (x : α) : Vector α 256 := t.set v.toNat x v.isLt

/-- The 256 byte values in ascending order. -/
def allBytes : List Byte := (List.range 256).map (BitVec.ofNat 8)

/-- The byte values with a non-zero count, ascending (10_state R18). -/
def present (f : FreqTable) : List Byte := allBytes.filter fun v => tget f v != 0

/-- K, "number of distinct byte values with non-zero frequency" (10_state R18). -/
def kCount (f : FreqTable) : Nat := (present f).length

/-- LE32(n) = [n[7:0], n[15:8], n[23:16], n[31:24]] (20_memory R51). -/
def le32 (n : Word) : List Byte :=
  [n.extractLsb' 0 8, n.extractLsb' 8 8, n.extractLsb' 16 8, n.extractLsb' 24 8]

/-- A bit as a byte, 0x00 or 0x01. -/
def bitByte (b : Bit) : Byte := if b then 1 else 0

/-- The byte whose bit at position t is element t of the list, 0 where the list has ended (20_memory R52). -/
def byteOfBits : List Bit → Byte
  | [] => 0
  | b :: bs => (byteOfBits bs <<< 1) ||| bitByte b

/-- The eight bits of a byte, bit 0 first (20_memory R52). -/
def bitsOfByte (x : Byte) : List Bit := (List.range 8).map x.getLsbD

/-- Pack(s): ⌈|s|/8⌉ bytes, bit s[8j+t] at position t of byte j, zero-padded (20_memory R52). -/
def pack (s : List Bit) : List Byte :=
  (List.range ((s.length + 7) / 8)).map fun j => byteOfBits ((s.drop (8 * j)).take 8)

/-- Unpack(bytes): bit 8j+t is bit t of byte j (20_memory R52). -/
def unpack (bytes : List Byte) : List Bit := bytes.flatMap bitsOfByte

/-- The number of nodes of a tree, leaves and internal nodes (10_state R20). -/
def Tree.nodes : Tree → Nat
  | .leaf _ => 1
  | .node l r => 1 + l.nodes + r.nodes

/-- The leaf values of a tree, left to right. -/
def Tree.leaves : Tree → List Byte
  | .leaf v => [v]
  | .node l r => l.leaves ++ r.leaves

/-- The root is internal. -/
def Tree.isNode : Tree → Bool
  | .leaf _ => false
  | .node _ _ => true

/-- The invariant of a valid TREE: (a) its root is internal, (b) it has at most NODE_CAP nodes (10_state R20). -/
def Tree.valid (t : Tree) : Bool := t.isNode && decide (t.nodes ≤ Config.nodeCap)

/-- SerTree(T), the preorder listing with 2 bytes per node position (30_encoding R75). -/
def serTree : Tree → List Byte
  | .leaf v =>
    [v, Config.markNode, Config.sentinelFirst, Config.sentinelSecond, Config.sentinelFirst, Config.sentinelSecond]
  | .node l r => [Config.placeholder, Config.markNode] ++ serTree l ++ serTree r

/-- Derive(t, p): the (byte, code) assignments in preorder, left before right, left = 0 and right = 1 (43_tree R154). -/
def derive : Tree → List Bit → List (Byte × List Bit)
  | .leaf v, p => [(v, p)]
  | .node l r, p => derive l (p ++ [false]) ++ derive r (p ++ [true])

/-- The table before any assignment: "for v in 0..255: CODE[v] <- none" (43_tree R155). -/
def noCodes : CodeTable := Vector.replicate 256 none

/-- Apply the assignments in list order, so that the last one for a byte is kept (43_tree R155, R156). -/
def assignCodes : List (Byte × List Bit) → CodeTable → CodeTable
  | [], c => c
  | (v, p) :: rest, c => assignCodes rest (tset c v (some p))

/-- The table TCODES derives from a tree (43_tree R155). -/
def codeTable (t : Tree) : CodeTable := assignCodes (derive t []) noCodes

end Sys2Proof.Machine
end

