-- ==== Sys2Proof/Machine/Ops.lean ====
section
/-! DEFINITION. The named operations over the state: one update per piece of state, fault entry (60_exceptions R212), the
results of a command, the stream primitives (20_memory R42 to R45), the bit primitives (41_bitstream R111 to R113), the
two resets (10_state R30). -/

namespace Sys2Proof.Machine

-- ## Updates, one per piece of state

/-- ARG <- v. -/
def State.setArg (s : State) (v : Dword) : State := { s with arg := v }
/-- RES <- v. -/
def State.setRes (s : State) (v : Dword) : State := { s with res := v }
/-- LEN <- v. -/
def State.setLen (s : State) (v : Word) : State := { s with len := v }
/-- STATUS.EOS <- b. -/
def State.setEos (s : State) (b : Bool) : State := { s with eos := b }
/-- The whole of FREQ. -/
def State.setFreq (s : State) (f : FreqTable) : State := { s with freq := f }
/-- TREE with TVALID, and CVALID <- 0: whatever writes TREE invalidates CODE (10_state R16). -/
def State.setTree (s : State) (t : Option Tree) : State := { s with tree := t, code := none }
/-- CODE, and CVALID <- 1. -/
def State.setCode (s : State) (c : CodeTable) : State := { s with code := some c }
/-- WBUF and WCNT. -/
def State.setWriter (s : State) (b : Byte) (n : BitVec 4) : State := { s with wbuf := b, wcnt := n }
/-- RBUF and RCNT. -/
def State.setReader (s : State) (b : Byte) (n : BitVec 4) : State := { s with rbuf := b, rcnt := n }
/-- SRC.pos <- p. -/
def State.setPos (s : State) (p : Nat) : State := { s with src := { s.src with pos := p } }
/-- SRC.mark <- p. -/
def State.setMark (s : State) (p : Nat) : State := { s with src := { s.src with mark := p } }
/-- The whole of SRC. -/
def State.setSrc (s : State) (x : Source) : State := { s with src := x }
/-- SNK <- bytes. -/
def State.setSnk (s : State) (bytes : List Byte) : State := { s with snk := bytes }
/-- The host's remaining actions. -/
def State.setScript (s : State) (l : List HostAction) : State := { s with script := l }
/-- Hand a value back to the host. -/
def State.answer (s : State) (a : HostAnswer) : State := { s with answers := s.answers ++ [a] }

-- ## Faults (60_exceptions)

/-- The fault codes of R211. -/
inductive FaultCode where
  | illcmd | precond | size | tag | trunc | tree | treeovf | nocode | operand
  deriving DecidableEq, Repr

/-- The value written to STATUS.ERR (R211). -/
def FaultCode.number : FaultCode → Byte
  | .illcmd => 0x01
  | .precond => 0x02
  | .size => 0x03
  | .tag => 0x04
  | .trunc => 0x05
  | .tree => 0x06
  | .treeovf => 0x07
  | .nocode => 0x08
  | .operand => 0x09

/-- Fault entry: ERR, EINFO and STATE are written, nothing is saved, nothing is rolled back (R212, R216). This is the one
place where an exception is taken; there is no return from it but the resets below (R215). -/
def enterFault (e : FaultCode) (info : Word) (s : State) : State :=
  { s with err := e.number, einfo := info, run := .fault }

/-- How a piece of a command ends: with a value, or at a `fault`, after which "nothing after it in the pseudocode runs"
(00_scope R7). -/
inductive CmdResult (α : Type) where
  | done (a : α) (s : State)
  | faulted (s : State)

/-- Go on with the next piece of a command unless a fault has ended it. -/
def CmdResult.bind {α β : Type} (r : CmdResult α) (k : α → State → CmdResult β) : CmdResult β :=
  match r with
  | .done a s => k a s
  | .faulted s => .faulted s

/-- `fault E(info)`. -/
def raise {α : Type} (e : FaultCode) (info : Word) (s : State) : CmdResult α := .faulted (enterFault e info s)

/-- The state a command leaves, whether it ended normally or at a fault. -/
def CmdResult.final {α : Type} : CmdResult α → State
  | .done _ s => s
  | .faulted s => s

/-- A command is one step and always ends in a next state: a fault of the spec is one (60_exceptions R212). -/
def finish (r : CmdResult Unit) : Host.Outcome State Fault Refusal := .next r.final

-- ## Stream primitives (20_memory)

/-- SrcRead(): the byte at pos and the advanced state, or `none` for EOS, which changes nothing (R42). -/
def srcRead (s : State) : Option (Byte × State) :=
  match s.src.data[s.src.pos]? with
  | some b => some (b, s.setPos (s.src.pos + 1))
  | none => none

/-- The number of bytes SrcRead() can still return. A loop that reads to EOS is bounded by it (70_reset_and_hazards R257). -/
def srcLeft (s : State) : Nat := s.src.data.length - s.src.pos

/-- A read that must not meet the end: `if x = EOS then fault ERR_TRUNC(info)`. -/
def srcReadOr (info : Word) (s : State) : CmdResult Byte :=
  match srcRead s with
  | some (b, s') => .done b s'
  | none => raise .trunc info s

/-- SrcMark() (R43). -/
def srcMark (s : State) : State := s.setMark s.src.pos

/-- SrcRewind() (R44). -/
def srcRewind (s : State) : State := s.setPos s.src.mark

/-- SnkWrite(b) (R45). -/
def snkWrite (b : Byte) (s : State) : State := s.setSnk (s.snk ++ [b])

/-- SnkWrite of each byte in order. -/
def snkWriteAll : List Byte → State → State
  | [], s => s
  | b :: bs, s => snkWriteAll bs (snkWrite b s)

-- ## Bit primitives (41_bitstream)

/-- The operation of BWINIT: WBUF <- 0; WCNT <- 0 (R114). -/
def writerInit (s : State) : State := s.setWriter 0 0

/-- The operation of BRINIT: RBUF <- 0; RCNT <- 0 (R117). -/
def readerInit (s : State) : State := s.setReader 0 0

/-- PutBit(b) (R111). -/
def putBit (b : Bit) (s : State) : State :=
  let w := s.wbuf ||| (bitByte b <<< s.wcnt.toNat)
  let n := s.wcnt + 1
  if n = 8 then writerInit (snkWrite w s) else s.setWriter w n

/-- `for bit in p, first to last: PutBit(bit)`. -/
def putBits : List Bit → State → State
  | [], s => s
  | b :: bs, s => putBits bs (putBit b s)

/-- Flush(): always exactly one byte (R112). -/
def flush (s : State) : State := writerInit (snkWrite s.wbuf s)

/-- `bit <- RBUF[0]; RBUF <- RBUF >> 1; RCNT <- RCNT - 1` (R113). -/
def takeBit (s : State) : Bit × State := (s.rbuf.getLsbD 0, s.setReader (s.rbuf >>> 1) (s.rcnt - 1))

/-- GetBit(): the next bit and the state after it, or `none` for EOS, which changes nothing (R113). -/
def getBit (s : State) : Option (Bit × State) :=
  if s.rcnt = 0 then
    match srcRead s with
    | none => none
    | some (x, s') => some (takeBit (s'.setReader x 8))
  else some (takeBit s)

-- ## Resets (10_state R30)

/-- Hardware reset: every element of the block takes its reset value; the environment is not touched
(70_reset_and_hazards R240, R242). -/
def hardReset (s : State) : State :=
  { State.reset with src := s.src, snk := s.snk, script := s.script, answers := s.answers }

/-- Soft reset: the same, but ARG is unchanged (70_reset_and_hazards R241). -/
def softReset (s : State) : State := (hardReset s).setArg s.arg

end Sys2Proof.Machine
end

