-- ==== Sys2Proof/Machine/Operands.lean ====
section
/-! DEFINITION. Operand assembly and result extension (30_encoding R62, 10_state R11). imm8 is used "as an unsigned byte
with no extension, scaling or shifting", so a form I or form B operand needs no function of its own. -/

namespace Sys2Proof.Machine

/-- SETLEN's operand: `require ARG[63:32] = 0 else fault ERR_OPERAND(ARG[63:32])`, then ARG[31:0]
(40_control_stream R94). -/
def lenOperand (s : State) : CmdResult Word :=
  if s.arg.extractLsb' 32 32 = 0 then .done (s.arg.extractLsb' 0 32) s
  else raise .operand (s.arg.extractLsb' 32 32) s

/-- zext_64 of a byte: "A command that produces a result writes all 64 bits" (10_state R11). -/
def resOfByte (b : Byte) : Dword := b.setWidth 64

/-- zext_64 of a bit. -/
def resOfBit (b : Bit) : Dword := resOfByte (bitByte b)

/-- A byte as the information word of a fault: "the byte, zero-extended" (60_exceptions R211). -/
def infoOfByte (b : Byte) : Word := b.setWidth 32

/-- ARG with its low half replaced (10_state R26). -/
def argWithLow (a : Dword) (v : Word) : Dword := a.extractLsb' 32 32 ++ v

/-- ARG with its high half replaced (10_state R26). -/
def argWithHigh (a : Dword) (v : Word) : Dword := v ++ a.extractLsb' 0 32

end Sys2Proof.Machine
end

