-- ==== Sys2Proof/Machine/Flags.lean ====
section
/-! DEFINITION. The flags of STATUS, the preconditions that read them, and the words software sees: STATUS (10_state R13),
BSTAT (R24), KREG (R18, R25). -/

namespace Sys2Proof.Machine

/-- STATUS.TVALID: TREE holds a tree (10_state R16, R31). -/
def tvalid (s : State) : Bool := s.tree.isSome

/-- STATUS.CVALID: CODE was derived from the current TREE (10_state R16, R31). -/
def cvalid (s : State) : Bool := s.code.isSome

/-- `require TVALID = 1 else fault ERR_PRECOND(2)`, giving TREE. -/
def requireTree (s : State) : CmdResult Tree :=
  match s.tree with
  | some t => .done t s
  | none => raise .precond 2 s

/-- `require CVALID = 1 else fault ERR_PRECOND(3)`, giving CODE. -/
def requireCode (s : State) : CmdResult CodeTable :=
  match s.code with
  | some c => .done c s
  | none => raise .precond 3 s

/-- `require CODE[v] ≠ none else fault ERR_NOCODE(v)`, giving the code (44_vlc R166). -/
def requireCodeOf (c : CodeTable) (v : Byte) (s : State) : CmdResult (List Bit) :=
  match tget c v with
  | some p => .done p s
  | none => raise .nocode (infoOfByte v) s

/-- The end-of-stream condition of GETB and BGET: EOS <- 1, RES unchanged (10_state R15). -/
def endOfStream (s : State) : State := s.setEos true

/-- The data outcome of GETB and BGET: EOS <- 0; RES <- v. -/
def gotData (v : Dword) (s : State) : State := (s.setEos false).setRes v

/-- The STATE field of STATUS (10_state R13). -/
def runBits : RunState → BitVec 2
  | .idle => 0
  | .busy => 1
  | .fault => 2

/-- STATUS: STATE in 1:0, EOS in 2, TVALID in 3, CVALID in 4, ERR in 15:8, the rest 0 (10_state R13). -/
def statusWord (s : State) : Word :=
  (0#16) ++ s.err ++ (0#3) ++ BitVec.ofBool (cvalid s) ++ BitVec.ofBool (tvalid s) ++ BitVec.ofBool s.eos ++ runBits s.run

/-- BSTAT: WBUF in 7:0, WCNT in 11:8, RBUF in 23:16, RCNT in 27:24, the rest 0 (10_state R24). -/
def bstatWord (s : State) : Word := (0#4) ++ s.rcnt ++ s.rbuf ++ (0#4) ++ s.wcnt ++ s.wbuf

/-- KREG: K in 8:0, the rest 0 (10_state R25). -/
def kregWord (s : State) : Word := BitVec.ofNat 32 (kCount s.freq)

end Sys2Proof.Machine
end

