-- ==== Sys2Proof/Machine/Bitstream.lean ====
section
/-! DEFINITION. BitStream commands (spec 41_bitstream R114 to R118): BWINIT, BPUT, BFLUSH, BRINIT, BGET. The primitives
PutBit, Flush and GetBit stand in Ops.lean. -/

namespace Sys2Proof.Machine

/-- BWINIT (R114). -/
def execBwinit (s : State) : Host.Outcome State Fault Refusal := .next (writerInit s)

/-- BPUT b (R115). -/
def execBput (b : Bit) (s : State) : Host.Outcome State Fault Refusal := .next (putBit b s)

/-- BFLUSH (R116). -/
def execBflush (s : State) : Host.Outcome State Fault Refusal := .next (flush s)

/-- BRINIT (R117). -/
def execBrinit (s : State) : Host.Outcome State Fault Refusal := .next (readerInit s)

/-- The operation of BGET (R118). -/
def opBget (s : State) : State :=
  match getBit s with
  | none => endOfStream s
  | some (b, s') => gotData (resOfBit b) s'

/-- BGET (R118). -/
def execBget (s : State) : Host.Outcome State Fault Refusal := .next (opBget s)

end Sys2Proof.Machine
end

