-- ==== Sys2Proof/Machine/Frequency.lean ====
section
/-! DEFINITION. FrequencyTable commands (spec 42_frequency R125 to R134): FCLR, FSCAN, FSET, FGET. -/

namespace Sys2Proof.Machine

/-- The table with every entry 0. -/
def zeroFreq : FreqTable := Vector.replicate 256 0

/-- FCLR (R129). -/
def execFclr (s : State) : Host.Outcome State Fault Refusal := .next (s.setFreq zeroFreq)

/-- `FREQ[x] <- FREQ[x] + 1` (R130). -/
def countByte (x : Byte) (s : State) : State := s.setFreq (tset s.freq x (tget s.freq x + 1))

/-- The loop of FSCAN (R130) with at most `left` more bytes in the source, n of them counted so far. When no byte is left
SrcRead() returns EOS and the loop is over. -/
def scanFrom : Nat → Nat → State → CmdResult Nat
  | 0, n, s => .done n s
  | left + 1, n, s =>
    match srcRead s with
    | none => .done n s
    | some (x, s') => if n = Config.maxLen then raise .size 0 s' else scanFrom left (n + 1) (countByte x s')

/-- The operation of FSCAN (R130, R131). -/
def opFscan (s : State) : CmdResult Unit :=
  (scanFrom (srcLeft s) 0 (s.setFreq zeroFreq)).bind fun n s => .done () (s.setLen (BitVec.ofNat 32 n))

/-- FSCAN (R130). -/
def execFscan (s : State) : Host.Outcome State Fault Refusal := finish (opFscan s)

/-- FSET imm8 (R132): every 64-bit value of ARG is legal. -/
def execFset (imm : Byte) (s : State) : Host.Outcome State Fault Refusal := .next (s.setFreq (tset s.freq imm s.arg))

/-- FGET imm8 (R133). -/
def execFget (imm : Byte) (s : State) : Host.Outcome State Fault Refusal := .next (s.setRes (tget s.freq imm))

end Sys2Proof.Machine
end

