-- ==== Sys2Proof/Machine/Huffman.lean ====
section
/-! DEFINITION. HuffmanTree commands (spec 43_tree R140 to R158): TBUILD, TWRITE, TREAD, TCODES, CLEN. -/

namespace Sys2Proof.Machine

-- ## Building (R140 to R145)

/-- An entry of the priority structure (R141): an exact weight (R143), a sequence number, a tree. -/
structure Entry where
  w : Nat
  s : Nat
  t : Tree
  deriving DecidableEq, Repr

/-- "Entries are ordered by (w, s) lexicographically" (R141). -/
def Entry.before (a b : Entry) : Bool := decide (a.w < b.w ∨ (a.w = b.w ∧ a.s < b.s))

/-- `a <- min(Q); Q <- Q − {a}` for the non-empty set Q of e and the list's entries (R142). -/
def extractMin : Entry → List Entry → Entry × List Entry
  | e, [] => (e, [])
  | e, x :: xs =>
    let p := extractMin x xs
    if e.before p.1 then (e, x :: xs) else (p.1, e :: p.2)

/-- The merged entry: the first extracted is the left child, the second the right (R142, R144). -/
def mergeEntries (a b : Entry) (s : Nat) : Entry := { w := a.w + b.w, s := s, t := .node a.t b.t }

/-- `while |Q| > 1` (R142) for the non-empty set Q of e and the list's entries; `n` merges at most, s the next sequence
number. Each merge leaves one entry fewer, so as many merges as the list has entries leave a single one. -/
def mergeAll : Nat → Nat → Entry → List Entry → Tree
  | 0, _, e, _ => e.t
  | n + 1, s, e, rest =>
    match extractMin e rest with
    | (a, []) => a.t
    | (a, x :: xs) =>
      let p := extractMin x xs
      mergeAll n (s + 1) (mergeEntries a p.1 s) p.2

/-- The seeds: one leaf per byte of the list, numbered from s on (R141, R142). -/
def seedFrom (f : FreqTable) : Nat → List Byte → List Entry
  | _, [] => []
  | s, v :: vs => { w := (tget f v).toNat, s := s, t := .leaf v } :: seedFrom f (s + 1) vs

/-- The tree TBUILD builds from a table, none when K < 2 (R140, R142). -/
def buildTree (f : FreqTable) : Option Tree :=
  match seedFrom f 0 (present f) with
  | [] => none
  | [_] => none
  | e :: x :: xs => some (mergeAll (x :: xs).length (kCount f) e (x :: xs))

/-- The operation of TBUILD (R142). -/
def opTbuild (s : State) : CmdResult Unit :=
  match buildTree s.freq with
  | none => raise .precond 1 s
  | some t => .done () (s.setTree (some t))

/-- TBUILD (R142). -/
def execTbuild (s : State) : Host.Outcome State Fault Refusal := finish (opTbuild s)

-- ## Writing (R147)

/-- SnkWrite of the sentinel pair. -/
def emitAbsent (s : State) : State := snkWrite Config.sentinelSecond (snkWrite Config.sentinelFirst s)

/-- Emit(t) (R147): preorder, two bytes per node, two sentinels after a leaf. -/
def emitTree : Tree → State → State
  | .leaf v, s => emitAbsent (emitAbsent (snkWrite Config.markNode (snkWrite v s)))
  | .node l r, s => emitTree r (emitTree l (snkWrite Config.markNode (snkWrite Config.placeholder s)))

/-- The operation of TWRITE (R147). -/
def opTwrite (s : State) : CmdResult Unit := (requireTree s).bind fun t s => .done () (emitTree t s)

/-- TWRITE (R147). -/
def execTwrite (s : State) : Host.Outcome State Fault Refusal := finish (opTwrite s)

-- ## Reading (R148 to R153)

/-- What ReadNode() returns, with both children read: a leaf, an internal node, or the fault on a unary node (R148). -/
def joinChildren (b0 : Byte) (l r : Option Tree) (c : Nat) (s : State) : CmdResult (Option Tree × Nat) :=
  match l, r with
  | none, none => .done (some (.leaf b0), c) s
  | some l, some r => .done (some (.node l r), c) s
  | _, _ => raise .tree 3 s

/-- ReadNode() (R148, checks in the order of R149). The result `none` is ABSENT. The counter c of created nodes is passed
in and handed back. The first argument bounds the depth of the recursion: a call at depth d is made with c ≥ d, and c = 511
ends it with ERR_TREEOVF, so from 512 on it is never used up
(DEDUCED, notes/assumptions/9.md). -/
def readNode : Nat → Nat → State → CmdResult (Option Tree × Nat)
  | 0, _, s => raise .treeovf 0 s
  | depth + 1, c, s =>
    (srcReadOr 0x20 s).bind fun b0 s =>
    (srcReadOr 0x21 s).bind fun b1 s =>
    if b0 = Config.sentinelFirst ∧ b1 = Config.sentinelSecond then .done (none, c) s
    else if c = Config.nodeCap then raise .treeovf 0 s
    else
      (readNode depth (c + 1) s).bind fun left s =>
      (readNode depth left.2 s).bind fun right s =>
      joinChildren b0 left.1 right.1 right.2 s

/-- The checks of TREAD on the tree read: an absent root, a leaf root (R150). -/
def acceptRoot (t : Option Tree) (s : State) : CmdResult Unit :=
  match t with
  | none => raise .tree 1 s
  | some (.leaf _) => raise .tree 2 s
  | some (.node l r) => .done () (s.setTree (some (.node l r)))

/-- The operation of TREAD (R150): TVALID and CVALID are cleared first. -/
def opTread (s : State) : CmdResult Unit :=
  (readNode (Config.nodeCap + 1) 0 (s.setTree none)).bind fun p s => acceptRoot p.1 s

/-- TREAD (R150). -/
def execTread (s : State) : Host.Outcome State Fault Refusal := finish (opTread s)

-- ## Codes (R154 to R158)

/-- The operation of TCODES (R155). -/
def opTcodes (s : State) : CmdResult Unit := (requireTree s).bind fun t s => .done () (s.setCode (codeTable t))

/-- TCODES (R155). -/
def execTcodes (s : State) : Host.Outcome State Fault Refusal := finish (opTcodes s)

/-- CLEN's result: 0 without a code, else 256 + its length (R158). -/
def clenResult : Option (List Bit) → Dword
  | none => 0
  | some p => BitVec.ofNat 64 (256 + p.length)

/-- The operation of CLEN (R158). -/
def opClen (imm : Byte) (s : State) : CmdResult Unit :=
  (requireCode s).bind fun c s => .done () (s.setRes (clenResult (tget c imm)))

/-- CLEN imm8 (R158). -/
def execClen (imm : Byte) (s : State) : Host.Outcome State Fault Refusal := finish (opClen imm s)

end Sys2Proof.Machine
end

