-- ==== Sys2Proof/Machine/Control.lean ====
section
/-! DEFINITION. Control and byte-stream commands (spec 40_control_stream R90 to R99): NOP, SRST, SMARK, SREW, SETLEN,
PUTB, GETB, PUTLEN, GETLEN. -/

namespace Sys2Proof.Machine

/-- NOP (R90). -/
def execNop (s : State) : Host.Outcome State Fault Refusal := .next s

/-- SRST (R91). -/
def execSrst (s : State) : Host.Outcome State Fault Refusal := .next (softReset s)

/-- SMARK (R92). -/
def execSmark (s : State) : Host.Outcome State Fault Refusal := .next (srcMark s)

/-- SREW (R93). -/
def execSrew (s : State) : Host.Outcome State Fault Refusal := .next (srcRewind s)

/-- The operation of SETLEN (R94). -/
def opSetlen (s : State) : CmdResult Unit := (lenOperand s).bind fun v s => .done () (s.setLen v)

/-- SETLEN (R94). -/
def execSetlen (s : State) : Host.Outcome State Fault Refusal := finish (opSetlen s)

/-- PUTB imm8 (R95). -/
def execPutb (imm : Byte) (s : State) : Host.Outcome State Fault Refusal := .next (snkWrite imm s)

/-- The operation of GETB (R96). -/
def opGetb (s : State) : State :=
  match srcRead s with
  | none => endOfStream s
  | some (x, s') => gotData (resOfByte x) s'

/-- GETB (R96). -/
def execGetb (s : State) : Host.Outcome State Fault Refusal := .next (opGetb s)

/-- The operation of PUTLEN (R97): `for b in LE32(LEN): SnkWrite(b)`. -/
def opPutlen (s : State) : State := snkWriteAll (le32 s.len) s

/-- PUTLEN (R97). -/
def execPutlen (s : State) : Host.Outcome State Fault Refusal := .next (opPutlen s)

/-- The loop that reads a 4-byte integer, low byte first, from byte i on, `left` bytes still to read and n the value so
far; it faults ERR_TRUNC(i) when the source ends (R98, 20_memory R51). -/
def readIntFrom : Nat → Nat → Nat → State → CmdResult Nat
  | 0, _, n, s => .done n s
  | left + 1, i, n, s =>
    (srcReadOr (BitVec.ofNat 32 i) s).bind fun x s => readIntFrom left (i + 1) (n + x.toNat * 256 ^ i) s

/-- The operation of GETLEN (R98): LEN is written only if all four bytes were read. -/
def opGetlen (s : State) : CmdResult Unit :=
  (readIntFrom 4 0 0 s).bind fun n s => .done () (s.setLen (BitVec.ofNat 32 n))

/-- GETLEN (R98). -/
def execGetlen (s : State) : Host.Outcome State Fault Refusal := finish (opGetlen s)

end Sys2Proof.Machine
end

