-- ==== Sys2Proof/Machine/Rle.lean ====
section
/-! DEFINITION. RunLengthCodec commands (spec 45_rle R180 to R183): RENC, RDEC. -/

namespace Sys2Proof.Machine

/-- The operation of RENC (R181): the run record LE32(count) ++ [value] (R180). -/
def opRenc (imm : Byte) (s : State) : State := snkWrite imm (snkWriteAll (le32 s.len) s)

/-- RENC imm8 (R181). -/
def execRenc (imm : Byte) (s : State) : Host.Outcome State Fault Refusal := .next (opRenc imm s)

/-- The operation of RDEC (R182): LEN is written before the value byte is read. -/
def opRdec (s : State) : CmdResult Unit :=
  (opGetlen s).bind fun _ s =>
  (srcReadOr 0x10 s).bind fun v s =>
  .done () (snkWriteAll (List.replicate s.len.toNat v) s)

/-- RDEC (R182). -/
def execRdec (s : State) : Host.Outcome State Fault Refusal := finish (opRdec s)

end Sys2Proof.Machine
end

