-- ==== Sys2Proof/Machine/Vlc.lean ====
section
/-! DEFINITION. Variable-length code commands (spec 44_vlc R165 to R172): PUTSYM, HENC, GETSYM, HDEC. Encoding uses only
CODE, decoding only TREE (R165). -/

namespace Sys2Proof.Machine

/-- The operation of PUTSYM (R166): both checks come before any bit is written. -/
def opPutsym (imm : Byte) (s : State) : CmdResult Unit :=
  (requireCode s).bind fun c s => (requireCodeOf c imm s).bind fun p s => .done () (putBits p s)

/-- PUTSYM imm8 (R166). -/
def execPutsym (imm : Byte) (s : State) : Host.Outcome State Fault Refusal := finish (opPutsym imm s)

/-- The loop of HENC (R167) with at most `left` more bytes in the source. When no byte is left SrcRead() returns EOS and
the loop is over. -/
def encodeFrom (c : CodeTable) : Nat → State → CmdResult Unit
  | 0, s => .done () s
  | left + 1, s =>
    match srcRead s with
    | none => .done () s
    | some (x, s') => (requireCodeOf c x s').bind fun p s => encodeFrom c left (putBits p s)

/-- The operation of HENC (R167): it does not flush. -/
def opHenc (s : State) : CmdResult Unit := (requireCode s).bind fun c s => encodeFrom c (srcLeft s) s

/-- HENC (R167). -/
def execHenc (s : State) : Host.Outcome State Fault Refusal := finish (opHenc s)

/-- DecodeSym() from the position t of the walk (R168): "0→left child, 1→right child". -/
def decodeSym : Tree → State → CmdResult Byte
  | .leaf v, s => .done v s
  | .node l r, s =>
    match getBit s with
    | none => raise .trunc 0x30 s
    | some (b, s') => if b then decodeSym r s' else decodeSym l s'

/-- The operation of GETSYM (R169). -/
def opGetsym (s : State) : CmdResult Unit :=
  (requireTree s).bind fun t s => (decodeSym t s).bind fun v s => .done () (s.setRes (resOfByte v))

/-- GETSYM (R169). -/
def execGetsym (s : State) : Host.Outcome State Fault Refusal := finish (opGetsym s)

/-- The loop of HDEC (R170) with `left` symbols still to decode; every walk starts at the root. -/
def decodeSyms (t : Tree) : Nat → State → CmdResult Unit
  | 0, s => .done () s
  | left + 1, s => (decodeSym t s).bind fun v s => decodeSyms t left (snkWrite v s)

/-- The operation of HDEC (R170). -/
def opHdec (s : State) : CmdResult Unit := (requireTree s).bind fun t s => decodeSyms t s.len.toNat s

/-- HDEC (R170). -/
def execHdec (s : State) : Host.Outcome State Fault Refusal := finish (opHdec s)

end Sys2Proof.Machine
end

