-- ==== Sys2Proof/Machine/Codec.lean ====
section
/-! DEFINITION. Codec commands (spec 46_codec R191, R194): CMP and DCMP, compositions of the operations of the unit
commands; and Container(S) (R193) as a pure function. -/

namespace Sys2Proof.Machine

/-- `WBUF <- 0; WCNT <- 0; RBUF <- 0; RCNT <- 0` (R191, R194). -/
def clearBuffers (s : State) : State := readerInit (writerInit s)

/-- The branch k ≥ 2 of CMP (R191). -/
def compressHuffman (s : State) : CmdResult Unit :=
  (opTbuild (opPutlen (snkWrite Config.tagH s))).bind fun _ s =>
  (opTwrite s).bind fun _ s =>
  (opTcodes s).bind fun _ s =>
  (opHenc (srcRewind s)).bind fun _ s =>
  .done () (flush s)

/-- The branch on k, the number of present byte values (R190, R191): "the one byte value with FREQ[v] ≠ 0" is the one
element of the list when k = 1. -/
def compressByK (s : State) : CmdResult Unit :=
  match present s.freq with
  | [] => .done () s
  | [v] => .done () (opRenc v (snkWrite Config.tagR s))
  | _ :: _ :: _ => compressHuffman s

/-- The operation of CMP (R191). -/
def opCmp (s : State) : CmdResult Unit :=
  (opFscan (clearBuffers (srcMark s))).bind fun _ s => compressByK s

/-- CMP (R191). -/
def execCmp (s : State) : Host.Outcome State Fault Refusal := finish (opCmp s)

/-- The branch 'H' of DCMP (R194). -/
def decompressHuffman (s : State) : CmdResult Unit :=
  (opGetlen s).bind fun _ s => (opTread s).bind fun _ s => opHdec s

/-- The branches of DCMP after the tag read (R194, R195): EOS is the empty container. -/
def decompressByTag (s : State) : CmdResult Unit :=
  if s.eos then .done () s
  else if s.res = resOfByte Config.tagR then opRdec s
  else if s.res = resOfByte Config.tagH then decompressHuffman s
  else raise .tag (infoOfByte (s.res.extractLsb' 0 8)) s

/-- The operation of DCMP (R194). -/
def opDcmp (s : State) : CmdResult Unit := decompressByTag (opGetb (clearBuffers s))

/-- DCMP (R194). -/
def execDcmp (s : State) : Host.Outcome State Fault Refusal := finish (opDcmp s)

-- ## The container as a function of the input (R193)

/-- The counts of a byte list, the table FSCAN leaves (42_frequency R130). -/
def countsOf (bytes : List Byte) : FreqTable :=
  Vector.ofFn fun i => BitVec.ofNat 64 (bytes.count (BitVec.ofNat 8 i.val))

/-- `CODE[S[0]] ++ CODE[S[1]] ++ …` (R193). -/
def payloadBits (c : CodeTable) (bytes : List Byte) : List Bit := bytes.flatMap fun x => (tget c x).getD []

/-- `F = [0x00] if 8 divides |bits|, else []` (R193, 30_encoding R74). -/
def flushByte (bits : List Bit) : List Byte := if bits.length % 8 = 0 then [0x00] else []

/-- The Huffman container of a byte list and a tree: `[0x48] ++ LE32(|S|) ++ SerTree(T) ++ Pack(bits) ++ F` (R193). -/
def huffmanContainer (bytes : List Byte) (t : Tree) : List Byte :=
  let bits := payloadBits (codeTable t) bytes
  [Config.tagH] ++ le32 (BitVec.ofNat 32 bytes.length) ++ serTree t ++ pack bits ++ flushByte bits

/-- Container(S) (R193); TBUILD builds a tree whenever two distinct bytes occur. -/
def container (bytes : List Byte) : List Byte :=
  match bytes with
  | [] => []
  | v :: rest =>
    if rest.all (fun x => x == v) then [Config.tagR] ++ le32 (BitVec.ofNat 32 (v :: rest).length) ++ [v]
    else
      match buildTree (countsOf (v :: rest)) with
      | none => []
      | some t => huffmanContainer (v :: rest) t

end Sys2Proof.Machine
end

