-- ==== Sys2Proof/Machine/Dispatch.lean ====
section
/-! DEFINITION. exec: the meaning of each command, one arm per constructor. It is the command's Operation, performed once
the command has been accepted (spec 60_exceptions R213, line 4); acceptance itself stands in Accept.lean. -/

namespace Sys2Proof.Machine

/-- The Operation of a command. -/
def exec (i : Instr) (s : State) : Host.Outcome State Fault Refusal :=
  match i with
  | .nop => Sys2Proof.Machine.execNop s
  | .srst => Sys2Proof.Machine.execSrst s
  | .smark => Sys2Proof.Machine.execSmark s
  | .srew => Sys2Proof.Machine.execSrew s
  | .setlen => Sys2Proof.Machine.execSetlen s
  | .putb imm => Sys2Proof.Machine.execPutb imm s
  | .getb => Sys2Proof.Machine.execGetb s
  | .putlen => Sys2Proof.Machine.execPutlen s
  | .getlen => Sys2Proof.Machine.execGetlen s
  | .bwinit => Sys2Proof.Machine.execBwinit s
  | .bput b => Sys2Proof.Machine.execBput b s
  | .bflush => Sys2Proof.Machine.execBflush s
  | .brinit => Sys2Proof.Machine.execBrinit s
  | .bget => Sys2Proof.Machine.execBget s
  | .fclr => Sys2Proof.Machine.execFclr s
  | .fscan => Sys2Proof.Machine.execFscan s
  | .fset imm => Sys2Proof.Machine.execFset imm s
  | .fget imm => Sys2Proof.Machine.execFget imm s
  | .tbuild => Sys2Proof.Machine.execTbuild s
  | .twrite => Sys2Proof.Machine.execTwrite s
  | .tread => Sys2Proof.Machine.execTread s
  | .tcodes => Sys2Proof.Machine.execTcodes s
  | .clen imm => Sys2Proof.Machine.execClen imm s
  | .putsym imm => Sys2Proof.Machine.execPutsym imm s
  | .henc => Sys2Proof.Machine.execHenc s
  | .getsym => Sys2Proof.Machine.execGetsym s
  | .hdec => Sys2Proof.Machine.execHdec s
  | .renc imm => Sys2Proof.Machine.execRenc imm s
  | .rdec => Sys2Proof.Machine.execRdec s
  | .cmp => Sys2Proof.Machine.execCmp s
  | .dcmp => Sys2Proof.Machine.execDcmp s

end Sys2Proof.Machine
end

