-- ==== Sys2Proof/Machine/Accept.lean ====
section
/-! DEFINITION. The host port: acceptance of command words (spec 60_exceptions R213, R214), the CSR map (10_state R25 to
R27) and the host's actions (20_memory R48). -/

namespace Sys2Proof.Machine

/-- The word that encodes SRST (40_control_stream R91). -/
def srstWord : Word := 0x00000001

/-- A word written to CMD in state IDLE (60_exceptions R213, lines 3 and 4). -/
def acceptIdle (w : Word) (s : State) : Host.Outcome State Fault Refusal :=
  match decode w with
  | .command i => exec i s
  | .illegal _ => .next (enterFault .illcmd w s)

/-- A word written to CMD (60_exceptions R213, 10_state R27): in FAULT only SRST runs and every other word is refused, which
is no change at all (R214); in BUSY the write is ignored. -/
def writeCmd (w : Word) (s : State) : Host.Outcome State Fault Refusal :=
  match s.run with
  | .fault => if w = srstWord then exec .srst s else .next s
  | .idle => acceptIdle w s
  | .busy => .next s

/-- The registers of the CSR map (10_state R25). -/
inductive Csr where
  | cmd | status | argLo | argHi | resLo | resHi | len | kreg | einfo | bstat | reserved
  deriving DecidableEq, Repr

/-- The register at offset 4·index (10_state R25). -/
def csrAt (index : BitVec 6) : Csr :=
  match index.toNat with
  | 0 => .cmd
  | 1 => .status
  | 2 => .argLo
  | 3 => .argHi
  | 4 => .resLo
  | 5 => .resHi
  | 6 => .len
  | 7 => .kreg
  | 8 => .einfo
  | 9 => .bstat
  | _ => .reserved

/-- The value of a CSR read; CMD and reserved offsets read 0, and a read has no side effect (10_state R25, R26). -/
def csrValue (c : Csr) (s : State) : Word :=
  match c with
  | .cmd => 0
  | .status => statusWord s
  | .argLo => s.arg.extractLsb' 0 32
  | .argHi => s.arg.extractLsb' 32 32
  | .resLo => s.res.extractLsb' 0 32
  | .resHi => s.res.extractLsb' 32 32
  | .len => s.len
  | .kreg => kregWord s
  | .einfo => s.einfo
  | .bstat => bstatWord s
  | .reserved => 0

/-- A CSR write: CMD issues the command, ARG_LO and ARG_HI replace that half of ARG, a write to a read-only or reserved
offset is ignored (10_state R26, R27). -/
def csrWrite (c : Csr) (v : Word) (s : State) : Host.Outcome State Fault Refusal :=
  match c with
  | .cmd => writeCmd v s
  | .argLo => .next (s.setArg (argWithLow s.arg v))
  | .argHi => .next (s.setArg (argWithHigh s.arg v))
  | .status => .next s
  | .resLo => .next s
  | .resHi => .next s
  | .len => .next s
  | .kreg => .next s
  | .einfo => .next s
  | .bstat => .next s
  | .reserved => .next s

/-- The effect of a host action (20_memory R48). -/
def hostEffect (a : HostAction) (s : State) : Host.Outcome State Fault Refusal :=
  match a with
  | .loadSource bytes => .next (s.setSrc { data := bytes, pos := 0, mark := 0 })
  | .takeSink => .next ((s.answer (.sink s.snk)).setSnk [])
  | .writeArg v => .next (s.setArg v)
  | .issue w => writeCmd w s
  | .writeCsr index v => csrWrite (csrAt index) v s
  | .readCsr index => .next (s.answer (.csr (csrValue (csrAt index) s)))
  | .reset => .next (hardReset s)

/-- The host actions the spec admits while STATE = BUSY: reading STATUS (10_state R26), writing CMD, which is then ignored
(R27), and reset, which abandons the command (70_reset_and_hazards R240). -/
def allowedWhileBusy (a : HostAction) : Bool :=
  match a with
  | .loadSource _ => false
  | .takeSink => false
  | .writeArg _ => false
  | .issue _ => true
  | .writeCsr index _ => csrAt index == .cmd
  | .readCsr index => csrAt index == .status
  | .reset => true

/-- A host action; one that breaks the host duty of 10_state R26 has no move (93_implementation_defined I22). -/
def hostAct (a : HostAction) (s : State) : Host.Outcome State Fault Refusal :=
  if s.run = .busy ∧ allowedWhileBusy a = false then .fault .hostActsWhileBusy else hostEffect a s

/-- One move of the machine: the host's next action is performed; with none left the run is over and nothing changes
(00_scope R9, 70_reset_and_hazards R243; DESIGN CHOICE, notes/assumptions/3.md, 4.md). -/
def nextMove (s : State) : Host.Outcome State Fault Refusal :=
  match s.script with
  | [] => .next s
  | a :: rest => hostAct a (s.setScript rest)

/-- The state with the command word of a table row as the host's next action. -/
def placeCommand (s : State) (nbits w : Nat) : State :=
  s.setScript (.issue (BitVec.ofNat 32 (w % 2 ^ nbits)) :: s.script)

end Sys2Proof.Machine
end

