-- ==== Sys2Proof/Machine/Step.lean ====
section
/-! DEFINITION. One step of the machine (spec 20_memory R46, R48), and the placing of a command for the next step. -/

namespace Sys2Proof.Machine

/-- One step: the host's next action, which for HostIssue is the complete execution of one command. -/
def step (s : State) : Host.Outcome State Fault Refusal := nextMove s

/-- The state whose very next step issues the command word w. The block fetches nothing (10_state R12): a command reaches
it as the host's next action (DESIGN CHOICE, notes/assumptions/3.md). -/
def State.withFetchWord (s : State) (nbits w : Nat) : State := placeCommand s nbits w

end Sys2Proof.Machine
end

