-- ==== Sys2Proof/Safety.lean ====
section
/-! DEFINITION. The terms claims use: the invariant of every reachable state (spec 10_state R32), and the views of the
streams and bit buffers as lists. -/

namespace Sys2Proof.Machine

/-- The bytes of the source not yet read (20_memory R42, R47). -/
def srcRest (s : State) : List Byte := s.src.data.drop s.src.pos

/-- The bits accepted by the writer and not yet in the sink, the first accepted first (10_state R22). -/
def pendingBits (s : State) : List Bit := (bitsOfByte s.wbuf).take s.wcnt.toNat

/-- The bits fetched by the reader and not yet returned, the next one first (10_state R23). -/
def heldBits (s : State) : List Bit := (bitsOfByte s.rbuf).take s.rcnt.toNat

/-- All bits written so far: those in the sink and those pending (20_memory R47, R52). -/
def writtenBits (s : State) : List Bit := unpack s.snk ++ pendingBits s

/-- All bits the reader can still return: those it holds and those of the unread source bytes (20_memory R52). -/
def unreadBits (s : State) : List Bit := heldBits s ++ unpack (srcRest s)

/-- R32 (a), (b), and R17, R211: IDLE or FAULT; FAULT exactly when ERR ≠ 0; EINFO = 0 outside FAULT; ERR at most 9. -/
abbrev State.StatusOk (s : State) : Prop :=
  s.run ≠ .busy ∧ (s.run = .fault ↔ s.err ≠ 0) ∧ (s.run ≠ .fault → s.einfo = 0) ∧ s.err ≤ 9

/-- R32 (c), R22: WCNT ≤ 7 and WBUF[7:WCNT] = 0. -/
abbrev State.WriterOk (s : State) : Prop := s.wcnt ≤ 7 ∧ s.wbuf >>> s.wcnt.toNat = 0

/-- R32 (c), R23: RCNT ≤ 8 and RBUF[7:RCNT] = 0. -/
abbrev State.ReaderOk (s : State) : Prop := s.rcnt ≤ 8 ∧ s.rbuf >>> s.rcnt.toNat = 0

/-- R32 (d), R20: a valid TREE has an internal root and at most NODE_CAP nodes. -/
abbrev State.TreeOk (s : State) : Prop := ∀ t ∈ s.tree, t.valid = true

/-- R32 (e): CVALID = 1 implies TVALID = 1 and CODE is the table of TREE. -/
abbrev State.CodeOk (s : State) : Prop := ∀ c ∈ s.code, s.tree.map codeTable = some c

/-- R32 (g), R28: pos and mark stand inside the source or at its end. -/
abbrev State.SourceOk (s : State) : Prop := s.src.pos ≤ s.src.data.length ∧ s.src.mark ≤ s.src.data.length

/-- The invariant of every state reachable from reset (10_state R32); (f), LEN ≤ MAXLEN, is the width of LEN. -/
abbrev State.Inv (s : State) : Prop :=
  s.StatusOk ∧ s.WriterOk ∧ s.ReaderOk ∧ s.TreeOk ∧ s.CodeOk ∧ s.SourceOk

/-- The bits that n requests of GetBit() return, fewer at the end of the source (41_bitstream R113, R119). -/
def readBits : Nat → State → List Bit
  | 0, _ => []
  | n + 1, s =>
    match getBit s with
    | none => []
    | some (b, s') => b :: readBits n s'

/-- The commands of a list executed one after another, each from the state the one before left (20_memory R46, R47). -/
def execSeq : List Instr → State → Host.Outcome State Fault Refusal
  | [], s => .next s
  | i :: is, s =>
    match exec i s with
    | .next t => execSeq is t
    | .fault r => .fault r
    | .refused r => .refused r

/-- The command's word is the number n, and that word decodes to it: the "Encoding" line of a command rule (30_encoding
R63, R67). -/
def hasWord (i : Instr) (n : Nat) : Prop := (encode i).toNat = n ∧ decode (encode i) = .command i

/-- R141's order on entries: lower weight first, and among equal weights the lower sequence number. -/
def Precedes (a b : Entry) : Prop := a.w < b.w ∨ (a.w = b.w ∧ a.s < b.s)

/-- The loop of R142 over a set Q of entries, listed in any order, with s the next sequence number: while Q has two
entries or more the least a and the next least b leave it and `(a.w + b.w, s, Node(a.t, b.t))` joins it; the tree of the
single entry left is the result. -/
inductive MergesTo : List Entry → Nat → Tree → Prop where
  | last (e : Entry) (s : Nat) : MergesTo [e] s e.t
  | merge {q rest : List Entry} {a b : Entry} {s : Nat} {t : Tree} (split : q.Perm (a :: b :: rest))
      (least : ∀ x ∈ b :: rest, Precedes a x) (next : ∀ x ∈ rest, Precedes b x)
      (loop : MergesTo ({ w := a.w + b.w, s := s, t := .node a.t b.t } :: rest) (s + 1) t) : MergesTo q s t

/-- How ReadNode() ends (43_tree R148): with a tree, or ABSENT, and the value of the node counter c, or at a fault. -/
inductive NodeEnd where
  | read (t : Option Tree) (c : Nat)
  | faults (e : Byte) (info : Word)
  deriving DecidableEq, Repr

/-- ReadNode() on a list of unread bytes (R148, checks in the order of R149): `ReadsNode c bytes n r` says that with the
counter at c it consumes the first n bytes and ends as r. One constructor per way through the pseudocode. -/
inductive ReadsNode : Nat → List Byte → Nat → NodeEnd → Prop where
  | noFirst (c : Nat) : ReadsNode c [] 0 (.faults 0x05 0x20)
  | noSecond (c : Nat) (b0 : Byte) : ReadsNode c [b0] 1 (.faults 0x05 0x21)
  | absent (c : Nat) (rest : List Byte) : ReadsNode c (0x00 :: 0x01 :: rest) 2 (.read none c)
  | full {c : Nat} {b0 b1 : Byte} (rest : List Byte) (pair : ¬(b0 = 0x00 ∧ b1 = 0x01)) (cap : c = Config.nodeCap) :
      ReadsNode c (b0 :: b1 :: rest) 2 (.faults 0x07 0)
  | leftFaults {c n : Nat} {b0 b1 e : Byte} {info : Word} {rest : List Byte} (pair : ¬(b0 = 0x00 ∧ b1 = 0x01))
      (room : c ≠ Config.nodeCap) (left : ReadsNode (c + 1) rest n (.faults e info)) :
      ReadsNode c (b0 :: b1 :: rest) (2 + n) (.faults e info)
  | rightFaults {c c1 n m : Nat} {b0 b1 e : Byte} {info : Word} {rest : List Byte} {l : Option Tree}
      (pair : ¬(b0 = 0x00 ∧ b1 = 0x01)) (room : c ≠ Config.nodeCap) (left : ReadsNode (c + 1) rest n (.read l c1))
      (right : ReadsNode c1 (rest.drop n) m (.faults e info)) :
      ReadsNode c (b0 :: b1 :: rest) (2 + n + m) (.faults e info)
  | leaf {c c1 c2 n m : Nat} {b0 b1 : Byte} {rest : List Byte} (pair : ¬(b0 = 0x00 ∧ b1 = 0x01))
      (room : c ≠ Config.nodeCap) (left : ReadsNode (c + 1) rest n (.read none c1))
      (right : ReadsNode c1 (rest.drop n) m (.read none c2)) :
      ReadsNode c (b0 :: b1 :: rest) (2 + n + m) (.read (some (.leaf b0)) c2)
  | node {c c1 c2 n m : Nat} {b0 b1 : Byte} {rest : List Byte} {l r : Tree} (pair : ¬(b0 = 0x00 ∧ b1 = 0x01))
      (room : c ≠ Config.nodeCap) (left : ReadsNode (c + 1) rest n (.read (some l) c1))
      (right : ReadsNode c1 (rest.drop n) m (.read (some r) c2)) :
      ReadsNode c (b0 :: b1 :: rest) (2 + n + m) (.read (some (.node l r)) c2)
  | unary {c c1 c2 n m : Nat} {b0 b1 : Byte} {rest : List Byte} {l r : Option Tree} (pair : ¬(b0 = 0x00 ∧ b1 = 0x01))
      (room : c ≠ Config.nodeCap) (left : ReadsNode (c + 1) rest n (.read l c1))
      (right : ReadsNode c1 (rest.drop n) m (.read r c2)) (one : l.isSome ≠ r.isSome) :
      ReadsNode c (b0 :: b1 :: rest) (2 + n + m) (.faults 0x06 3)

/-- The total weighted code length of a tree: the sum over its leaves of count times depth (43_tree R145, R154). -/
def weightedLength (f : FreqTable) (t : Tree) : Nat := ((derive t []).map fun a => (tget f a.1).toNat * a.2.length).sum

/-- s after the fault E(info): the three elements fault entry writes (60_exceptions R212). -/
def faulting (s : State) (e : Byte) (info : Word) : State := { s with run := .fault, err := e, einfo := info }

/-- s with the fault fields of t: a command may end in a fault (60_exceptions R212). -/
def mayFault (s t : State) : State := { s with run := t.run, err := t.err, einfo := t.einfo }

/-- s with SRC.pos at p (20_memory R42). -/
def atPos (s : State) (p : Nat) : State := { s with src := { s.src with pos := p } }

/-- s after TREAD, ReadNode() having consumed n bytes and ended as r (43_tree R150). -/
def afterTread (s : State) (n : Nat) (r : NodeEnd) : State :=
  let t := { atPos s (s.src.pos + n) with tree := none, code := none }
  match r with
  | .read none _ => faulting t 0x06 1
  | .read (some (.leaf _)) _ => faulting t 0x06 2
  | .read (some (.node l r)) _ => { t with tree := some (.node l r) }
  | .faults e info => faulting t e info

/-- The state s in which the elements a command may write are those of t, and everything else is as it was: the
"written by" column of 10_state R10, with fault entry and the reads and writes of the two streams. -/
def writableBy (i : Instr) (s t : State) : State :=
  match i with
  | .nop => s
  | .srst =>
    { s with res := t.res, len := t.len, run := t.run, eos := t.eos, err := t.err, einfo := t.einfo, freq := t.freq,
             tree := t.tree, code := t.code, wbuf := t.wbuf, wcnt := t.wcnt, rbuf := t.rbuf, rcnt := t.rcnt }
  | .smark => { s with src := { s.src with mark := t.src.mark } }
  | .srew => atPos s t.src.pos
  | .setlen => { mayFault s t with len := t.len }
  | .putb _ => { s with snk := t.snk }
  | .getb => { atPos s t.src.pos with res := t.res, eos := t.eos }
  | .putlen => { s with snk := t.snk }
  | .getlen => { mayFault (atPos s t.src.pos) t with len := t.len }
  | .bwinit => { s with wbuf := t.wbuf, wcnt := t.wcnt }
  | .bput _ => { s with wbuf := t.wbuf, wcnt := t.wcnt, snk := t.snk }
  | .bflush => { s with wbuf := t.wbuf, wcnt := t.wcnt, snk := t.snk }
  | .brinit => { s with rbuf := t.rbuf, rcnt := t.rcnt }
  | .bget => { atPos s t.src.pos with res := t.res, eos := t.eos, rbuf := t.rbuf, rcnt := t.rcnt }
  | .fclr => { s with freq := t.freq }
  | .fscan => { mayFault (atPos s t.src.pos) t with freq := t.freq, len := t.len }
  | .fset _ => { s with freq := t.freq }
  | .fget _ => { s with res := t.res }
  | .tbuild => { mayFault s t with tree := t.tree, code := t.code }
  | .twrite => { mayFault s t with snk := t.snk }
  | .tread => { mayFault (atPos s t.src.pos) t with tree := t.tree, code := t.code }
  | .tcodes => { mayFault s t with code := t.code }
  | .clen _ => { mayFault s t with res := t.res }
  | .putsym _ => { mayFault s t with wbuf := t.wbuf, wcnt := t.wcnt, snk := t.snk }
  | .henc => { mayFault (atPos s t.src.pos) t with wbuf := t.wbuf, wcnt := t.wcnt, snk := t.snk }
  | .getsym => { mayFault (atPos s t.src.pos) t with res := t.res, rbuf := t.rbuf, rcnt := t.rcnt }
  | .hdec => { mayFault (atPos s t.src.pos) t with rbuf := t.rbuf, rcnt := t.rcnt, snk := t.snk }
  | .renc _ => { s with snk := t.snk }
  | .rdec => { mayFault (atPos s t.src.pos) t with len := t.len, snk := t.snk }
  | .cmp =>
    { mayFault s t with len := t.len, freq := t.freq, tree := t.tree, code := t.code, wbuf := t.wbuf, wcnt := t.wcnt,
                        rbuf := t.rbuf, rcnt := t.rcnt, snk := t.snk,
                        src := { s.src with pos := t.src.pos, mark := t.src.mark } }
  | .dcmp =>
    { mayFault (atPos s t.src.pos) t with res := t.res, len := t.len, eos := t.eos, tree := t.tree, code := t.code,
                                          wbuf := t.wbuf, wcnt := t.wcnt, rbuf := t.rbuf, rcnt := t.rcnt, snk := t.snk }

end Sys2Proof.Machine
end

