-- ==== Sys2Proof/Certificates/Slice0/Obligations.lean ====
section
/-! DEFINITION. The statements for the provers, from the numbered rules of spec/. Each docstring names its rules. Nothing
is proved here. -/

open Sys2Proof Sys2Proof.Machine

-- ## Encoding (30_encoding)

/-- Decoding the word of a command gives the command, with every operand at every value (R60, R61, R63). -/
def Obligations.DecodeEncodeRoundTrip : Prop := ∀ i : Instr, decode (encode i) = .command i

/-- A command has one word only: no bit of a legal word is ignored (R60, R61, R63). -/
def Obligations.EncodeDecodeRoundTrip : Prop := ∀ (w : Word) (i : Instr), decode w = .command i → encode i = w

/-- R64: decoding is total: a word matches exactly one row of the opcode map, and is that row's command, or none, and is
illegal; `rsv` is tested first, then `op`, then the imm8 constraint of the row's form. -/
def Obligations.EveryWordMatchesOneRowOrIsIllegal : Prop :=
  ∀ w : Word,
    (match decode w with
     | .command i => (opRows.filter (·.matchesWord w)).map (·.mnemonic) = [i.mnemonic]
     | .illegal _ => opRows.filter (·.matchesWord w) = []) ∧
    (decode w = .illegal .reservedBits ↔ CmdWord.badReserved w) ∧
    (decode w = .illegal .unknownOpcode ↔ ¬CmdWord.badReserved w ∧ CmdWord.badOpcode w) ∧
    (decode w = .illegal .immediateNotZero ↔ ¬CmdWord.badReserved w ∧ CmdWord.badImmediate w) ∧
    (decode w = .illegal .bitOperand ↔ ¬CmdWord.badReserved w ∧ CmdWord.badBitOperand w)

/-- R65: the four grounds on which a word is illegal, the unused opcodes, and the fault ERR_ILLCMD with EINFO = the word,
no other state changed (but the host's list, whose handling is a DESIGN CHOICE, notes/assumptions/3.md). -/
def Obligations.IllegalWordsFaultWithTheWord : Prop :=
  (∀ w : Word, (∃ why, decode w = .illegal why) ↔
    (CmdWord.badReserved w ∨ CmdWord.badOpcode w ∨ CmdWord.badImmediate w ∨ CmdWord.badBitOperand w)) ∧
  (∀ w : Word, CmdWord.badOpcode w = true ↔
    let op := (CmdWord.op w).toNat
    (0x09 ≤ op ∧ op ≤ 0x0F) ∨ (0x15 ≤ op ∧ op ≤ 0x1F) ∨ (0x24 ≤ op ∧ op ≤ 0x2F) ∨ (0x35 ≤ op ∧ op ≤ 0x3F) ∨
      (0x44 ≤ op ∧ op ≤ 0x4F) ∨ (0x52 ≤ op ∧ op ≤ 0x6F) ∨ (0x72 ≤ op ∧ op ≤ 0xFF)) ∧
  (∀ (s : State) (rest : List HostAction) (w : Word) (why : IllegalWord),
    s.script = .issue w :: rest → s.run = .idle → decode w = .illegal why →
    step s = .next (faulting { s with script := rest } 0x01 w))

/-- Words written out from the encoding tables decode to their commands (R60, R61, R63). -/
def Obligations.SampleCommandWordsDecode : Prop :=
  decode 0x00004805 = .command (.putb 0x48) ∧ decode 0x00000111 = .command (.bput true) ∧
  decode 0x0000FF22 = .command (.fset 0xFF) ∧ decode 0x00004134 = .command (.clen 0x41) ∧
  decode 0x00006140 = .command (.putsym 0x61) ∧ decode 0x00004150 = .command (.renc 0x41) ∧
  decode 0x00000071 = .command .dcmp ∧ decode 0x00000211 = .illegal .bitOperand

-- ## Steps, command acceptance and the host port (60_exceptions, 20_memory, 10_state)

/-- R213 line 4, R27, R46: a legal word issued in IDLE runs its command as one step; around it the step only takes the
word off the host's list (notes/assumptions/3.md). A command placed as the next one is that word. -/
def Obligations.StepRunsTheIssuedCommand : Prop :=
  (∀ (s : State) (rest : List HostAction) (w : Word) (i : Instr),
    s.script = .issue w :: rest → s.run = .idle → decode w = .command i → step s = exec i { s with script := rest }) ∧
  (∀ (s : State) (i : Instr), s.run = .idle → step (s.withFetchWord 32 (encode i).toNat) = exec i s)

/-- R214: in FAULT a word other than SRST has no effect at all, be it legal or not; SRST runs; ARG writes and CSR reads
still work. The lists `script` and `answers` are a DESIGN CHOICE (notes/assumptions/3.md, 5.md). -/
def Obligations.FaultStateRefusesAllButSrst : Prop :=
  ∀ (s : State) (rest : List HostAction), s.run = .fault →
    (∀ w : Word, s.script = .issue w :: rest → w ≠ 0x00000001 → step s = .next { s with script := rest }) ∧
    (s.script = .issue 0x00000001 :: rest → step s = exec .srst { s with script := rest }) ∧
    (∀ v : Dword, s.script = .writeArg v :: rest → step s = .next { s with script := rest, arg := v }) ∧
    (∀ k : BitVec 6, s.script = .readCsr k :: rest →
      step s = .next { s with script := rest, answers := s.answers ++ [.csr (csrValue (csrAt k) s)] })

/-- R17, R214, R215: in FAULT the first fault stays recorded through every move but a reset: hardware reset, or SRST.
A move is the first action of the list `script` (DESIGN CHOICE, notes/assumptions/3.md). -/
def Obligations.FirstFaultIsKept : Prop :=
  ∀ (s t : State) (a : HostAction) (rest : List HostAction), s.run = .fault → s.script = a :: rest → step s = .next t →
    a ≠ .reset → a ≠ .issue 0x00000001 → (∀ k, a = .writeCsr k 0x00000001 → k ≠ 0) →
    t.run = .fault ∧ t.err = s.err ∧ t.einfo = s.einfo

/-- R240, R242, R30: hardware reset puts every element of the block at its reset value and touches neither stream. The
model's choice beside that (DESIGN CHOICE): the action leaves the host's list and the answers stand (notes/assumptions/3.md,
5.md), and a reset acts in STATE = BUSY too, a state no run reaches (notes/assumptions/2.md). -/
def Obligations.HardwareResetState : Prop :=
  ∀ (s : State) (rest : List HostAction), s.script = .reset :: rest →
    ∃ t, step s = .next t ∧ t.run = .idle ∧ t.eos = false ∧ tvalid t = false ∧ cvalid t = false ∧ t.err = 0 ∧
      t.einfo = 0 ∧ t.arg = 0 ∧ t.res = 0 ∧ t.len = 0 ∧ (∀ v, tget t.freq v = 0) ∧ t.wbuf = 0 ∧ t.wcnt = 0 ∧
      t.rbuf = 0 ∧ t.rcnt = 0 ∧ t.src = s.src ∧ t.snk = s.snk ∧ t.script = rest ∧ t.answers = s.answers

/-- R48: the effect of each host action while no command runs. That a step takes the action off the list `script` is the
model's choice (DESIGN CHOICE, notes/assumptions/3.md), and so is the list `answers` of what the host is given back
(DESIGN CHOICE, notes/assumptions/5.md). -/
def Obligations.HostActionEffects : Prop :=
  ∀ (s : State) (rest : List HostAction), s.run ≠ .busy →
    (∀ bytes, s.script = .loadSource bytes :: rest →
      step s = .next { s with script := rest, src := { data := bytes, pos := 0, mark := 0 } }) ∧
    (s.script = .takeSink :: rest →
      step s = .next { s with script := rest, answers := s.answers ++ [.sink s.snk], snk := [] }) ∧
    (∀ v, s.script = .writeArg v :: rest → step s = .next { s with script := rest, arg := v }) ∧
    (∀ w, s.script = .issue w :: rest → step s = writeCmd w { s with script := rest }) ∧
    (∀ w, s.script = .writeCsr 0 w :: rest → step s = writeCmd w { s with script := rest }) ∧
    (∀ k, s.script = .readCsr k :: rest →
      step s = .next { s with script := rest, answers := s.answers ++ [.csr (csrValue (csrAt k) s)] }) ∧
    (s.script = .reset :: rest →
      step s = .next { State.reset with src := s.src, snk := s.snk, script := rest, answers := s.answers })

/-- R25, R26: the CSR map by word index (offset / 4); a write to ARG_LO or ARG_HI replaces that half of ARG and nothing
else; a write to a read-only or reserved offset is ignored. Naming an offset by its word index is a DESIGN CHOICE
(notes/assumptions/7.md), as are the lists `script` and `answers` (3.md, 5.md). -/
def Obligations.CsrMapAndAccess : Prop :=
  (∀ s : State,
    csrValue (csrAt 0) s = 0 ∧ csrValue (csrAt 1) s = statusWord s ∧
    csrValue (csrAt 3) s ++ csrValue (csrAt 2) s = s.arg ∧ csrValue (csrAt 5) s ++ csrValue (csrAt 4) s = s.res ∧
    csrValue (csrAt 6) s = s.len ∧ csrValue (csrAt 7) s = kregWord s ∧ csrValue (csrAt 8) s = s.einfo ∧
    csrValue (csrAt 9) s = bstatWord s ∧ ∀ k : BitVec 6, 10 ≤ k → csrValue (csrAt k) s = 0) ∧
  (∀ k : BitVec 6, csrValue (csrAt k) State.reset = 0) ∧
  (∀ (s : State) (rest : List HostAction) (k : BitVec 6) (v : Word), s.run ≠ .busy → s.script = .writeCsr k v :: rest →
    (k = 2 → ∃ a : Dword, step s = .next { s with script := rest, arg := a } ∧ a.extractLsb' 0 32 = v ∧
      a.extractLsb' 32 32 = s.arg.extractLsb' 32 32) ∧
    (k = 3 → ∃ a : Dword, step s = .next { s with script := rest, arg := a } ∧ a.extractLsb' 32 32 = v ∧
      a.extractLsb' 0 32 = s.arg.extractLsb' 0 32) ∧
    (k ≠ 0 → k ≠ 2 → k ≠ 3 → step s = .next { s with script := rest }))

/-- R13, R24: the fields of STATUS and of BSTAT; bits not listed read as 0. TVALID and CVALID are the presence of
a tree and of a code table (DEDUCED, notes/assumptions/1.md). -/
def Obligations.StatusAndBstatFields : Prop :=
  ∀ s : State,
    (statusWord s).extractLsb' 0 2 = (match s.run with | .idle => 0 | .busy => 1 | .fault => 2) ∧
    (statusWord s).getLsbD 2 = s.eos ∧ (statusWord s).getLsbD 3 = s.tree.isSome ∧
    (statusWord s).getLsbD 4 = s.code.isSome ∧ (statusWord s).extractLsb' 5 3 = 0 ∧
    (statusWord s).extractLsb' 8 8 = s.err ∧ (statusWord s).extractLsb' 16 16 = 0 ∧
    (bstatWord s).extractLsb' 0 8 = s.wbuf ∧ (bstatWord s).extractLsb' 8 4 = s.wcnt ∧
    (bstatWord s).extractLsb' 12 4 = 0 ∧ (bstatWord s).extractLsb' 16 8 = s.rbuf ∧
    (bstatWord s).extractLsb' 24 4 = s.rcnt ∧ (bstatWord s).extractLsb' 28 4 = 0

/-- R18: K is the number of values v in 0..255 with FREQ[v] ≠ 0, and KREG shows it. -/
def Obligations.KregCountsNonzeroEntries : Prop :=
  ∀ s : State,
    kCount s.freq = (Finset.univ.filter fun v : Fin 256 => s.freq[v.val] ≠ 0).card ∧
    (kregWord s).toNat = kCount s.freq ∧ kCount s.freq ≤ 256

/-- R27, R26, I22: while STATE = BUSY a CMD write is ignored, a read of STATUS answers, and a host access the spec forbids
has no move; with no host action left a step changes nothing. The forbidden access and the empty list are the model's
choice (notes/assumptions/2.md, 4.md). -/
def Obligations.BusyAndIdleHostMoves : Prop :=
  ∀ (s : State) (rest : List HostAction),
    (s.script = [] → step s = .next s) ∧
    (∀ w, s.run = .busy → s.script = .issue w :: rest → step s = .next { s with script := rest }) ∧
    (s.run = .busy → s.script = .readCsr 1 :: rest →
      step s = .next { s with script := rest, answers := s.answers ++ [.csr (statusWord s)] }) ∧
    (∀ a, s.run = .busy → s.script = a :: rest → allowedWhileBusy a = false → step s = .fault .hostActsWhileBusy)

-- ## The invariant (10_state R32)

/-- R32 holds right after reset. -/
def Obligations.ResetSatisfiesInvariant : Prop := State.reset.Inv

/-- R32: from every state that satisfies the invariant, a step leads to one that does. -/
def Obligations.EveryStepKeepsInvariant : Prop := ∀ s t : State, s.Inv → step s = .next t → t.Inv

/-- R257, R64, R213: from every state that satisfies the invariant a step completes; nothing stops the machine. -/
def Obligations.InvariantStatesNeverStop : Prop := ∀ s : State, s.Inv → ∃ t, step s = .next t

-- ## Frames

/-- R10 ("written by"), R11, R15, R16, R99, R134: every command leaves every element it is not listed as a writer of
unchanged. -/
def Obligations.EveryCommandFrame : Prop := ∀ (i : Instr) (s t : State), exec i s = .next t → t = writableBy i s t

/-- R28, R29: no command changes SRC.data, and the sink only grows at its end. -/
def Obligations.SourceIsFixedAndSinkOnlyGrows : Prop :=
  ∀ (i : Instr) (s t : State), exec i s = .next t → t.src.data = s.src.data ∧ s.snk <+: t.snk

-- ## Control and byte streams (40_control_stream), and RENC (45_rle)

/-- R90, R92, R93, R43, R44: NOP, SMARK and SREW. -/
def Obligations.NopMarkAndRewind : Prop :=
  ∀ s : State, hasWord .nop 0x00 ∧ hasWord .smark 0x02 ∧ hasWord .srew 0x03 ∧
    exec .nop s = .next s ∧
    exec .smark s = .next { s with src := { s.src with mark := s.src.pos } } ∧
    exec .srew s = .next { s with src := { s.src with pos := s.src.mark } }

/-- R91 SRST: every element of the block but ARG takes its reset value; the streams are unchanged. -/
def Obligations.SrstResetsAllButArg : Prop :=
  ∀ s : State, hasWord .srst 0x01 ∧ ∃ t, exec .srst s = .next t ∧ t.run = .idle ∧ t.eos = false ∧ tvalid t = false ∧ cvalid t = false ∧
    t.err = 0 ∧ t.einfo = 0 ∧ t.res = 0 ∧ t.len = 0 ∧ (∀ v, tget t.freq v = 0) ∧ t.wbuf = 0 ∧ t.wcnt = 0 ∧
    t.rbuf = 0 ∧ t.rcnt = 0 ∧ t.arg = s.arg ∧ t.src = s.src ∧ t.snk = s.snk ∧ t.script = s.script ∧
    t.answers = s.answers

/-- R94 SETLEN. -/
def Obligations.SetlenLoadsLenOrFaults : Prop :=
  ∀ s : State, hasWord .setlen 0x04 ∧
    (s.arg.toNat ≤ Config.maxLen → exec .setlen s = .next { s with len := s.arg.extractLsb' 0 32 }) ∧
    (Config.maxLen < s.arg.toNat → exec .setlen s = .next (faulting s 0x09 (s.arg.extractLsb' 32 32)))

/-- R95, R97, R181, R180, R51: PUTB, PUTLEN and RENC append to the sink and change nothing else. -/
def Obligations.ByteWritesAppend : Prop :=
  ∀ (s : State) (imm : Byte), hasWord (.putb imm) (0x05 + 256 * imm.toNat) ∧ hasWord .putlen 0x07 ∧
    hasWord (.renc imm) (0x50 + 256 * imm.toNat) ∧
    exec (.putb imm) s = .next { s with snk := s.snk ++ [imm] } ∧
    exec .putlen s = .next { s with snk := s.snk ++
      [s.len.extractLsb' 0 8, s.len.extractLsb' 8 8, s.len.extractLsb' 16 8, s.len.extractLsb' 24 8] } ∧
    exec (.renc imm) s = .next { s with snk := s.snk ++
      [s.len.extractLsb' 0 8, s.len.extractLsb' 8 8, s.len.extractLsb' 16 8, s.len.extractLsb' 24 8, imm] }

/-- R96, R42: GETB. -/
def Obligations.GetbReadsAByteOrSetsEos : Prop :=
  ∀ s : State, hasWord .getb 0x06 ∧
    (∀ b rest, srcRest s = b :: rest →
      exec .getb s = .next { atPos s (s.src.pos + 1) with eos := false, res := b.setWidth 64 }) ∧
    (srcRest s = [] → exec .getb s = .next { s with eos := true })

/-- R98, R51: GETLEN. -/
def Obligations.GetlenReadsAnInteger : Prop :=
  ∀ s : State, hasWord .getlen 0x08 ∧
    (∀ b0 b1 b2 b3 rest, srcRest s = b0 :: b1 :: b2 :: b3 :: rest →
      exec .getlen s = .next { atPos s (s.src.pos + 4) with
        len := BitVec.ofNat 32 (b0.toNat + 256 * b1.toNat + 65536 * b2.toNat + 16777216 * b3.toNat) }) ∧
    ((srcRest s).length < 4 →
      exec .getlen s = .next (faulting (atPos s (s.src.pos + (srcRest s).length)) 0x05
        (BitVec.ofNat 32 (srcRest s).length)))

-- ## Bit streams (41_bitstream)

/-- R112, R114, R116, R117: BWINIT, BFLUSH, BRINIT. -/
def Obligations.BufferCommandsEmptyTheBuffers : Prop :=
  ∀ s : State, hasWord .bwinit 0x10 ∧ hasWord .bflush 0x12 ∧ hasWord .brinit 0x13 ∧
    exec .bwinit s = .next { s with wbuf := 0, wcnt := 0 } ∧
    exec .bflush s = .next { s with snk := s.snk ++ [s.wbuf], wbuf := 0, wcnt := 0 } ∧
    exec .brinit s = .next { s with rbuf := 0, rcnt := 0 }

/-- R111, R115, R22: BPUT puts the bit at position WCNT, and the eighth bit sends the byte to the sink; seen as bits, it
appends its bit to the bits written so far. -/
def Obligations.BputPlacesTheBit : Prop :=
  ∀ (s : State) (b : Bit), hasWord (.bput b) (0x11 + 256 * b.toNat) ∧
    (let w : Byte := s.wbuf ||| ((if b then (1 : Byte) else 0) <<< s.wcnt.toNat)
     (s.wcnt ≠ 7 → exec (.bput b) s = .next { s with wbuf := w, wcnt := s.wcnt + 1 }) ∧
     (s.wcnt = 7 → exec (.bput b) s = .next { s with snk := s.snk ++ [w], wbuf := 0, wcnt := 0 })) ∧
    (s.WriterOk → ∃ t, exec (.bput b) s = .next t ∧ t.WriterOk ∧ writtenBits t = writtenBits s ++ [b])

/-- R113, R118: BGET takes bit 0 of RBUF, fetching a byte when RCNT = 0; at the end only EOS changes. -/
def Obligations.BgetTakesTheLowBit : Prop :=
  ∀ s : State, hasWord .bget 0x14 ∧
    (s.rcnt ≠ 0 → exec .bget s = .next { s with
      eos := false, res := (BitVec.ofBool (s.rbuf.getLsbD 0)).setWidth 64, rbuf := s.rbuf >>> 1, rcnt := s.rcnt - 1 }) ∧
    (∀ x rest, s.rcnt = 0 → srcRest s = x :: rest → exec .bget s = .next { atPos s (s.src.pos + 1) with
      eos := false, res := (BitVec.ofBool (x.getLsbD 0)).setWidth 64, rbuf := x >>> 1, rcnt := 7 }) ∧
    (s.rcnt = 0 → srcRest s = [] → exec .bget s = .next { s with eos := true })

/-- R119, R112, R52: bits written from an empty writer and flushed give ⌊|p|/8⌋ + 1 bytes with bit i at position i mod 8 of
byte ⌊i/8⌋; read from an empty reader they come back in order, followed by 1 to 8 zeros and then the end of the stream. -/
def Obligations.WrittenBitsAreReadBack : Prop :=
  ∀ (s : State) (p : List Bit), s.wbuf = 0 → s.wcnt = 0 →
    ∃ t out z, execSeq (p.map .bput ++ [.bflush]) s = .next t ∧ t.snk = s.snk ++ out ∧ t.wbuf = 0 ∧ t.wcnt = 0 ∧
      out.length = p.length / 8 + 1 ∧
      (∀ i (h : i < p.length), (out.getD (i / 8) 0).getLsbD (i % 8) = p[i]) ∧ 1 ≤ z ∧ z ≤ 8 ∧
      ∀ u : State, u.rbuf = 0 → u.rcnt = 0 → srcRest u = out →
        ∀ more, readBits (p.length + z + more) u = p ++ List.replicate z false

-- ## Frequency table (42_frequency)

/-- R129, R132, R133: FCLR, FSET, FGET. -/
def Obligations.FrequencyTableAccess : Prop :=
  ∀ (s : State) (imm : Byte), hasWord .fclr 0x20 ∧ hasWord (.fset imm) (0x22 + 256 * imm.toNat) ∧
    hasWord (.fget imm) (0x23 + 256 * imm.toNat) ∧
    (∃ f, exec .fclr s = .next { s with freq := f } ∧ (∀ v, tget f v = 0) ∧ kCount f = 0) ∧
    (∃ f, exec (.fset imm) s = .next { s with freq := f } ∧ tget f imm = s.arg ∧ ∀ v, v ≠ imm → tget f v = tget s.freq v) ∧
    exec (.fget imm) s = .next { s with res := tget s.freq imm }

/-- R130, R131, R125, R126: FSCAN counts the unread bytes and puts their number in LEN; byte number 2^32 of a scan is
consumed, not counted, and faults ERR_SIZE with EINFO = 0, LEN and the sink unchanged. -/
def Obligations.FscanCountsTheSource : Prop :=
  ∀ s : State, hasWord .fscan 0x21 ∧
    (srcLeft s ≤ Config.maxLen →
      ∃ f, exec .fscan s = .next { atPos s (s.src.pos + srcLeft s) with freq := f, len := BitVec.ofNat 32 (srcLeft s) } ∧
        (∀ v, (tget f v).toNat = (srcRest s).count v) ∧ (f.toList.map BitVec.toNat).sum = srcLeft s ∧
        (s.src.pos ≤ s.src.data.length → s.src.pos + srcLeft s = s.src.data.length)) ∧
    (Config.maxLen < srcLeft s →
      ∃ f, exec .fscan s = .next (faulting { atPos s (s.src.pos + Config.maxLen + 1) with freq := f } 0x03 0) ∧
        ∀ v, (tget f v).toNat = ((srcRest s).take Config.maxLen).count v)

-- ## Huffman tree (43_tree)

/-- R140, R142, R145: TBUILD with K < 2 faults ERR_PRECOND(1) and builds nothing; with K ≥ 2 it builds a tree with an
internal root, one leaf per byte value with non-zero count and 2K − 1 nodes, at most NODE_CAP, and clears CVALID. -/
def Obligations.TbuildBuildsOrFaults : Prop :=
  ∀ s : State, hasWord .tbuild 0x30 ∧
    (kCount s.freq < 2 → exec .tbuild s = .next (faulting s 0x02 1)) ∧
    (2 ≤ kCount s.freq →
      ∃ T, exec .tbuild s = .next { s with tree := some T, code := none } ∧ T.isNode = true ∧ T.leaves.Nodup ∧
        (∀ v, v ∈ T.leaves ↔ tget s.freq v ≠ 0) ∧ T.nodes + 1 = 2 * kCount s.freq ∧ T.nodes ≤ Config.nodeCap)

/-- R141, R142, R144: with two byte values present the lower-keyed one is the left child, and of two equal counts the smaller
byte value. -/
def Obligations.TbuildOrdersTwoSymbols : Prop :=
  ∀ (s : State) (u v : Byte), u < v → (∀ x, tget s.freq x ≠ 0 ↔ x = u ∨ x = v) →
    (tget s.freq u ≤ tget s.freq v →
      exec .tbuild s = .next { s with tree := some (.node (.leaf u) (.leaf v)), code := none }) ∧
    (tget s.freq v < tget s.freq u →
      exec .tbuild s = .next { s with tree := some (.node (.leaf v) (.leaf u)), code := none })

/-- R145: the tree TBUILD builds minimises the total weighted code length among the trees with the same leaves. -/
def Obligations.TbuildMinimisesCodeLength : Prop :=
  ∀ s : State, 2 ≤ kCount s.freq →
    ∃ T, exec .tbuild s = .next { s with tree := some T, code := none } ∧
      ∀ U : Tree, U.leaves.Perm T.leaves → weightedLength s.freq T ≤ weightedLength s.freq U

/-- R141, R142, R143, R144: TBUILD numbers the leaves of the bytes present from 0 in ascending byte value, keys each by
its count, and merges by R142's loop, exact weights and the first extracted entry as the left child included; with K < 2 it
faults. -/
def Obligations.TbuildFollowsTheMergeRule : Prop :=
  ∀ s : State, hasWord .tbuild 0x30 ∧
    (kCount s.freq < 2 → exec .tbuild s = .next (faulting s 0x02 1)) ∧
    (2 ≤ kCount s.freq →
      ∃ T seeds, exec .tbuild s = .next { s with tree := some T, code := none } ∧ MergesTo seeds seeds.length T ∧
        (∀ v : Byte, tget s.freq v ≠ 0 ↔ v ∈ seeds.flatMap fun e => e.t.leaves) ∧
        ∀ i (h : i < seeds.length), ∃ v : Byte, seeds[i] = { w := (tget s.freq v).toNat, s := i, t := .leaf v } ∧
          ∀ j (h' : j < i) (u : Byte), seeds[j].t = .leaf u → u < v)

/-- R75, R77, R147: TWRITE appends SerTree(TREE), 8n − 2 bytes for n leaves; without a tree it faults. -/
def Obligations.TwriteAppendsTheSerialisedTree : Prop :=
  ∀ s : State, hasWord .twrite 0x31 ∧
    (∀ T, s.tree = some T → exec .twrite s = .next { s with snk := s.snk ++ serTree T } ∧
      (serTree T).length + 2 = 8 * T.leaves.length) ∧
    (s.tree = none → exec .twrite s = .next (faulting s 0x02 2))

/-- R150, R159, R151: TREAD on SerTree(T), T any valid tree, gives exactly T and consumes exactly those bytes. The second
byte of a node and the first byte of an internal node are not checked: a pair (x, 1) with x ≠ 0 is a node. -/
def Obligations.TreadReadsBackTheTree : Prop :=
  (hasWord .tread 0x32) ∧
  (∀ (s : State) (T : Tree) (rest : List Byte), T.valid = true → srcRest s = serTree T ++ rest →
    exec .tread s = .next { atPos s (s.src.pos + (serTree T).length) with tree := some T, code := none }) ∧
  (∀ (s : State) (b0 b1 m u v : Byte) (rest : List Byte),
    ¬(b0 = 0x00 ∧ b1 = 0x01) → ¬(u = 0x00 ∧ m = 0x01) →
    srcRest s = [b0, b1] ++ [u, m, 0x00, 0x01, 0x00, 0x01] ++ [v, 0x00, 0x00, 0x01, 0x00, 0x01] ++ rest →
    exec .tread s = .next { atPos s (s.src.pos + 14) with tree := some (.node (.leaf u) (.leaf v)), code := none })

/-- R148, R149, R150: TREAD follows ReadNode() on every source. Every list of unread bytes makes ReadNode() end in some
way, and whichever way that is, TREAD leaves the state R150 gives for it. Then what this means at every node position: a
serialised tree cut short at any byte; a tree of more than 511 nodes; a root with one child, on either side; and the absent
root, the leaf root and a chain of 512 nodes. -/
def Obligations.TreadFaultsOnUnusableTrees : Prop :=
  (hasWord .tread 0x32) ∧
  ∀ (s : State) (rest : List Byte),
    let bad (n : Nat) (e : Byte) (info : Word) : Host.Outcome State Fault Refusal :=
      .next (faulting { atPos s (s.src.pos + n) with tree := none, code := none } e info)
    (∃ n r, ReadsNode 0 (srcRest s) n r) ∧
    (∀ n r, ReadsNode 0 (srcRest s) n r → exec .tread s = .next (afterTread s n r)) ∧
    (∀ (T : Tree) (q z : List Byte), T.nodes ≤ Config.nodeCap → serTree T = q ++ z → z ≠ [] → srcRest s = q →
      exec .tread s = bad q.length 0x05 (if q.length % 2 = 0 then 0x20 else 0x21)) ∧
    (∀ T : Tree, Config.nodeCap < T.nodes → srcRest s = serTree T ++ rest →
      ∃ n, n ≤ (serTree T).length ∧ exec .tread s = bad n 0x07 0) ∧
    (∀ (T : Tree) (b0 b1 : Byte), T.nodes < Config.nodeCap → ¬(b0 = 0x00 ∧ b1 = 0x01) →
      (srcRest s = [b0, b1] ++ serTree T ++ [0x00, 0x01] ++ rest → exec .tread s = bad (4 + (serTree T).length) 0x06 3) ∧
      (srcRest s = [b0, b1] ++ [0x00, 0x01] ++ serTree T ++ rest → exec .tread s = bad (4 + (serTree T).length) 0x06 3)) ∧
    (srcRest s = [0x00, 0x01] ++ rest → exec .tread s = bad 2 0x06 1) ∧
    (∀ v, srcRest s = [v, 0x00, 0x00, 0x01, 0x00, 0x01] ++ rest → exec .tread s = bad 6 0x06 2) ∧
    (srcRest s = List.replicate 1024 0x00 ++ rest → exec .tread s = bad 1024 0x07 0)

/-- R150, R153, R16: TREAD from any position always ends: with a valid tree, or in one of its faults with TVALID and
CVALID cleared. -/
def Obligations.TreadEndsWithAValidTreeOrAFault : Prop :=
  ∀ s : State, s.SourceOk →
    ∃ t, exec .tread s = .next t ∧ s.src.pos ≤ t.src.pos ∧ t.src.pos ≤ s.src.data.length ∧
      ((∃ T, T.valid = true ∧ t = { atPos s t.src.pos with tree := some T, code := none }) ∨
       (∃ e info, t = faulting { atPos s t.src.pos with tree := none, code := none } e info ∧
         ((e, info) ∈ [((0x05 : Byte), (0x20 : Word)), (0x05, 0x21), (0x07, 0), (0x06, 1), (0x06, 2), (0x06, 3)])))

/-- R154, R155, R156: TCODES gives every byte the path to its last leaf in preorder, and bytes without a leaf no code; a
root that is internal makes every code one bit at least; without a tree it faults. -/
def Obligations.TcodesKeepsTheLastPath : Prop :=
  ∀ s : State, hasWord .tcodes 0x33 ∧
    (∀ T, s.tree = some T → ∃ c, exec .tcodes s = .next { s with code := some c } ∧
      (∀ v, tget c v = ((derive T []).reverse.find? fun a => a.1 == v).map Prod.snd) ∧
      (T.isNode = true → ∀ v p, tget c v = some p → 1 ≤ p.length)) ∧
    (s.tree = none → exec .tcodes s = .next (faulting s 0x02 2))

/-- R21, R157, R32 (e): in a state that satisfies the invariant, codes of distinct bytes are not prefixes of one another
and have 1 to 255 bits. -/
def Obligations.CodesArePrefixFreeAndBounded : Prop :=
  ∀ (s : State) (c : CodeTable), s.Inv → s.code = some c →
    (∀ v p, tget c v = some p → 1 ≤ p.length ∧ p.length ≤ Config.maxCodeLen) ∧
    (∀ u v p q, u ≠ v → tget c u = some p → tget c v = some q → ¬ p <+: q)

/-- R158: CLEN. -/
def Obligations.ClenReportsTheLength : Prop :=
  ∀ (s : State) (imm : Byte), hasWord (.clen imm) (0x34 + 256 * imm.toNat) ∧
    (∀ c, s.code = some c → tget c imm = none → exec (.clen imm) s = .next { s with res := 0 }) ∧
    (∀ c p, s.code = some c → tget c imm = some p →
      exec (.clen imm) s = .next { s with res := BitVec.ofNat 64 (256 + p.length) }) ∧
    (s.code = none → exec (.clen imm) s = .next (faulting s 0x02 3))

-- ## Variable-length codes (44_vlc)

/-- R166: PUTSYM writes the code of its byte, or faults before any bit is written. -/
def Obligations.PutsymWritesTheCode : Prop :=
  ∀ (s : State) (imm : Byte), hasWord (.putsym imm) (0x40 + 256 * imm.toNat) ∧
    (∀ c p, s.code = some c → tget c imm = some p → s.WriterOk →
      ∃ t, exec (.putsym imm) s = .next t ∧ t.WriterOk ∧ writtenBits t = writtenBits s ++ p ∧
        t = { s with wbuf := t.wbuf, wcnt := t.wcnt, snk := t.snk }) ∧
    (∀ c, s.code = some c → tget c imm = none → exec (.putsym imm) s = .next (faulting s 0x08 (imm.setWidth 32))) ∧
    (s.code = none → exec (.putsym imm) s = .next (faulting s 0x02 3))

/-- R167: HENC writes the codes of all unread bytes, or of those before the first byte without a code, which is consumed
and faults ERR_NOCODE. -/
def Obligations.HencEncodesTheSource : Prop :=
  ∀ s : State, hasWord .henc 0x41 ∧
    (∀ c, s.code = some c → s.WriterOk → (∀ x ∈ srcRest s, (tget c x).isSome) →
      ∃ t, exec .henc s = .next t ∧ t.WriterOk ∧ writtenBits t = writtenBits s ++ payloadBits c (srcRest s) ∧
        t = { atPos s (s.src.pos + srcLeft s) with wbuf := t.wbuf, wcnt := t.wcnt, snk := t.snk }) ∧
    (∀ c xs x rest, s.code = some c → s.WriterOk → srcRest s = xs ++ x :: rest → (∀ y ∈ xs, (tget c y).isSome) →
      tget c x = none →
      ∃ t, exec .henc s = .next t ∧ t.WriterOk ∧ writtenBits t = writtenBits s ++ payloadBits c xs ∧
        t = faulting { atPos s (s.src.pos + xs.length + 1) with wbuf := t.wbuf, wcnt := t.wcnt, snk := t.snk } 0x08
          (x.setWidth 32)) ∧
    (s.code = none → exec .henc s = .next (faulting s 0x02 3))

/-- R168, R169: GETSYM walks from the root along the unread bits to a leaf, fetching a byte only when one is needed, or
faults when the bits end before a leaf. -/
def Obligations.GetsymFollowsTheBits : Prop :=
  ∀ s : State, hasWord .getsym 0x42 ∧
    (∀ (T : Tree) (v : Byte) (p rest : List Bit), s.tree = some T → s.ReaderOk → (v, p) ∈ derive T [] →
      unreadBits s = p ++ rest →
      ∃ t, exec .getsym s = .next t ∧ t.ReaderOk ∧ unreadBits t = rest ∧
        t = { atPos s (s.src.pos + (p.length + 7 - s.rcnt.toNat) / 8) with
              res := v.setWidth 64, rbuf := t.rbuf, rcnt := t.rcnt }) ∧
    (∀ T : Tree, s.tree = some T → s.ReaderOk → (∀ v p, (v, p) ∈ derive T [] → ¬ p <+: unreadBits s) →
      exec .getsym s = .next (faulting { atPos s (s.src.pos + srcLeft s) with rbuf := 0, rcnt := 0 } 0x05 0x30)) ∧
    (s.tree = none → exec .getsym s = .next (faulting s 0x02 2))

/-- R170, R168: HDEC follows the paths of LEN leaves, one after another, to their bytes, leaves the bits after them
unread, and fetches no byte it does not need. Any path to a leaf counts, be it the one TCODES keeps for that byte or not
(R152, R156). -/
def Obligations.HdecDecodesLenSymbols : Prop :=
  (hasWord .hdec 0x43) ∧
  ∀ (s : State) (T : Tree) (symbols : List (Byte × List Bit)) (rest : List Bit), s.tree = some T → s.ReaderOk →
    s.len.toNat = symbols.length → (∀ a ∈ symbols, a ∈ derive T []) →
    unreadBits s = symbols.flatMap Prod.snd ++ rest →
    ∃ t, exec .hdec s = .next t ∧ t.ReaderOk ∧ unreadBits t = rest ∧
      t = { atPos s (s.src.pos + ((symbols.flatMap Prod.snd).length + 7 - s.rcnt.toNat) / 8) with
            snk := s.snk ++ symbols.map Prod.fst, rbuf := t.rbuf, rcnt := t.rcnt }

/-- R171, R170, R218: with a tree HDEC emits exactly LEN bytes, or faults ERR_TRUNC(0x30) with fewer in the sink; what it
emits are the bytes of the leaves that the unread bits lead to, up to bits that lead to none; without a tree it faults
ERR_PRECOND(2). -/
def Obligations.HdecEmitsExactlyLenOrFaults : Prop :=
  (hasWord .hdec 0x43) ∧
  ∀ s : State,
    (∀ T, s.tree = some T → ∃ t out, exec .hdec s = .next t ∧ t.snk = s.snk ++ out ∧
      ((t.run = s.run ∧ t.err = s.err ∧ t.einfo = s.einfo ∧ out.length = s.len.toNat ∧
        (s.ReaderOk → ∃ symbols : List (Byte × List Bit), (∀ a ∈ symbols, a ∈ derive T []) ∧
          out = symbols.map Prod.fst ∧ unreadBits s = symbols.flatMap Prod.snd ++ unreadBits t)) ∨
       (t.run = .fault ∧ t.err = 0x05 ∧ t.einfo = 0x30 ∧ out.length < s.len.toNat ∧
        (s.ReaderOk → ∃ (symbols : List (Byte × List Bit)) (cut : List Bit), (∀ a ∈ symbols, a ∈ derive T []) ∧
          out = symbols.map Prod.fst ∧ unreadBits s = symbols.flatMap Prod.snd ++ cut ∧
          (∀ v p, (v, p) ∈ derive T [] → ¬ p <+: cut) ∧
          t = faulting { atPos s (s.src.pos + srcLeft s) with snk := s.snk ++ out, rbuf := 0, rcnt := 0 } 0x05 0x30)))) ∧
    (s.tree = none → exec .hdec s = .next (faulting s 0x02 2))

/-- R172: what HENC and BFLUSH write from an empty writer, HDEC with the same tree, LEN and an empty reader turns back
into the bytes encoded, whatever follows in the source. -/
def Obligations.EncodeDecodeLaw : Prop :=
  ∀ (s : State) (T : Tree), s.code = some (codeTable T) → s.wbuf = 0 → s.wcnt = 0 → srcLeft s ≤ Config.maxLen →
    (∀ x ∈ srcRest s, x ∈ T.leaves) →
    ∃ t out, execSeq [.henc, .bflush] s = .next t ∧ t.snk = s.snk ++ out ∧
      ∀ (u : State) (rest : List Byte), u.tree = some T → u.rbuf = 0 → u.rcnt = 0 →
        u.len = BitVec.ofNat 32 (srcLeft s) → srcRest u = out ++ rest →
        ∃ v, exec .hdec u = .next v ∧ v.snk = u.snk ++ srcRest s ∧ v.run = u.run

-- ## Run lengths (45_rle)

/-- R182: RDEC, and its faults inside the count and at the value. -/
def Obligations.RdecExpandsTheRunRecord : Prop :=
  ∀ s : State, hasWord .rdec 0x51 ∧
    (∀ (n : Word) (v : Byte) (rest : List Byte), srcRest s = le32 n ++ [v] ++ rest →
      exec .rdec s = .next { atPos s (s.src.pos + 5) with len := n, snk := s.snk ++ List.replicate n.toNat v }) ∧
    ((srcRest s).length < 4 →
      exec .rdec s = .next (faulting (atPos s (s.src.pos + (srcRest s).length)) 0x05
        (BitVec.ofNat 32 (srcRest s).length))) ∧
    (∀ n : Word, srcRest s = le32 n →
      exec .rdec s = .next (faulting { atPos s (s.src.pos + 4) with len := n } 0x05 0x10))

/-- R183: the run-length round trip. -/
def Obligations.RunLengthRoundTrip : Prop :=
  ∀ (s u : State) (v : Byte) (rest : List Byte),
    ∃ t out, exec (.renc v) s = .next t ∧ t.snk = s.snk ++ out ∧
      (srcRest u = out ++ rest → ∃ r, exec .rdec u = .next r ∧ r.snk = u.snk ++ List.replicate s.len.toNat v ∧
        r.src.pos = u.src.pos + 5 ∧ r.run = u.run)

-- ## Codec (46_codec)

/-- R191, R193: CMP on at most MAXLEN unread bytes S appends Container(S), and leaves exactly the state the rule lists. -/
def Obligations.CmpAppendsTheContainer : Prop :=
  (hasWord .cmp 0x70) ∧
  ∀ s : State, srcLeft s ≤ Config.maxLen →
    ∃ t, exec .cmp s = .next t ∧
      t = { s with snk := s.snk ++ container (srcRest s), len := BitVec.ofNat 32 (srcLeft s), freq := t.freq,
                   src := { s.src with pos := s.src.pos + srcLeft s, mark := s.src.pos },
                   wbuf := 0, wcnt := 0, rbuf := 0, rcnt := 0, tree := t.tree, code := t.code } ∧
      (∀ v, (tget t.freq v).toNat = (srcRest s).count v) ∧
      (kCount t.freq < 2 → t.tree = s.tree ∧ t.code = s.code) ∧
      (2 ≤ kCount t.freq → ∃ T, buildTree t.freq = some T ∧ t.tree = some T ∧ t.code = some (codeTable T))

/-- R191: CMP is the sequence of its unit commands, in each of its three branches. -/
def Obligations.CmpIsTheSequenceOfUnitCommands : Prop :=
  ∀ s : State, srcLeft s ≤ Config.maxLen →
    let start : List Instr := [.smark, .bwinit, .brinit, .fscan]
    (srcRest s = [] → exec .cmp s = execSeq start s) ∧
    (∀ v, srcRest s ≠ [] → (∀ x ∈ srcRest s, x = v) → exec .cmp s = execSeq (start ++ [.putb 0x52, .renc v]) s) ∧
    ((∃ x ∈ srcRest s, ∃ y ∈ srcRest s, x ≠ y) →
      exec .cmp s = execSeq (start ++ [.putb 0x48, .putlen, .tbuild, .twrite, .tcodes, .srew, .henc, .bflush]) s)

/-- R191, R131, R218: CMP on more than MAXLEN bytes faults ERR_SIZE with nothing in the sink, the mark set and the bit
buffers cleared. -/
def Obligations.CmpRejectsOversizedInput : Prop :=
  ∀ s : State, Config.maxLen < srcLeft s →
    ∃ f, exec .cmp s = .next (faulting { s with
        src := { s.src with pos := s.src.pos + Config.maxLen + 1, mark := s.src.pos },
        wbuf := 0, wcnt := 0, rbuf := 0, rcnt := 0, freq := f } 0x03 0) ∧
      ∀ v, (tget f v).toNat = ((srcRest s).take Config.maxLen).count v

/-- R192, R71, R73, R80: the container kind is chosen by the number m of distinct byte values alone; an 'R' container has 6
bytes, and an 'H' container with B payload bits 1 + 4 + (8m − 2) + ⌊B/8⌋ + 1. -/
def Obligations.ContainerKindAndLength : Prop :=
  ∀ s : State, srcLeft s ≤ Config.maxLen →
    ∃ t out, exec .cmp s = .next t ∧ t.snk = s.snk ++ out ∧
      ((srcRest s).toFinset.card = 0 → out = []) ∧
      ((srcRest s).toFinset.card = 1 → out.head? = some 0x52 ∧ out.length = 6) ∧
      (2 ≤ (srcRest s).toFinset.card → out.head? = some 0x48 ∧
        ∃ c, t.code = some c ∧
          out.length = 1 + 4 + (8 * (srcRest s).toFinset.card - 2) + (payloadBits c (srcRest s)).length / 8 + 1)

/-- R194, R199: DCMP on Container(S), whatever follows it, appends S and leaves the state the rule lists; it reads an 'R'
container exactly, and of an 'H' container everything but a flush byte that follows whole payload bytes. The reader is left empty, or with the
padding bits of the last payload byte, which are zeros. -/
def Obligations.DcmpDecodesAContainer : Prop :=
  (hasWord .dcmp 0x71) ∧
  ∀ (s : State) (bytes rest : List Byte), bytes.length ≤ Config.maxLen → srcRest s = container bytes ++ rest →
    (bytes = [] → rest = []) →
    ∃ t, exec .dcmp s = .next t ∧ t.snk = s.snk ++ bytes ∧ t.run = s.run ∧ t.err = s.err ∧ t.einfo = s.einfo ∧
      t.freq = s.freq ∧ t.src.mark = s.src.mark ∧ t.wbuf = 0 ∧ t.wcnt = 0 ∧ (t.eos = true ↔ bytes = []) ∧
      (bytes = [] → t.res = s.res ∧ t.len = s.len ∧ t.src.pos = s.src.pos ∧ t.tree = s.tree ∧ t.code = s.code) ∧
      (bytes ≠ [] → t.len = BitVec.ofNat 32 bytes.length) ∧ (bytes.toFinset.card ≤ 1 → t.rbuf = 0 ∧ t.rcnt = 0) ∧
      (bytes.toFinset.card = 1 → t.res = 0x52 ∧ t.src.pos = s.src.pos + 6 ∧ t.tree = s.tree ∧ t.code = s.code) ∧
      (2 ≤ bytes.toFinset.card → ∃ T, buildTree (countsOf bytes) = some T ∧ t.res = 0x48 ∧ t.tree = some T ∧
        t.code = none ∧ t.src.pos =
          s.src.pos + 1 + 4 + (serTree T).length + ((payloadBits (codeTable T) bytes).length + 7) / 8 ∧
        t.rbuf = 0 ∧
        t.rcnt.toNat + (payloadBits (codeTable T) bytes).length = 8 * (((payloadBits (codeTable T) bytes).length + 7) / 8))

/-- R197: DCMP of what CMP wrote gives back the input, for every input of at most MAXLEN bytes, the empty one included. -/
def Obligations.CompressDecompressRoundTrip : Prop :=
  ∀ s u : State, srcLeft s ≤ Config.maxLen →
    ∃ t out, exec .cmp s = .next t ∧ t.snk = s.snk ++ out ∧
      (u.src = { data := out, pos := 0, mark := 0 } →
        ∃ r, exec .dcmp u = .next r ∧ r.snk = u.snk ++ srcRest s ∧ r.run = u.run ∧ r.err = u.err)

/-- R195: DCMP faults ERR_TAG with the tag byte when it is neither 'H' nor 'R'; one byte is consumed, nothing written. -/
def Obligations.DcmpRejectsAnUnknownTag : Prop :=
  ∀ (s : State) (b : Byte) (rest : List Byte), srcRest s = b :: rest → b ≠ 0x48 → b ≠ 0x52 →
    exec .dcmp s = .next (faulting { atPos s (s.src.pos + 1) with
      wbuf := 0, wcnt := 0, rbuf := 0, rcnt := 0, eos := false, res := b.setWidth 64 } 0x04 (b.setWidth 32))

/-- R194, R216: after the tag DCMP performs RDEC, or GETLEN, TREAD and HDEC, and ends where the first of them faults. -/
def Obligations.DcmpPerformsItsUnitCommands : Prop :=
  ∀ (s : State) (rest : List Byte), s.run ≠ .fault →
    ∀ s1 : State, execSeq [.bwinit, .brinit, .getb] s = .next s1 →
    (srcRest s = 0x52 :: rest → exec .dcmp s = exec .rdec s1) ∧
    (srcRest s = 0x48 :: rest → ∃ s2, exec .getlen s1 = .next s2 ∧
      ((s2.run = .fault ∧ exec .dcmp s = .next s2) ∨
       (s2.run ≠ .fault ∧ ∃ s3, exec .tread s2 = .next s3 ∧
         ((s3.run = .fault ∧ exec .dcmp s = .next s3) ∨ (s3.run ≠ .fault ∧ exec .dcmp s = exec .hdec s3)))))

/-- R196: from IDLE, what CMP writes, the fault it raises and the final LEN, FREQ and bit buffers depend only on the unread
source. -/
def Obligations.CmpDependsOnlyOnTheSource : Prop :=
  ∀ s1 s2 : State, s1.Inv → s2.Inv → s1.run = .idle → s2.run = .idle → srcRest s1 = srcRest s2 →
    ∃ t1 t2 out, exec .cmp s1 = .next t1 ∧ exec .cmp s2 = .next t2 ∧ t1.snk = s1.snk ++ out ∧ t2.snk = s2.snk ++ out ∧
      t1.run = t2.run ∧ t1.err = t2.err ∧ t1.einfo = t2.einfo ∧ t1.freq = t2.freq ∧
      (t1.run = .idle → t1.len = t2.len) ∧
      t1.wbuf = t2.wbuf ∧ t1.wcnt = t2.wcnt ∧ t1.rbuf = t2.rbuf ∧ t1.rcnt = t2.rcnt

/-- R196: from IDLE, what DCMP writes, the fault it raises, EOS and the final bit buffers depend only on the unread source,
be it a container or not. -/
def Obligations.DcmpDependsOnlyOnTheSource : Prop :=
  ∀ s1 s2 : State, s1.Inv → s2.Inv → s1.run = .idle → s2.run = .idle → srcRest s1 = srcRest s2 →
    ∃ t1 t2 out, exec .dcmp s1 = .next t1 ∧ exec .dcmp s2 = .next t2 ∧ t1.snk = s1.snk ++ out ∧
      t2.snk = s2.snk ++ out ∧ t1.run = t2.run ∧ t1.err = t2.err ∧ t1.einfo = t2.einfo ∧ t1.eos = t2.eos ∧
      t1.wbuf = t2.wbuf ∧ t1.wcnt = t2.wcnt ∧ t1.rbuf = t2.rbuf ∧ t1.rcnt = t2.rcnt
end

