-- ==== Sys2Proof/Laws/State.lean ====
section
/-! SUPPORT. One lemma per field per update of State, each true by rfl: what the update writes and what it leaves. -/

namespace Sys2Proof.Machine

variable (s : State)

-- State.setArg
@[simp] theorem State.setArg_arg (v : Dword) : (s.setArg v).arg = v := rfl
@[simp] theorem State.setArg_res (v : Dword) : (s.setArg v).res = s.res := rfl
@[simp] theorem State.setArg_len (v : Dword) : (s.setArg v).len = s.len := rfl
@[simp] theorem State.setArg_run (v : Dword) : (s.setArg v).run = s.run := rfl
@[simp] theorem State.setArg_eos (v : Dword) : (s.setArg v).eos = s.eos := rfl
@[simp] theorem State.setArg_err (v : Dword) : (s.setArg v).err = s.err := rfl
@[simp] theorem State.setArg_einfo (v : Dword) : (s.setArg v).einfo = s.einfo := rfl
@[simp] theorem State.setArg_freq (v : Dword) : (s.setArg v).freq = s.freq := rfl
@[simp] theorem State.setArg_tree (v : Dword) : (s.setArg v).tree = s.tree := rfl
@[simp] theorem State.setArg_code (v : Dword) : (s.setArg v).code = s.code := rfl
@[simp] theorem State.setArg_wbuf (v : Dword) : (s.setArg v).wbuf = s.wbuf := rfl
@[simp] theorem State.setArg_wcnt (v : Dword) : (s.setArg v).wcnt = s.wcnt := rfl
@[simp] theorem State.setArg_rbuf (v : Dword) : (s.setArg v).rbuf = s.rbuf := rfl
@[simp] theorem State.setArg_rcnt (v : Dword) : (s.setArg v).rcnt = s.rcnt := rfl
@[simp] theorem State.setArg_src (v : Dword) : (s.setArg v).src = s.src := rfl
@[simp] theorem State.setArg_snk (v : Dword) : (s.setArg v).snk = s.snk := rfl
@[simp] theorem State.setArg_script (v : Dword) : (s.setArg v).script = s.script := rfl
@[simp] theorem State.setArg_answers (v : Dword) : (s.setArg v).answers = s.answers := rfl

-- State.setRes
@[simp] theorem State.setRes_arg (v : Dword) : (s.setRes v).arg = s.arg := rfl
@[simp] theorem State.setRes_res (v : Dword) : (s.setRes v).res = v := rfl
@[simp] theorem State.setRes_len (v : Dword) : (s.setRes v).len = s.len := rfl
@[simp] theorem State.setRes_run (v : Dword) : (s.setRes v).run = s.run := rfl
@[simp] theorem State.setRes_eos (v : Dword) : (s.setRes v).eos = s.eos := rfl
@[simp] theorem State.setRes_err (v : Dword) : (s.setRes v).err = s.err := rfl
@[simp] theorem State.setRes_einfo (v : Dword) : (s.setRes v).einfo = s.einfo := rfl
@[simp] theorem State.setRes_freq (v : Dword) : (s.setRes v).freq = s.freq := rfl
@[simp] theorem State.setRes_tree (v : Dword) : (s.setRes v).tree = s.tree := rfl
@[simp] theorem State.setRes_code (v : Dword) : (s.setRes v).code = s.code := rfl
@[simp] theorem State.setRes_wbuf (v : Dword) : (s.setRes v).wbuf = s.wbuf := rfl
@[simp] theorem State.setRes_wcnt (v : Dword) : (s.setRes v).wcnt = s.wcnt := rfl
@[simp] theorem State.setRes_rbuf (v : Dword) : (s.setRes v).rbuf = s.rbuf := rfl
@[simp] theorem State.setRes_rcnt (v : Dword) : (s.setRes v).rcnt = s.rcnt := rfl
@[simp] theorem State.setRes_src (v : Dword) : (s.setRes v).src = s.src := rfl
@[simp] theorem State.setRes_snk (v : Dword) : (s.setRes v).snk = s.snk := rfl
@[simp] theorem State.setRes_script (v : Dword) : (s.setRes v).script = s.script := rfl
@[simp] theorem State.setRes_answers (v : Dword) : (s.setRes v).answers = s.answers := rfl

-- State.setLen
@[simp] theorem State.setLen_arg (v : Word) : (s.setLen v).arg = s.arg := rfl
@[simp] theorem State.setLen_res (v : Word) : (s.setLen v).res = s.res := rfl
@[simp] theorem State.setLen_len (v : Word) : (s.setLen v).len = v := rfl
@[simp] theorem State.setLen_run (v : Word) : (s.setLen v).run = s.run := rfl
@[simp] theorem State.setLen_eos (v : Word) : (s.setLen v).eos = s.eos := rfl
@[simp] theorem State.setLen_err (v : Word) : (s.setLen v).err = s.err := rfl
@[simp] theorem State.setLen_einfo (v : Word) : (s.setLen v).einfo = s.einfo := rfl
@[simp] theorem State.setLen_freq (v : Word) : (s.setLen v).freq = s.freq := rfl
@[simp] theorem State.setLen_tree (v : Word) : (s.setLen v).tree = s.tree := rfl
@[simp] theorem State.setLen_code (v : Word) : (s.setLen v).code = s.code := rfl
@[simp] theorem State.setLen_wbuf (v : Word) : (s.setLen v).wbuf = s.wbuf := rfl
@[simp] theorem State.setLen_wcnt (v : Word) : (s.setLen v).wcnt = s.wcnt := rfl
@[simp] theorem State.setLen_rbuf (v : Word) : (s.setLen v).rbuf = s.rbuf := rfl
@[simp] theorem State.setLen_rcnt (v : Word) : (s.setLen v).rcnt = s.rcnt := rfl
@[simp] theorem State.setLen_src (v : Word) : (s.setLen v).src = s.src := rfl
@[simp] theorem State.setLen_snk (v : Word) : (s.setLen v).snk = s.snk := rfl
@[simp] theorem State.setLen_script (v : Word) : (s.setLen v).script = s.script := rfl
@[simp] theorem State.setLen_answers (v : Word) : (s.setLen v).answers = s.answers := rfl

-- State.setEos
@[simp] theorem State.setEos_arg (b : Bool) : (s.setEos b).arg = s.arg := rfl
@[simp] theorem State.setEos_res (b : Bool) : (s.setEos b).res = s.res := rfl
@[simp] theorem State.setEos_len (b : Bool) : (s.setEos b).len = s.len := rfl
@[simp] theorem State.setEos_run (b : Bool) : (s.setEos b).run = s.run := rfl
@[simp] theorem State.setEos_eos (b : Bool) : (s.setEos b).eos = b := rfl
@[simp] theorem State.setEos_err (b : Bool) : (s.setEos b).err = s.err := rfl
@[simp] theorem State.setEos_einfo (b : Bool) : (s.setEos b).einfo = s.einfo := rfl
@[simp] theorem State.setEos_freq (b : Bool) : (s.setEos b).freq = s.freq := rfl
@[simp] theorem State.setEos_tree (b : Bool) : (s.setEos b).tree = s.tree := rfl
@[simp] theorem State.setEos_code (b : Bool) : (s.setEos b).code = s.code := rfl
@[simp] theorem State.setEos_wbuf (b : Bool) : (s.setEos b).wbuf = s.wbuf := rfl
@[simp] theorem State.setEos_wcnt (b : Bool) : (s.setEos b).wcnt = s.wcnt := rfl
@[simp] theorem State.setEos_rbuf (b : Bool) : (s.setEos b).rbuf = s.rbuf := rfl
@[simp] theorem State.setEos_rcnt (b : Bool) : (s.setEos b).rcnt = s.rcnt := rfl
@[simp] theorem State.setEos_src (b : Bool) : (s.setEos b).src = s.src := rfl
@[simp] theorem State.setEos_snk (b : Bool) : (s.setEos b).snk = s.snk := rfl
@[simp] theorem State.setEos_script (b : Bool) : (s.setEos b).script = s.script := rfl
@[simp] theorem State.setEos_answers (b : Bool) : (s.setEos b).answers = s.answers := rfl

-- State.setFreq
@[simp] theorem State.setFreq_arg (f : FreqTable) : (s.setFreq f).arg = s.arg := rfl
@[simp] theorem State.setFreq_res (f : FreqTable) : (s.setFreq f).res = s.res := rfl
@[simp] theorem State.setFreq_len (f : FreqTable) : (s.setFreq f).len = s.len := rfl
@[simp] theorem State.setFreq_run (f : FreqTable) : (s.setFreq f).run = s.run := rfl
@[simp] theorem State.setFreq_eos (f : FreqTable) : (s.setFreq f).eos = s.eos := rfl
@[simp] theorem State.setFreq_err (f : FreqTable) : (s.setFreq f).err = s.err := rfl
@[simp] theorem State.setFreq_einfo (f : FreqTable) : (s.setFreq f).einfo = s.einfo := rfl
@[simp] theorem State.setFreq_freq (f : FreqTable) : (s.setFreq f).freq = f := rfl
@[simp] theorem State.setFreq_tree (f : FreqTable) : (s.setFreq f).tree = s.tree := rfl
@[simp] theorem State.setFreq_code (f : FreqTable) : (s.setFreq f).code = s.code := rfl
@[simp] theorem State.setFreq_wbuf (f : FreqTable) : (s.setFreq f).wbuf = s.wbuf := rfl
@[simp] theorem State.setFreq_wcnt (f : FreqTable) : (s.setFreq f).wcnt = s.wcnt := rfl
@[simp] theorem State.setFreq_rbuf (f : FreqTable) : (s.setFreq f).rbuf = s.rbuf := rfl
@[simp] theorem State.setFreq_rcnt (f : FreqTable) : (s.setFreq f).rcnt = s.rcnt := rfl
@[simp] theorem State.setFreq_src (f : FreqTable) : (s.setFreq f).src = s.src := rfl
@[simp] theorem State.setFreq_snk (f : FreqTable) : (s.setFreq f).snk = s.snk := rfl
@[simp] theorem State.setFreq_script (f : FreqTable) : (s.setFreq f).script = s.script := rfl
@[simp] theorem State.setFreq_answers (f : FreqTable) : (s.setFreq f).answers = s.answers := rfl

-- State.setTree
@[simp] theorem State.setTree_arg (t : Option Tree) : (s.setTree t).arg = s.arg := rfl
@[simp] theorem State.setTree_res (t : Option Tree) : (s.setTree t).res = s.res := rfl
@[simp] theorem State.setTree_len (t : Option Tree) : (s.setTree t).len = s.len := rfl
@[simp] theorem State.setTree_run (t : Option Tree) : (s.setTree t).run = s.run := rfl
@[simp] theorem State.setTree_eos (t : Option Tree) : (s.setTree t).eos = s.eos := rfl
@[simp] theorem State.setTree_err (t : Option Tree) : (s.setTree t).err = s.err := rfl
@[simp] theorem State.setTree_einfo (t : Option Tree) : (s.setTree t).einfo = s.einfo := rfl
@[simp] theorem State.setTree_freq (t : Option Tree) : (s.setTree t).freq = s.freq := rfl
@[simp] theorem State.setTree_tree (t : Option Tree) : (s.setTree t).tree = t := rfl
@[simp] theorem State.setTree_code (t : Option Tree) : (s.setTree t).code = none := rfl
@[simp] theorem State.setTree_wbuf (t : Option Tree) : (s.setTree t).wbuf = s.wbuf := rfl
@[simp] theorem State.setTree_wcnt (t : Option Tree) : (s.setTree t).wcnt = s.wcnt := rfl
@[simp] theorem State.setTree_rbuf (t : Option Tree) : (s.setTree t).rbuf = s.rbuf := rfl
@[simp] theorem State.setTree_rcnt (t : Option Tree) : (s.setTree t).rcnt = s.rcnt := rfl
@[simp] theorem State.setTree_src (t : Option Tree) : (s.setTree t).src = s.src := rfl
@[simp] theorem State.setTree_snk (t : Option Tree) : (s.setTree t).snk = s.snk := rfl
@[simp] theorem State.setTree_script (t : Option Tree) : (s.setTree t).script = s.script := rfl
@[simp] theorem State.setTree_answers (t : Option Tree) : (s.setTree t).answers = s.answers := rfl

-- State.setCode
@[simp] theorem State.setCode_arg (c : CodeTable) : (s.setCode c).arg = s.arg := rfl
@[simp] theorem State.setCode_res (c : CodeTable) : (s.setCode c).res = s.res := rfl
@[simp] theorem State.setCode_len (c : CodeTable) : (s.setCode c).len = s.len := rfl
@[simp] theorem State.setCode_run (c : CodeTable) : (s.setCode c).run = s.run := rfl
@[simp] theorem State.setCode_eos (c : CodeTable) : (s.setCode c).eos = s.eos := rfl
@[simp] theorem State.setCode_err (c : CodeTable) : (s.setCode c).err = s.err := rfl
@[simp] theorem State.setCode_einfo (c : CodeTable) : (s.setCode c).einfo = s.einfo := rfl
@[simp] theorem State.setCode_freq (c : CodeTable) : (s.setCode c).freq = s.freq := rfl
@[simp] theorem State.setCode_tree (c : CodeTable) : (s.setCode c).tree = s.tree := rfl
@[simp] theorem State.setCode_code (c : CodeTable) : (s.setCode c).code = some c := rfl
@[simp] theorem State.setCode_wbuf (c : CodeTable) : (s.setCode c).wbuf = s.wbuf := rfl
@[simp] theorem State.setCode_wcnt (c : CodeTable) : (s.setCode c).wcnt = s.wcnt := rfl
@[simp] theorem State.setCode_rbuf (c : CodeTable) : (s.setCode c).rbuf = s.rbuf := rfl
@[simp] theorem State.setCode_rcnt (c : CodeTable) : (s.setCode c).rcnt = s.rcnt := rfl
@[simp] theorem State.setCode_src (c : CodeTable) : (s.setCode c).src = s.src := rfl
@[simp] theorem State.setCode_snk (c : CodeTable) : (s.setCode c).snk = s.snk := rfl
@[simp] theorem State.setCode_script (c : CodeTable) : (s.setCode c).script = s.script := rfl
@[simp] theorem State.setCode_answers (c : CodeTable) : (s.setCode c).answers = s.answers := rfl

-- State.setWriter
@[simp] theorem State.setWriter_arg (b : Byte) (n : BitVec 4) : (s.setWriter b n).arg = s.arg := rfl
@[simp] theorem State.setWriter_res (b : Byte) (n : BitVec 4) : (s.setWriter b n).res = s.res := rfl
@[simp] theorem State.setWriter_len (b : Byte) (n : BitVec 4) : (s.setWriter b n).len = s.len := rfl
@[simp] theorem State.setWriter_run (b : Byte) (n : BitVec 4) : (s.setWriter b n).run = s.run := rfl
@[simp] theorem State.setWriter_eos (b : Byte) (n : BitVec 4) : (s.setWriter b n).eos = s.eos := rfl
@[simp] theorem State.setWriter_err (b : Byte) (n : BitVec 4) : (s.setWriter b n).err = s.err := rfl
@[simp] theorem State.setWriter_einfo (b : Byte) (n : BitVec 4) : (s.setWriter b n).einfo = s.einfo := rfl
@[simp] theorem State.setWriter_freq (b : Byte) (n : BitVec 4) : (s.setWriter b n).freq = s.freq := rfl
@[simp] theorem State.setWriter_tree (b : Byte) (n : BitVec 4) : (s.setWriter b n).tree = s.tree := rfl
@[simp] theorem State.setWriter_code (b : Byte) (n : BitVec 4) : (s.setWriter b n).code = s.code := rfl
@[simp] theorem State.setWriter_wbuf (b : Byte) (n : BitVec 4) : (s.setWriter b n).wbuf = b := rfl
@[simp] theorem State.setWriter_wcnt (b : Byte) (n : BitVec 4) : (s.setWriter b n).wcnt = n := rfl
@[simp] theorem State.setWriter_rbuf (b : Byte) (n : BitVec 4) : (s.setWriter b n).rbuf = s.rbuf := rfl
@[simp] theorem State.setWriter_rcnt (b : Byte) (n : BitVec 4) : (s.setWriter b n).rcnt = s.rcnt := rfl
@[simp] theorem State.setWriter_src (b : Byte) (n : BitVec 4) : (s.setWriter b n).src = s.src := rfl
@[simp] theorem State.setWriter_snk (b : Byte) (n : BitVec 4) : (s.setWriter b n).snk = s.snk := rfl
@[simp] theorem State.setWriter_script (b : Byte) (n : BitVec 4) : (s.setWriter b n).script = s.script := rfl
@[simp] theorem State.setWriter_answers (b : Byte) (n : BitVec 4) : (s.setWriter b n).answers = s.answers := rfl

-- State.setReader
@[simp] theorem State.setReader_arg (b : Byte) (n : BitVec 4) : (s.setReader b n).arg = s.arg := rfl
@[simp] theorem State.setReader_res (b : Byte) (n : BitVec 4) : (s.setReader b n).res = s.res := rfl
@[simp] theorem State.setReader_len (b : Byte) (n : BitVec 4) : (s.setReader b n).len = s.len := rfl
@[simp] theorem State.setReader_run (b : Byte) (n : BitVec 4) : (s.setReader b n).run = s.run := rfl
@[simp] theorem State.setReader_eos (b : Byte) (n : BitVec 4) : (s.setReader b n).eos = s.eos := rfl
@[simp] theorem State.setReader_err (b : Byte) (n : BitVec 4) : (s.setReader b n).err = s.err := rfl
@[simp] theorem State.setReader_einfo (b : Byte) (n : BitVec 4) : (s.setReader b n).einfo = s.einfo := rfl
@[simp] theorem State.setReader_freq (b : Byte) (n : BitVec 4) : (s.setReader b n).freq = s.freq := rfl
@[simp] theorem State.setReader_tree (b : Byte) (n : BitVec 4) : (s.setReader b n).tree = s.tree := rfl
@[simp] theorem State.setReader_code (b : Byte) (n : BitVec 4) : (s.setReader b n).code = s.code := rfl
@[simp] theorem State.setReader_wbuf (b : Byte) (n : BitVec 4) : (s.setReader b n).wbuf = s.wbuf := rfl
@[simp] theorem State.setReader_wcnt (b : Byte) (n : BitVec 4) : (s.setReader b n).wcnt = s.wcnt := rfl
@[simp] theorem State.setReader_rbuf (b : Byte) (n : BitVec 4) : (s.setReader b n).rbuf = b := rfl
@[simp] theorem State.setReader_rcnt (b : Byte) (n : BitVec 4) : (s.setReader b n).rcnt = n := rfl
@[simp] theorem State.setReader_src (b : Byte) (n : BitVec 4) : (s.setReader b n).src = s.src := rfl
@[simp] theorem State.setReader_snk (b : Byte) (n : BitVec 4) : (s.setReader b n).snk = s.snk := rfl
@[simp] theorem State.setReader_script (b : Byte) (n : BitVec 4) : (s.setReader b n).script = s.script := rfl
@[simp] theorem State.setReader_answers (b : Byte) (n : BitVec 4) : (s.setReader b n).answers = s.answers := rfl

-- State.setPos
@[simp] theorem State.setPos_arg (p : Nat) : (s.setPos p).arg = s.arg := rfl
@[simp] theorem State.setPos_res (p : Nat) : (s.setPos p).res = s.res := rfl
@[simp] theorem State.setPos_len (p : Nat) : (s.setPos p).len = s.len := rfl
@[simp] theorem State.setPos_run (p : Nat) : (s.setPos p).run = s.run := rfl
@[simp] theorem State.setPos_eos (p : Nat) : (s.setPos p).eos = s.eos := rfl
@[simp] theorem State.setPos_err (p : Nat) : (s.setPos p).err = s.err := rfl
@[simp] theorem State.setPos_einfo (p : Nat) : (s.setPos p).einfo = s.einfo := rfl
@[simp] theorem State.setPos_freq (p : Nat) : (s.setPos p).freq = s.freq := rfl
@[simp] theorem State.setPos_tree (p : Nat) : (s.setPos p).tree = s.tree := rfl
@[simp] theorem State.setPos_code (p : Nat) : (s.setPos p).code = s.code := rfl
@[simp] theorem State.setPos_wbuf (p : Nat) : (s.setPos p).wbuf = s.wbuf := rfl
@[simp] theorem State.setPos_wcnt (p : Nat) : (s.setPos p).wcnt = s.wcnt := rfl
@[simp] theorem State.setPos_rbuf (p : Nat) : (s.setPos p).rbuf = s.rbuf := rfl
@[simp] theorem State.setPos_rcnt (p : Nat) : (s.setPos p).rcnt = s.rcnt := rfl
@[simp] theorem State.setPos_src (p : Nat) : (s.setPos p).src = { s.src with pos := p } := rfl
@[simp] theorem State.setPos_snk (p : Nat) : (s.setPos p).snk = s.snk := rfl
@[simp] theorem State.setPos_script (p : Nat) : (s.setPos p).script = s.script := rfl
@[simp] theorem State.setPos_answers (p : Nat) : (s.setPos p).answers = s.answers := rfl

-- State.setMark
@[simp] theorem State.setMark_arg (p : Nat) : (s.setMark p).arg = s.arg := rfl
@[simp] theorem State.setMark_res (p : Nat) : (s.setMark p).res = s.res := rfl
@[simp] theorem State.setMark_len (p : Nat) : (s.setMark p).len = s.len := rfl
@[simp] theorem State.setMark_run (p : Nat) : (s.setMark p).run = s.run := rfl
@[simp] theorem State.setMark_eos (p : Nat) : (s.setMark p).eos = s.eos := rfl
@[simp] theorem State.setMark_err (p : Nat) : (s.setMark p).err = s.err := rfl
@[simp] theorem State.setMark_einfo (p : Nat) : (s.setMark p).einfo = s.einfo := rfl
@[simp] theorem State.setMark_freq (p : Nat) : (s.setMark p).freq = s.freq := rfl
@[simp] theorem State.setMark_tree (p : Nat) : (s.setMark p).tree = s.tree := rfl
@[simp] theorem State.setMark_code (p : Nat) : (s.setMark p).code = s.code := rfl
@[simp] theorem State.setMark_wbuf (p : Nat) : (s.setMark p).wbuf = s.wbuf := rfl
@[simp] theorem State.setMark_wcnt (p : Nat) : (s.setMark p).wcnt = s.wcnt := rfl
@[simp] theorem State.setMark_rbuf (p : Nat) : (s.setMark p).rbuf = s.rbuf := rfl
@[simp] theorem State.setMark_rcnt (p : Nat) : (s.setMark p).rcnt = s.rcnt := rfl
@[simp] theorem State.setMark_src (p : Nat) : (s.setMark p).src = { s.src with mark := p } := rfl
@[simp] theorem State.setMark_snk (p : Nat) : (s.setMark p).snk = s.snk := rfl
@[simp] theorem State.setMark_script (p : Nat) : (s.setMark p).script = s.script := rfl
@[simp] theorem State.setMark_answers (p : Nat) : (s.setMark p).answers = s.answers := rfl

-- State.setSrc
@[simp] theorem State.setSrc_arg (x : Source) : (s.setSrc x).arg = s.arg := rfl
@[simp] theorem State.setSrc_res (x : Source) : (s.setSrc x).res = s.res := rfl
@[simp] theorem State.setSrc_len (x : Source) : (s.setSrc x).len = s.len := rfl
@[simp] theorem State.setSrc_run (x : Source) : (s.setSrc x).run = s.run := rfl
@[simp] theorem State.setSrc_eos (x : Source) : (s.setSrc x).eos = s.eos := rfl
@[simp] theorem State.setSrc_err (x : Source) : (s.setSrc x).err = s.err := rfl
@[simp] theorem State.setSrc_einfo (x : Source) : (s.setSrc x).einfo = s.einfo := rfl
@[simp] theorem State.setSrc_freq (x : Source) : (s.setSrc x).freq = s.freq := rfl
@[simp] theorem State.setSrc_tree (x : Source) : (s.setSrc x).tree = s.tree := rfl
@[simp] theorem State.setSrc_code (x : Source) : (s.setSrc x).code = s.code := rfl
@[simp] theorem State.setSrc_wbuf (x : Source) : (s.setSrc x).wbuf = s.wbuf := rfl
@[simp] theorem State.setSrc_wcnt (x : Source) : (s.setSrc x).wcnt = s.wcnt := rfl
@[simp] theorem State.setSrc_rbuf (x : Source) : (s.setSrc x).rbuf = s.rbuf := rfl
@[simp] theorem State.setSrc_rcnt (x : Source) : (s.setSrc x).rcnt = s.rcnt := rfl
@[simp] theorem State.setSrc_src (x : Source) : (s.setSrc x).src = x := rfl
@[simp] theorem State.setSrc_snk (x : Source) : (s.setSrc x).snk = s.snk := rfl
@[simp] theorem State.setSrc_script (x : Source) : (s.setSrc x).script = s.script := rfl
@[simp] theorem State.setSrc_answers (x : Source) : (s.setSrc x).answers = s.answers := rfl

-- State.setSnk
@[simp] theorem State.setSnk_arg (l : List Byte) : (s.setSnk l).arg = s.arg := rfl
@[simp] theorem State.setSnk_res (l : List Byte) : (s.setSnk l).res = s.res := rfl
@[simp] theorem State.setSnk_len (l : List Byte) : (s.setSnk l).len = s.len := rfl
@[simp] theorem State.setSnk_run (l : List Byte) : (s.setSnk l).run = s.run := rfl
@[simp] theorem State.setSnk_eos (l : List Byte) : (s.setSnk l).eos = s.eos := rfl
@[simp] theorem State.setSnk_err (l : List Byte) : (s.setSnk l).err = s.err := rfl
@[simp] theorem State.setSnk_einfo (l : List Byte) : (s.setSnk l).einfo = s.einfo := rfl
@[simp] theorem State.setSnk_freq (l : List Byte) : (s.setSnk l).freq = s.freq := rfl
@[simp] theorem State.setSnk_tree (l : List Byte) : (s.setSnk l).tree = s.tree := rfl
@[simp] theorem State.setSnk_code (l : List Byte) : (s.setSnk l).code = s.code := rfl
@[simp] theorem State.setSnk_wbuf (l : List Byte) : (s.setSnk l).wbuf = s.wbuf := rfl
@[simp] theorem State.setSnk_wcnt (l : List Byte) : (s.setSnk l).wcnt = s.wcnt := rfl
@[simp] theorem State.setSnk_rbuf (l : List Byte) : (s.setSnk l).rbuf = s.rbuf := rfl
@[simp] theorem State.setSnk_rcnt (l : List Byte) : (s.setSnk l).rcnt = s.rcnt := rfl
@[simp] theorem State.setSnk_src (l : List Byte) : (s.setSnk l).src = s.src := rfl
@[simp] theorem State.setSnk_snk (l : List Byte) : (s.setSnk l).snk = l := rfl
@[simp] theorem State.setSnk_script (l : List Byte) : (s.setSnk l).script = s.script := rfl
@[simp] theorem State.setSnk_answers (l : List Byte) : (s.setSnk l).answers = s.answers := rfl

-- State.setScript
@[simp] theorem State.setScript_arg (l : List HostAction) : (s.setScript l).arg = s.arg := rfl
@[simp] theorem State.setScript_res (l : List HostAction) : (s.setScript l).res = s.res := rfl
@[simp] theorem State.setScript_len (l : List HostAction) : (s.setScript l).len = s.len := rfl
@[simp] theorem State.setScript_run (l : List HostAction) : (s.setScript l).run = s.run := rfl
@[simp] theorem State.setScript_eos (l : List HostAction) : (s.setScript l).eos = s.eos := rfl
@[simp] theorem State.setScript_err (l : List HostAction) : (s.setScript l).err = s.err := rfl
@[simp] theorem State.setScript_einfo (l : List HostAction) : (s.setScript l).einfo = s.einfo := rfl
@[simp] theorem State.setScript_freq (l : List HostAction) : (s.setScript l).freq = s.freq := rfl
@[simp] theorem State.setScript_tree (l : List HostAction) : (s.setScript l).tree = s.tree := rfl
@[simp] theorem State.setScript_code (l : List HostAction) : (s.setScript l).code = s.code := rfl
@[simp] theorem State.setScript_wbuf (l : List HostAction) : (s.setScript l).wbuf = s.wbuf := rfl
@[simp] theorem State.setScript_wcnt (l : List HostAction) : (s.setScript l).wcnt = s.wcnt := rfl
@[simp] theorem State.setScript_rbuf (l : List HostAction) : (s.setScript l).rbuf = s.rbuf := rfl
@[simp] theorem State.setScript_rcnt (l : List HostAction) : (s.setScript l).rcnt = s.rcnt := rfl
@[simp] theorem State.setScript_src (l : List HostAction) : (s.setScript l).src = s.src := rfl
@[simp] theorem State.setScript_snk (l : List HostAction) : (s.setScript l).snk = s.snk := rfl
@[simp] theorem State.setScript_script (l : List HostAction) : (s.setScript l).script = l := rfl
@[simp] theorem State.setScript_answers (l : List HostAction) : (s.setScript l).answers = s.answers := rfl

-- State.answer
@[simp] theorem State.answer_arg (a : HostAnswer) : (s.answer a).arg = s.arg := rfl
@[simp] theorem State.answer_res (a : HostAnswer) : (s.answer a).res = s.res := rfl
@[simp] theorem State.answer_len (a : HostAnswer) : (s.answer a).len = s.len := rfl
@[simp] theorem State.answer_run (a : HostAnswer) : (s.answer a).run = s.run := rfl
@[simp] theorem State.answer_eos (a : HostAnswer) : (s.answer a).eos = s.eos := rfl
@[simp] theorem State.answer_err (a : HostAnswer) : (s.answer a).err = s.err := rfl
@[simp] theorem State.answer_einfo (a : HostAnswer) : (s.answer a).einfo = s.einfo := rfl
@[simp] theorem State.answer_freq (a : HostAnswer) : (s.answer a).freq = s.freq := rfl
@[simp] theorem State.answer_tree (a : HostAnswer) : (s.answer a).tree = s.tree := rfl
@[simp] theorem State.answer_code (a : HostAnswer) : (s.answer a).code = s.code := rfl
@[simp] theorem State.answer_wbuf (a : HostAnswer) : (s.answer a).wbuf = s.wbuf := rfl
@[simp] theorem State.answer_wcnt (a : HostAnswer) : (s.answer a).wcnt = s.wcnt := rfl
@[simp] theorem State.answer_rbuf (a : HostAnswer) : (s.answer a).rbuf = s.rbuf := rfl
@[simp] theorem State.answer_rcnt (a : HostAnswer) : (s.answer a).rcnt = s.rcnt := rfl
@[simp] theorem State.answer_src (a : HostAnswer) : (s.answer a).src = s.src := rfl
@[simp] theorem State.answer_snk (a : HostAnswer) : (s.answer a).snk = s.snk := rfl
@[simp] theorem State.answer_script (a : HostAnswer) : (s.answer a).script = s.script := rfl
@[simp] theorem State.answer_answers (a : HostAnswer) : (s.answer a).answers = s.answers ++ [a] := rfl

-- enterFault
@[simp] theorem enterFault_arg (e : FaultCode) (w : Word) : (enterFault e w s).arg = s.arg := rfl
@[simp] theorem enterFault_res (e : FaultCode) (w : Word) : (enterFault e w s).res = s.res := rfl
@[simp] theorem enterFault_len (e : FaultCode) (w : Word) : (enterFault e w s).len = s.len := rfl
@[simp] theorem enterFault_run (e : FaultCode) (w : Word) : (enterFault e w s).run = .fault := rfl
@[simp] theorem enterFault_eos (e : FaultCode) (w : Word) : (enterFault e w s).eos = s.eos := rfl
@[simp] theorem enterFault_err (e : FaultCode) (w : Word) : (enterFault e w s).err = e.number := rfl
@[simp] theorem enterFault_einfo (e : FaultCode) (w : Word) : (enterFault e w s).einfo = w := rfl
@[simp] theorem enterFault_freq (e : FaultCode) (w : Word) : (enterFault e w s).freq = s.freq := rfl
@[simp] theorem enterFault_tree (e : FaultCode) (w : Word) : (enterFault e w s).tree = s.tree := rfl
@[simp] theorem enterFault_code (e : FaultCode) (w : Word) : (enterFault e w s).code = s.code := rfl
@[simp] theorem enterFault_wbuf (e : FaultCode) (w : Word) : (enterFault e w s).wbuf = s.wbuf := rfl
@[simp] theorem enterFault_wcnt (e : FaultCode) (w : Word) : (enterFault e w s).wcnt = s.wcnt := rfl
@[simp] theorem enterFault_rbuf (e : FaultCode) (w : Word) : (enterFault e w s).rbuf = s.rbuf := rfl
@[simp] theorem enterFault_rcnt (e : FaultCode) (w : Word) : (enterFault e w s).rcnt = s.rcnt := rfl
@[simp] theorem enterFault_src (e : FaultCode) (w : Word) : (enterFault e w s).src = s.src := rfl
@[simp] theorem enterFault_snk (e : FaultCode) (w : Word) : (enterFault e w s).snk = s.snk := rfl
@[simp] theorem enterFault_script (e : FaultCode) (w : Word) : (enterFault e w s).script = s.script := rfl
@[simp] theorem enterFault_answers (e : FaultCode) (w : Word) : (enterFault e w s).answers = s.answers := rfl

-- srcMark
@[simp] theorem srcMark_arg : (srcMark s).arg = s.arg := rfl
@[simp] theorem srcMark_res : (srcMark s).res = s.res := rfl
@[simp] theorem srcMark_len : (srcMark s).len = s.len := rfl
@[simp] theorem srcMark_run : (srcMark s).run = s.run := rfl
@[simp] theorem srcMark_eos : (srcMark s).eos = s.eos := rfl
@[simp] theorem srcMark_err : (srcMark s).err = s.err := rfl
@[simp] theorem srcMark_einfo : (srcMark s).einfo = s.einfo := rfl
@[simp] theorem srcMark_freq : (srcMark s).freq = s.freq := rfl
@[simp] theorem srcMark_tree : (srcMark s).tree = s.tree := rfl
@[simp] theorem srcMark_code : (srcMark s).code = s.code := rfl
@[simp] theorem srcMark_wbuf : (srcMark s).wbuf = s.wbuf := rfl
@[simp] theorem srcMark_wcnt : (srcMark s).wcnt = s.wcnt := rfl
@[simp] theorem srcMark_rbuf : (srcMark s).rbuf = s.rbuf := rfl
@[simp] theorem srcMark_rcnt : (srcMark s).rcnt = s.rcnt := rfl
@[simp] theorem srcMark_src : (srcMark s).src = { s.src with mark := s.src.pos } := rfl
@[simp] theorem srcMark_snk : (srcMark s).snk = s.snk := rfl
@[simp] theorem srcMark_script : (srcMark s).script = s.script := rfl
@[simp] theorem srcMark_answers : (srcMark s).answers = s.answers := rfl

-- srcRewind
@[simp] theorem srcRewind_arg : (srcRewind s).arg = s.arg := rfl
@[simp] theorem srcRewind_res : (srcRewind s).res = s.res := rfl
@[simp] theorem srcRewind_len : (srcRewind s).len = s.len := rfl
@[simp] theorem srcRewind_run : (srcRewind s).run = s.run := rfl
@[simp] theorem srcRewind_eos : (srcRewind s).eos = s.eos := rfl
@[simp] theorem srcRewind_err : (srcRewind s).err = s.err := rfl
@[simp] theorem srcRewind_einfo : (srcRewind s).einfo = s.einfo := rfl
@[simp] theorem srcRewind_freq : (srcRewind s).freq = s.freq := rfl
@[simp] theorem srcRewind_tree : (srcRewind s).tree = s.tree := rfl
@[simp] theorem srcRewind_code : (srcRewind s).code = s.code := rfl
@[simp] theorem srcRewind_wbuf : (srcRewind s).wbuf = s.wbuf := rfl
@[simp] theorem srcRewind_wcnt : (srcRewind s).wcnt = s.wcnt := rfl
@[simp] theorem srcRewind_rbuf : (srcRewind s).rbuf = s.rbuf := rfl
@[simp] theorem srcRewind_rcnt : (srcRewind s).rcnt = s.rcnt := rfl
@[simp] theorem srcRewind_src : (srcRewind s).src = { s.src with pos := s.src.mark } := rfl
@[simp] theorem srcRewind_snk : (srcRewind s).snk = s.snk := rfl
@[simp] theorem srcRewind_script : (srcRewind s).script = s.script := rfl
@[simp] theorem srcRewind_answers : (srcRewind s).answers = s.answers := rfl

-- snkWrite
@[simp] theorem snkWrite_arg (b : Byte) : (snkWrite b s).arg = s.arg := rfl
@[simp] theorem snkWrite_res (b : Byte) : (snkWrite b s).res = s.res := rfl
@[simp] theorem snkWrite_len (b : Byte) : (snkWrite b s).len = s.len := rfl
@[simp] theorem snkWrite_run (b : Byte) : (snkWrite b s).run = s.run := rfl
@[simp] theorem snkWrite_eos (b : Byte) : (snkWrite b s).eos = s.eos := rfl
@[simp] theorem snkWrite_err (b : Byte) : (snkWrite b s).err = s.err := rfl
@[simp] theorem snkWrite_einfo (b : Byte) : (snkWrite b s).einfo = s.einfo := rfl
@[simp] theorem snkWrite_freq (b : Byte) : (snkWrite b s).freq = s.freq := rfl
@[simp] theorem snkWrite_tree (b : Byte) : (snkWrite b s).tree = s.tree := rfl
@[simp] theorem snkWrite_code (b : Byte) : (snkWrite b s).code = s.code := rfl
@[simp] theorem snkWrite_wbuf (b : Byte) : (snkWrite b s).wbuf = s.wbuf := rfl
@[simp] theorem snkWrite_wcnt (b : Byte) : (snkWrite b s).wcnt = s.wcnt := rfl
@[simp] theorem snkWrite_rbuf (b : Byte) : (snkWrite b s).rbuf = s.rbuf := rfl
@[simp] theorem snkWrite_rcnt (b : Byte) : (snkWrite b s).rcnt = s.rcnt := rfl
@[simp] theorem snkWrite_src (b : Byte) : (snkWrite b s).src = s.src := rfl
@[simp] theorem snkWrite_snk (b : Byte) : (snkWrite b s).snk = s.snk ++ [b] := rfl
@[simp] theorem snkWrite_script (b : Byte) : (snkWrite b s).script = s.script := rfl
@[simp] theorem snkWrite_answers (b : Byte) : (snkWrite b s).answers = s.answers := rfl

-- writerInit
@[simp] theorem writerInit_arg : (writerInit s).arg = s.arg := rfl
@[simp] theorem writerInit_res : (writerInit s).res = s.res := rfl
@[simp] theorem writerInit_len : (writerInit s).len = s.len := rfl
@[simp] theorem writerInit_run : (writerInit s).run = s.run := rfl
@[simp] theorem writerInit_eos : (writerInit s).eos = s.eos := rfl
@[simp] theorem writerInit_err : (writerInit s).err = s.err := rfl
@[simp] theorem writerInit_einfo : (writerInit s).einfo = s.einfo := rfl
@[simp] theorem writerInit_freq : (writerInit s).freq = s.freq := rfl
@[simp] theorem writerInit_tree : (writerInit s).tree = s.tree := rfl
@[simp] theorem writerInit_code : (writerInit s).code = s.code := rfl
@[simp] theorem writerInit_wbuf : (writerInit s).wbuf = 0 := rfl
@[simp] theorem writerInit_wcnt : (writerInit s).wcnt = 0 := rfl
@[simp] theorem writerInit_rbuf : (writerInit s).rbuf = s.rbuf := rfl
@[simp] theorem writerInit_rcnt : (writerInit s).rcnt = s.rcnt := rfl
@[simp] theorem writerInit_src : (writerInit s).src = s.src := rfl
@[simp] theorem writerInit_snk : (writerInit s).snk = s.snk := rfl
@[simp] theorem writerInit_script : (writerInit s).script = s.script := rfl
@[simp] theorem writerInit_answers : (writerInit s).answers = s.answers := rfl

-- readerInit
@[simp] theorem readerInit_arg : (readerInit s).arg = s.arg := rfl
@[simp] theorem readerInit_res : (readerInit s).res = s.res := rfl
@[simp] theorem readerInit_len : (readerInit s).len = s.len := rfl
@[simp] theorem readerInit_run : (readerInit s).run = s.run := rfl
@[simp] theorem readerInit_eos : (readerInit s).eos = s.eos := rfl
@[simp] theorem readerInit_err : (readerInit s).err = s.err := rfl
@[simp] theorem readerInit_einfo : (readerInit s).einfo = s.einfo := rfl
@[simp] theorem readerInit_freq : (readerInit s).freq = s.freq := rfl
@[simp] theorem readerInit_tree : (readerInit s).tree = s.tree := rfl
@[simp] theorem readerInit_code : (readerInit s).code = s.code := rfl
@[simp] theorem readerInit_wbuf : (readerInit s).wbuf = s.wbuf := rfl
@[simp] theorem readerInit_wcnt : (readerInit s).wcnt = s.wcnt := rfl
@[simp] theorem readerInit_rbuf : (readerInit s).rbuf = 0 := rfl
@[simp] theorem readerInit_rcnt : (readerInit s).rcnt = 0 := rfl
@[simp] theorem readerInit_src : (readerInit s).src = s.src := rfl
@[simp] theorem readerInit_snk : (readerInit s).snk = s.snk := rfl
@[simp] theorem readerInit_script : (readerInit s).script = s.script := rfl
@[simp] theorem readerInit_answers : (readerInit s).answers = s.answers := rfl

-- flush
@[simp] theorem flush_arg : (flush s).arg = s.arg := rfl
@[simp] theorem flush_res : (flush s).res = s.res := rfl
@[simp] theorem flush_len : (flush s).len = s.len := rfl
@[simp] theorem flush_run : (flush s).run = s.run := rfl
@[simp] theorem flush_eos : (flush s).eos = s.eos := rfl
@[simp] theorem flush_err : (flush s).err = s.err := rfl
@[simp] theorem flush_einfo : (flush s).einfo = s.einfo := rfl
@[simp] theorem flush_freq : (flush s).freq = s.freq := rfl
@[simp] theorem flush_tree : (flush s).tree = s.tree := rfl
@[simp] theorem flush_code : (flush s).code = s.code := rfl
@[simp] theorem flush_wbuf : (flush s).wbuf = 0 := rfl
@[simp] theorem flush_wcnt : (flush s).wcnt = 0 := rfl
@[simp] theorem flush_rbuf : (flush s).rbuf = s.rbuf := rfl
@[simp] theorem flush_rcnt : (flush s).rcnt = s.rcnt := rfl
@[simp] theorem flush_src : (flush s).src = s.src := rfl
@[simp] theorem flush_snk : (flush s).snk = s.snk ++ [s.wbuf] := rfl
@[simp] theorem flush_script : (flush s).script = s.script := rfl
@[simp] theorem flush_answers : (flush s).answers = s.answers := rfl

-- hardReset
@[simp] theorem hardReset_arg : (hardReset s).arg = State.reset.arg := rfl
@[simp] theorem hardReset_res : (hardReset s).res = State.reset.res := rfl
@[simp] theorem hardReset_len : (hardReset s).len = State.reset.len := rfl
@[simp] theorem hardReset_run : (hardReset s).run = State.reset.run := rfl
@[simp] theorem hardReset_eos : (hardReset s).eos = State.reset.eos := rfl
@[simp] theorem hardReset_err : (hardReset s).err = State.reset.err := rfl
@[simp] theorem hardReset_einfo : (hardReset s).einfo = State.reset.einfo := rfl
@[simp] theorem hardReset_freq : (hardReset s).freq = State.reset.freq := rfl
@[simp] theorem hardReset_tree : (hardReset s).tree = State.reset.tree := rfl
@[simp] theorem hardReset_code : (hardReset s).code = State.reset.code := rfl
@[simp] theorem hardReset_wbuf : (hardReset s).wbuf = State.reset.wbuf := rfl
@[simp] theorem hardReset_wcnt : (hardReset s).wcnt = State.reset.wcnt := rfl
@[simp] theorem hardReset_rbuf : (hardReset s).rbuf = State.reset.rbuf := rfl
@[simp] theorem hardReset_rcnt : (hardReset s).rcnt = State.reset.rcnt := rfl
@[simp] theorem hardReset_src : (hardReset s).src = s.src := rfl
@[simp] theorem hardReset_snk : (hardReset s).snk = s.snk := rfl
@[simp] theorem hardReset_script : (hardReset s).script = s.script := rfl
@[simp] theorem hardReset_answers : (hardReset s).answers = s.answers := rfl

-- softReset
@[simp] theorem softReset_arg : (softReset s).arg = s.arg := rfl
@[simp] theorem softReset_res : (softReset s).res = State.reset.res := rfl
@[simp] theorem softReset_len : (softReset s).len = State.reset.len := rfl
@[simp] theorem softReset_run : (softReset s).run = State.reset.run := rfl
@[simp] theorem softReset_eos : (softReset s).eos = State.reset.eos := rfl
@[simp] theorem softReset_err : (softReset s).err = State.reset.err := rfl
@[simp] theorem softReset_einfo : (softReset s).einfo = State.reset.einfo := rfl
@[simp] theorem softReset_freq : (softReset s).freq = State.reset.freq := rfl
@[simp] theorem softReset_tree : (softReset s).tree = State.reset.tree := rfl
@[simp] theorem softReset_code : (softReset s).code = State.reset.code := rfl
@[simp] theorem softReset_wbuf : (softReset s).wbuf = State.reset.wbuf := rfl
@[simp] theorem softReset_wcnt : (softReset s).wcnt = State.reset.wcnt := rfl
@[simp] theorem softReset_rbuf : (softReset s).rbuf = State.reset.rbuf := rfl
@[simp] theorem softReset_rcnt : (softReset s).rcnt = State.reset.rcnt := rfl
@[simp] theorem softReset_src : (softReset s).src = s.src := rfl
@[simp] theorem softReset_snk : (softReset s).snk = s.snk := rfl
@[simp] theorem softReset_script : (softReset s).script = s.script := rfl
@[simp] theorem softReset_answers : (softReset s).answers = s.answers := rfl

end Sys2Proof.Machine
end

