-- ==== Sys2Proof/Laws/Bits.lean ====
section
/-! SUPPORT. Bits and bytes: packing and unpacking (20_memory R52), the bit writer and the bit reader seen as lists of bits
(41_bitstream R111 to R113, R119). -/

namespace Sys2Proof.Machine

-- ## Bytes and their bits

@[simp] theorem bitsOfByte_length (x : Byte) : (bitsOfByte x).length = 8 := by simp [bitsOfByte]

theorem byteOfBits_bitsOfByte : ∀ x : Byte, byteOfBits (bitsOfByte x) = x := by decide +kernel

theorem bitsOfByte_zero : bitsOfByte 0 = List.replicate 8 false := by decide

theorem bitsOfByte_shift_or : ∀ (b : Bit) (x : Byte), x.getLsbD 7 = false →
    bitsOfByte ((x <<< 1) ||| bitByte b) = b :: (bitsOfByte x).take 7 := by decide +kernel

/-- A list of at most eight bits is read back from its byte, followed by zeros. -/
theorem bitsOfByte_byteOfBits : ∀ l : List Bit, l.length ≤ 8 →
    bitsOfByte (byteOfBits l) = l ++ List.replicate (8 - l.length) false
  | [], _ => bitsOfByte_zero
  | b :: l, h => by
    have hl : l.length ≤ 7 := by simp at h; omega
    have ih := bitsOfByte_byteOfBits l (by omega)
    have h7 : (byteOfBits l).getLsbD 7 = false := by
      have : (bitsOfByte (byteOfBits l))[7]? = some ((byteOfBits l).getLsbD 7) := by simp [bitsOfByte]
      rw [ih, List.getElem?_append_right hl, List.getElem?_replicate] at this
      have hlt : 7 - l.length < 8 - l.length := by omega
      simpa [hlt] using this.symm
    rw [byteOfBits, bitsOfByte_shift_or b _ h7, ih, List.take_append, List.take_of_length_le hl,
      List.take_replicate]
    simp only [List.cons_append, List.length_cons, List.cons.injEq, List.append_cancel_left_eq, true_and]
    congr 1; omega

@[simp] theorem unpack_nil : unpack [] = [] := rfl

@[simp] theorem unpack_cons (x : Byte) (xs : List Byte) : unpack (x :: xs) = bitsOfByte x ++ unpack xs := rfl

@[simp] theorem unpack_append (xs ys : List Byte) : unpack (xs ++ ys) = unpack xs ++ unpack ys := by
  simp [unpack]

@[simp] theorem unpack_length (xs : List Byte) : (unpack xs).length = 8 * xs.length := by
  induction xs with
  | nil => rfl
  | cons x xs ih => simp [ih]; omega

/-- The bits of a byte list determine it. -/
theorem unpack_injective : ∀ {xs ys : List Byte}, unpack xs = unpack ys → xs = ys
  | [], [], _ => rfl
  | [], y :: ys, h => by have := congrArg List.length h; simp at this; omega
  | x :: xs, [], h => by have := congrArg List.length h; simp at this
  | x :: xs, y :: ys, h => by
    rw [unpack_cons, unpack_cons] at h
    obtain ⟨h1, h2⟩ := List.append_inj h (by simp)
    rw [← byteOfBits_bitsOfByte x, h1, byteOfBits_bitsOfByte, unpack_injective h2]

@[simp] theorem pack_nil : pack [] = [] := rfl

/-- Pack takes eight bits at a time. -/
theorem pack_step (s : List Bit) (h : s ≠ []) : pack s = byteOfBits (s.take 8) :: pack (s.drop 8) := by
  have hpos : 0 < s.length := List.length_pos_iff.2 h
  have hn : (s.length + 7) / 8 = ((s.drop 8).length + 7) / 8 + 1 := by simp; omega
  rw [pack, hn, List.range_succ_eq_map]
  simp [pack, List.map_map, Function.comp_def, Nat.mul_succ, Nat.add_comm]

theorem pack_length (s : List Bit) : (pack s).length = (s.length + 7) / 8 := by simp [pack]

/-- "Unpack(Pack(s)) has s as a prefix, followed only by zero bits" (R52). -/
theorem unpack_pack (s : List Bit) :
    unpack (pack s) = s ++ List.replicate (8 * ((s.length + 7) / 8) - s.length) false := by
  by_cases h : s = []
  · subst h; rfl
  · have hpos : 0 < s.length := List.length_pos_iff.2 h
    have : (s.drop 8).length < s.length := by simp; omega
    rw [pack_step s h, unpack_cons, unpack_pack (s.drop 8),
      bitsOfByte_byteOfBits _ (by simp)]
    by_cases h8 : 8 ≤ s.length
    · have e1 : 8 - (s.take 8).length = 0 := by simp; omega
      rw [e1]
      simp only [List.replicate_zero, List.append_nil, ← List.append_assoc, List.take_append_drop]
      congr 2; simp; omega
    · have e1 : s.drop 8 = [] := List.drop_eq_nil_of_le (by omega)
      have e2 : s.take 8 = s := List.take_of_length_le (by omega)
      rw [e1, e2]; simp; omega
termination_by s.length

/-- Packing whole bytes followed by more bits. -/
theorem pack_unpack_append : ∀ (xs : List Byte) (s : List Bit), pack (unpack xs ++ s) = xs ++ pack s
  | [], s => by simp
  | x :: xs, s => by
    have h8 : (bitsOfByte x).length = 8 := bitsOfByte_length x
    rw [unpack_cons, List.append_assoc, pack_step _ (by intro h; simpa using congrArg List.length h),
      List.take_append_of_le_length (by omega), List.take_of_length_le (by omega),
      List.drop_append_of_le_length (by omega), List.drop_of_length_le (by omega),
      byteOfBits_bitsOfByte, List.nil_append, pack_unpack_append xs s, List.cons_append]

theorem pack_short (s : List Bit) (h0 : s ≠ []) (h : s.length ≤ 8) : pack s = [byteOfBits s] := by
  rw [pack_step s h0, List.take_of_length_le h, List.drop_of_length_le h, pack_nil]

-- ## The writer

/-- Below eight bits PutBit(b) only appends to the pending bits. -/
theorem putBit_pending_fact : ∀ (w : Byte) (n : BitVec 4) (b : Bit), n < 7 → w >>> n.toNat = 0 →
    (bitsOfByte (w ||| (bitByte b <<< n.toNat))).take (n + 1).toNat = (bitsOfByte w).take n.toNat ++ [b] ∧
      (w ||| (bitByte b <<< n.toNat)) >>> (n + 1).toNat = 0 := by decide +kernel

/-- At seven pending bits PutBit(b) completes a byte. -/
theorem putBit_full_fact : ∀ (w : Byte) (b : Bit), w >>> 7 = 0 →
    bitsOfByte (w ||| (bitByte b <<< 7)) = (bitsOfByte w).take 7 ++ [b] := by decide +kernel

theorem flush_fact : ∀ (w : Byte) (n : BitVec 4), n ≤ 7 → w >>> n.toNat = 0 →
    w = byteOfBits ((bitsOfByte w).take n.toNat) := by decide +kernel

theorem pendingBits_length (s : State) (h : s.WriterOk) : (pendingBits s).length = s.wcnt.toNat := by
  have := h.1
  have h7 : s.wcnt.toNat ≤ 7 := by simpa [BitVec.le_def] using this
  simp [pendingBits]; omega

/-- With seven bits pending PutBit(b) completes a byte, writes it and empties the writer (R111). -/
theorem putBit_full (b : Bit) (s : State) (h : s.wcnt = 7) :
    putBit b s = writerInit (snkWrite (s.wbuf ||| (bitByte b <<< 7)) s) := by
  unfold putBit
  rw [h]; rfl

/-- Otherwise PutBit(b) places b at position WCNT and writes nothing to the sink (R111). -/
theorem putBit_more (b : Bit) (s : State) (h : s.wcnt ≠ 7) :
    putBit b s = s.setWriter (s.wbuf ||| (bitByte b <<< s.wcnt.toNat)) (s.wcnt + 1) :=
  if_neg (by bv_omega)

/-- PutBit(b) appends the bit b to the bits written, and keeps the writer's invariant (R111). -/
theorem putBit_spec (b : Bit) (s : State) (h : s.WriterOk) :
    (putBit b s).WriterOk ∧ writtenBits (putBit b s) = writtenBits s ++ [b] := by
  obtain ⟨h1, h2⟩ := h
  by_cases h7 : s.wcnt = 7
  · rw [h7] at h2
    rw [putBit_full b s h7]
    refine ⟨⟨by simp, by simp⟩, ?_⟩
    simp [writtenBits, pendingBits, h7, putBit_full_fact s.wbuf b h2]
  · obtain ⟨f1, f2⟩ := putBit_pending_fact s.wbuf s.wcnt b (by bv_omega) h2
    rw [putBit_more b s h7]
    refine ⟨⟨by simp only [State.setWriter_wcnt]; bv_omega, f2⟩, ?_⟩
    simp only [writtenBits, pendingBits, State.setWriter_wbuf, State.setWriter_wcnt, State.setWriter_snk,
      List.append_assoc, f1]

/-- PutBit touches only the writer and the sink. -/
theorem putBit_frame (b : Bit) (s : State) :
    putBit b s = (s.setSnk (putBit b s).snk).setWriter (putBit b s).wbuf (putBit b s).wcnt := by
  simp only [putBit]; split <;> rfl

/-- Writing a bit string appends it to the bits written (R111, R115). -/
theorem putBits_spec : ∀ (p : List Bit) (s : State), s.WriterOk →
    (putBits p s).WriterOk ∧ writtenBits (putBits p s) = writtenBits s ++ p
  | [], s, h => ⟨h, by simp [putBits]⟩
  | b :: p, s, h => by
    obtain ⟨h1, h2⟩ := putBit_spec b s h
    obtain ⟨h3, h4⟩ := putBits_spec p (putBit b s) h1
    exact ⟨h3, by rw [putBits, h4, h2]; simp⟩

/-- Writing a bit string touches only the writer and the sink. -/
theorem putBits_frame : ∀ (p : List Bit) (s : State),
    putBits p s = (s.setSnk (putBits p s).snk).setWriter (putBits p s).wbuf (putBits p s).wcnt
  | [], _ => rfl
  | b :: p, s => by
    have h1 := putBits_frame p (putBit b s)
    rw [putBits, h1, putBit_frame b s]; rfl

/-- Flush() writes the pending bits, zero-padded, as one byte (R112). -/
theorem flush_appends (s : State) (h : s.WriterOk) :
    (flush s).snk = s.snk ++ [byteOfBits (pendingBits s)] := by
  rw [flush_snk, pendingBits, ← flush_fact s.wbuf s.wcnt h.1 h.2]

end Sys2Proof.Machine
end

