-- ==== Sys2Proof/Laws/Streams.lean ====
section
/-! SUPPORT. The two streams and the bit reader seen as lists (20_memory R42 to R45, R51; 41_bitstream R113). -/

namespace Sys2Proof.Machine

-- ## Results of commands

@[simp] theorem bind_done {α β : Type} (a : α) (s : State) (k : α → State → CmdResult β) :
    (CmdResult.done a s).bind k = k a s := rfl

@[simp] theorem bind_faulted {α β : Type} (s : State) (k : α → State → CmdResult β) :
    (CmdResult.faulted s : CmdResult α).bind k = .faulted s := rfl

@[simp] theorem bind_raise {α β : Type} (e : FaultCode) (w : Word) (s : State) (k : α → State → CmdResult β) :
    (raise e w s : CmdResult α).bind k = raise e w s := rfl

@[simp] theorem final_done {α : Type} (a : α) (s : State) : (CmdResult.done a s).final = s := rfl

@[simp] theorem final_faulted {α : Type} (s : State) : (CmdResult.faulted s : CmdResult α).final = s := rfl

@[simp] theorem final_raise {α : Type} (e : FaultCode) (w : Word) (s : State) :
    (raise e w s : CmdResult α).final = enterFault e w s := rfl

/-- Every way a sequence of two pieces can end. -/
theorem bind_cases {α β : Type} (r : CmdResult α) (k : α → State → CmdResult β) :
    (∃ a s, r = .done a s ∧ r.bind k = k a s) ∨ (∃ s, r = .faulted s ∧ r.bind k = .faulted s) := by
  cases r with
  | done a s => exact .inl ⟨a, s, rfl, rfl⟩
  | faulted s => exact .inr ⟨s, rfl, rfl⟩

/-- A property that a piece keeps, and that every continuation keeps, holds at the end of both. -/
theorem bind_final {α β : Type} {P Q : State → Prop} {r : CmdResult α} {k : α → State → CmdResult β}
    (hd : ∀ a s, r = .done a s → P s) (hf : ∀ s, r = .faulted s → Q s) (hk : ∀ a s, P s → Q (k a s).final) :
    Q (r.bind k).final := by
  cases r with
  | done a s => exact hk a s (hd a s rfl)
  | faulted s => exact hf s rfl

-- ## The source

/-- SrcRead() with a byte left (R42). -/
theorem srcRead_cons {s : State} {b : Byte} {rest : List Byte} (h : srcRest s = b :: rest) :
    srcRead s = some (b, s.setPos (s.src.pos + 1)) := by
  have : s.src.data[s.src.pos]? = some b := by
    have := congrArg (·[0]?) h
    simpa [srcRest, List.getElem?_drop] using this
  simp [srcRead, this]

/-- SrcRead() at the end (R42). -/
theorem srcRead_nil {s : State} (h : srcRest s = []) : srcRead s = none := by
  have : s.src.data.length ≤ s.src.pos := by simpa [srcRest] using h
  simp [srcRead, List.getElem?_eq_none this]

/-- What is left after a byte was read. -/
theorem srcRest_setPos {s : State} {b : Byte} {rest : List Byte} (h : srcRest s = b :: rest) :
    srcRest (s.setPos (s.src.pos + 1)) = rest := by
  have := congrArg (List.drop 1) h
  simpa [srcRest, List.drop_drop] using this

theorem srcRest_length (s : State) : (srcRest s).length = srcLeft s := by simp [srcRest, srcLeft]

/-- Everything SrcRead() can do. -/
theorem srcRead_cases (s : State) :
    (srcRead s = none ∧ srcRest s = []) ∨
      (∃ b rest, srcRest s = b :: rest ∧ srcRead s = some (b, s.setPos (s.src.pos + 1)) ∧
        s.src.pos < s.src.data.length) := by
  cases h : srcRest s with
  | nil => exact .inl ⟨srcRead_nil h, rfl⟩
  | cons b rest =>
    refine .inr ⟨b, rest, rfl, srcRead_cons h, ?_⟩
    by_contra hle
    have : srcRest s = [] := by simpa [srcRest] using hle
    simp [this] at h

/-- A read that meets a byte. -/
theorem srcReadOr_cons {s : State} {b : Byte} {rest : List Byte} (info : Word) (h : srcRest s = b :: rest) :
    srcReadOr info s = .done b (s.setPos (s.src.pos + 1)) := by simp [srcReadOr, srcRead_cons h]

/-- A read that meets the end faults ERR_TRUNC. -/
theorem srcReadOr_nil {s : State} (info : Word) (h : srcRest s = []) : srcReadOr info s = raise .trunc info s := by
  simp [srcReadOr, srcRead_nil h]

@[simp] theorem setPos_setPos (s : State) (p q : Nat) : (s.setPos p).setPos q = s.setPos q := rfl

@[simp] theorem setPos_self (s : State) : s.setPos s.src.pos = s := rfl

-- ## The sink

/-- SnkWrite of each byte in order appends the list (R45, R47). -/
theorem snkWriteAll_eq : ∀ (bs : List Byte) (s : State), snkWriteAll bs s = s.setSnk (s.snk ++ bs)
  | [], s => by simp [snkWriteAll, State.setSnk]
  | b :: bs, s => by rw [snkWriteAll, snkWriteAll_eq bs]; simp [State.setSnk, snkWrite]

-- ## 4-byte integers

/-- One more byte of an integer. -/
theorem readIntFrom_cons {s : State} {b : Byte} {rest : List Byte} (left i n : Nat) (h : srcRest s = b :: rest) :
    readIntFrom (left + 1) i n s = readIntFrom left (i + 1) (n + b.toNat * 256 ^ i) (s.setPos (s.src.pos + 1)) := by
  rw [readIntFrom, srcReadOr_cons _ h, bind_done]

/-- The source ends inside an integer, after i of its bytes (40_control_stream R98). -/
theorem readIntFrom_nil {s : State} (left i n : Nat) (h : srcRest s = []) :
    readIntFrom (left + 1) i n s = raise .trunc (BitVec.ofNat 32 i) s := by
  rw [readIntFrom, srcReadOr_nil _ h, bind_raise]

/-- Four bytes b0 b1 b2 b3 give b0 + 256·b1 + 65536·b2 + 16777216·b3 (R51, 40_control_stream R98). -/
theorem readInt_four {s : State} {b0 b1 b2 b3 : Byte} {rest : List Byte} (h : srcRest s = b0 :: b1 :: b2 :: b3 :: rest) :
    readIntFrom 4 0 0 s =
      .done (b0.toNat + 256 * b1.toNat + 65536 * b2.toNat + 16777216 * b3.toNat) (s.setPos (s.src.pos + 4)) := by
  have r0 := srcRest_setPos h
  have r1 := srcRest_setPos r0
  have r2 := srcRest_setPos r1
  rw [readIntFrom_cons 3 0 0 h, readIntFrom_cons 2 _ _ r0, readIntFrom_cons 1 _ _ r1, readIntFrom_cons 0 _ _ r2,
    readIntFrom]
  congr 1
  omega

/-- A source that ends after fewer than four bytes faults ERR_TRUNC with their number, and they stay consumed (R98). -/
theorem readInt_short {s : State} (h : (srcRest s).length < 4) :
    readIntFrom 4 0 0 s =
      raise .trunc (BitVec.ofNat 32 (srcRest s).length) (s.setPos (s.src.pos + (srcRest s).length)) := by
  match h0 : srcRest s, h with
  | [], _ => exact readIntFrom_nil 3 0 0 h0
  | [_], _ => exact (readIntFrom_cons 3 0 0 h0).trans (readIntFrom_nil 2 _ _ (srcRest_setPos h0))
  | [_, _], _ =>
    have r0 := srcRest_setPos h0
    exact (readIntFrom_cons 3 0 0 h0).trans ((readIntFrom_cons 2 _ _ r0).trans (readIntFrom_nil 1 _ _ (srcRest_setPos r0)))
  | [_, _, _], _ =>
    have r0 := srcRest_setPos h0
    have r1 := srcRest_setPos r0
    exact (readIntFrom_cons 3 0 0 h0).trans ((readIntFrom_cons 2 _ _ r0).trans ((readIntFrom_cons 1 _ _ r1).trans
      (readIntFrom_nil 0 _ _ (srcRest_setPos r1))))
  | _ :: _ :: _ :: _ :: _, h => simp at h; omega

/-- Reading LE32(n) gives n (R51). -/
theorem readInt_le32 (n : Word) (rest : List Byte) (s : State) (h : srcRest s = le32 n ++ rest) :
    readIntFrom 4 0 0 s = .done n.toNat (s.setPos (s.src.pos + 4)) := by
  rw [readInt_four h]
  congr 1
  simp only [BitVec.extractLsb'_toNat, Nat.shiftRight_eq_div_pow]
  have := n.isLt
  omega

-- ## The bit reader

theorem heldBits_fact : ∀ (r : Byte) (n : BitVec 4), n ≤ 8 → n ≠ 0 → r >>> n.toNat = 0 →
    (bitsOfByte r).take n.toNat = r.getLsbD 0 :: (bitsOfByte (r >>> 1)).take (n - 1).toNat ∧
      (r >>> 1) >>> (n - 1).toNat = 0 := by decide +kernel

/-- GetBit() hands out the first unread bit, and changes only SRC.pos and the reader (R113). -/
theorem getBit_cons {s : State} {b : Bit} {rest : List Bit} (hr : s.ReaderOk) (h : unreadBits s = b :: rest) :
    ∃ s', getBit s = some (b, s') ∧ unreadBits s' = rest ∧ s'.ReaderOk ∧
      s' = (s.setPos s'.src.pos).setReader s'.rbuf s'.rcnt ∧ s.src.pos ≤ s'.src.pos := by
  obtain ⟨h1, h2⟩ := hr
  by_cases h0 : s.rcnt = 0
  · have hh : heldBits s = [] := by simp [heldBits, h0]
    rw [unreadBits, hh, List.nil_append] at h
    rcases srcRead_cases s with ⟨hn, hnil⟩ | ⟨x, xs, hx, hs, hlt⟩
    · rw [hnil] at h; simp at h
    · rw [hx, unpack_cons] at h
      obtain ⟨f1, f2⟩ := heldBits_fact x 8 (by decide) (by decide) (by simp; bv_omega)
      have h8 : (bitsOfByte x).take 8 = bitsOfByte x := List.take_of_length_le (by simp)
      have f1' : bitsOfByte x = x.getLsbD 0 :: (bitsOfByte (x >>> 1)).take 7 := h8 ▸ f1
      rw [f1', List.cons_append, List.cons.injEq] at h
      refine ⟨((s.setPos (s.src.pos + 1)).setReader x 8).setReader (x >>> 1) (8 - 1), ?_, ?_,
        ⟨by simp only [State.setReader_rcnt]; decide, f2⟩, rfl, ?_⟩
      · rw [← h.1]; simp only [getBit, h0, if_true, hs, takeBit]; rfl
      · rw [← h.2]
        have := srcRest_setPos hx
        simp only [unreadBits, heldBits, State.setReader_rbuf, State.setReader_rcnt]
        exact congrArg (_ ++ unpack ·) this
      · exact Nat.le_succ _
  · obtain ⟨f1, f2⟩ := heldBits_fact s.rbuf s.rcnt h1 h0 h2
    have hh : heldBits s = s.rbuf.getLsbD 0 :: (bitsOfByte (s.rbuf >>> 1)).take (s.rcnt - 1).toNat := f1
    rw [unreadBits, hh, List.cons_append, List.cons.injEq] at h
    refine ⟨s.setReader (s.rbuf >>> 1) (s.rcnt - 1), ?_, ?_, ⟨by simp only [State.setReader_rcnt]; bv_omega, f2⟩, rfl,
      Nat.le_refl _⟩
    · rw [← h.1]; exact if_neg h0
    · rw [← h.2]; rfl

/-- GetBit() with no bit left (R113). -/
theorem getBit_nil {s : State} (hr : s.ReaderOk) (h : unreadBits s = []) : getBit s = none := by
  obtain ⟨hh, hs⟩ := List.append_eq_nil_iff.1 h
  have h0 : s.rcnt = 0 := by
    have hle : s.rcnt.toNat ≤ 8 := by simpa [BitVec.le_def] using hr.1
    have := congrArg List.length hh
    simp [heldBits] at this
    bv_omega
  have hnil : srcRest s = [] := by
    have := congrArg List.length hs
    simpa using this
  simp only [getBit, h0, if_true, srcRead_nil hnil]

/-- Everything GetBit() can do from a sound reader. -/
theorem getBit_cases (s : State) (hr : s.ReaderOk) :
    (getBit s = none ∧ unreadBits s = []) ∨
      (∃ b rest s', unreadBits s = b :: rest ∧ getBit s = some (b, s') ∧ unreadBits s' = rest ∧ s'.ReaderOk ∧
        s' = (s.setPos s'.src.pos).setReader s'.rbuf s'.rcnt ∧ s.src.pos ≤ s'.src.pos) := by
  cases h : unreadBits s with
  | nil => exact .inl ⟨getBit_nil hr h, rfl⟩
  | cons b rest =>
    obtain ⟨s', h1, h2⟩ := getBit_cons hr h
    exact .inr ⟨b, rest, s', rfl, h1, h2⟩

/-- Whatever the state, GetBit() changes only SRC.pos and the reader. -/
theorem getBit_frame {s s' : State} {b : Bit} (h : getBit s = some (b, s')) :
    s' = (s.setPos s'.src.pos).setReader s'.rbuf s'.rcnt := by
  unfold getBit at h
  split at h
  · rcases srcRead_cases s with ⟨hn, -⟩ | ⟨x, xs, -, hs, -⟩
    · simp [hn] at h
    · simp only [hs, takeBit, Option.some.injEq, Prod.mk.injEq] at h
      rw [← h.2]; rfl
  · simp only [takeBit, Option.some.injEq, Prod.mk.injEq] at h
    rw [← h.2]; rfl

-- ## How far the reader has gone

/-- Reading n bits, from s to t, has fetched k bytes, none before a bit of it was asked for (R113, 10_state R23). -/
def Consumed (s t : State) (n : Nat) : Prop :=
  ∃ k, t.src.pos = s.src.pos + k ∧ t.src.data = s.src.data ∧ t.rcnt.toNat + n = s.rcnt.toNat + 8 * k ∧
    (k = 0 ∨ t.rcnt.toNat ≤ 7 ∧ t.src.pos ≤ t.src.data.length)

theorem consumed_refl (s : State) : Consumed s s 0 := ⟨0, rfl, rfl, rfl, .inl rfl⟩

theorem consumed_trans {s t u : State} {m n : Nat} (h1 : Consumed s t m) (h2 : Consumed t u n) :
    Consumed s u (m + n) := by
  obtain ⟨k, a1, a2, a3, a4⟩ := h1
  obtain ⟨l, b1, b2, b3, b4⟩ := h2
  refine ⟨k + l, by omega, b2.trans a2, by omega, ?_⟩
  rcases b4 with rfl | b4
  · rcases a4 with rfl | a4
    · exact .inl rfl
    · exact .inr ⟨by omega, by rw [b1, b2]; exact a4.2⟩
  · exact .inr b4

/-- One bit: a byte is fetched exactly when none is held. -/
theorem getBit_consumed {s s' : State} {b : Bit} (h : getBit s = some (b, s')) : Consumed s s' 1 := by
  unfold getBit at h
  split at h
  · rename_i h0
    rcases srcRead_cases s with ⟨hn, -⟩ | ⟨x, xs, -, hs, hlt⟩
    · simp [hn] at h
    · simp only [hs, takeBit, Option.some.injEq, Prod.mk.injEq] at h
      rw [← h.2]
      refine ⟨1, rfl, rfl, ?_, .inr ⟨?_, hlt⟩⟩
      · rw [h0]; simp only [State.setReader_rcnt]; decide
      · simp only [State.setReader_rcnt]; decide
  · rename_i h0
    simp only [takeBit, Option.some.injEq, Prod.mk.injEq] at h
    rw [← h.2]
    refine ⟨0, rfl, rfl, ?_, .inl rfl⟩
    simp only [State.setReader_rcnt]
    bv_omega

/-- The source position after n bits, from a reader that holds at most 8. -/
theorem consumed_pos {s t : State} {n : Nat} (hr : s.rcnt ≤ 8) (h : Consumed s t n) :
    t.src.pos = s.src.pos + (n + 7 - s.rcnt.toNat) / 8 := by
  obtain ⟨k, h1, -, h3, h4⟩ := h
  have h8 : s.rcnt.toNat ≤ 8 := by simpa [BitVec.le_def] using hr
  rw [h1]
  congr 1
  rcases h4 with rfl | h4 <;> omega

/-- When every bit has been read, the source has been read to its end and the reader is empty. -/
theorem consumed_all {s t : State} {n : Nat} (ht : t.ReaderOk) (hu : unreadBits t = []) (h : Consumed s t n) :
    t.src.pos = s.src.pos + srcLeft s ∧ t.rbuf = 0 ∧ t.rcnt = 0 := by
  obtain ⟨hh, hs⟩ := List.append_eq_nil_iff.1 hu
  have h0 : t.rcnt = 0 := by
    have hle : t.rcnt.toNat ≤ 8 := by simpa [BitVec.le_def] using ht.1
    have := congrArg List.length hh
    simp [heldBits] at this
    bv_omega
  have hnil : srcLeft t = 0 := by
    have := congrArg List.length hs
    rw [← srcRest_length]
    simpa using this
  refine ⟨?_, by simpa [h0] using ht.2, h0⟩
  obtain ⟨k, h1, h2, -, h4⟩ := h
  unfold srcLeft at hnil ⊢
  rw [h2] at h4 hnil
  rcases h4 with rfl | h4 <;> omega

theorem bitsOfByte_false_fact : ∀ (r : Byte) (n : BitVec 4), n ≤ 8 → r >>> n.toNat = 0 →
    (bitsOfByte r).take n.toNat = List.replicate n.toNat false → r = 0 := by decide +kernel

/-- A reader that has gone n bits into the source from empty, with zeros up to the next byte boundary: it holds just
these (46_codec R194, R199). -/
theorem consumed_padding {s t : State} {n : Nat} {more : List Bit} (ht : t.ReaderOk) (h0 : s.rcnt = 0) (h : Consumed s t n)
    (hu : unreadBits t = List.replicate (8 * ((n + 7) / 8) - n) false ++ more) :
    t.rbuf = 0 ∧ t.rcnt.toNat + n = 8 * ((n + 7) / 8) := by
  obtain ⟨k, -, -, h3, h4⟩ := h
  rw [h0] at h3
  have hz : (0 : BitVec 4).toNat = 0 := rfl
  have hn : t.rcnt.toNat + n = 8 * ((n + 7) / 8) := by rcases h4 with rfl | h4 <;> omega
  have h8 : t.rcnt.toNat ≤ 8 := by simpa [BitVec.le_def] using ht.1
  have e : 8 * ((n + 7) / 8) - n = t.rcnt.toNat := by omega
  rw [e] at hu
  have hl : (heldBits t).length = t.rcnt.toNat := by simp [heldBits]; omega
  refine ⟨bitsOfByte_false_fact _ t.rcnt ht.1 ht.2 ?_, hn⟩
  have := congrArg (List.take t.rcnt.toNat) hu
  rw [unreadBits, List.take_left' hl, List.take_left' (by simp)] at this
  exact this

end Sys2Proof.Machine
end

