-- ==== Sys2Proof/Laws/Trees.lean ====
section
/-! SUPPORT. Trees: their size, their serialisation and its inverse (30_encoding R75 to R78, 43_tree R147 to R153, R159),
and what ReadNode() can do at all (R148). -/

namespace Sys2Proof.Machine

-- ## Size

/-- A full binary tree with n leaves has 2n − 1 nodes (43_tree R145). -/
theorem nodes_leaves (t : Tree) : t.nodes + 1 = 2 * t.leaves.length := by
  induction t with
  | leaf v => rfl
  | node l r ihl ihr => simp only [Tree.nodes, Tree.leaves, List.length_append]; omega

theorem leaves_pos (t : Tree) : 1 ≤ t.leaves.length := by have := nodes_leaves t; omega

theorem nodes_pos (t : Tree) : 1 ≤ t.nodes := by cases t <;> simp only [Tree.nodes] <;> omega

/-- "A tree with n leaves serialises to 8n − 2 bytes" (30_encoding R77). -/
theorem serTree_length (t : Tree) : (serTree t).length + 2 = 8 * t.leaves.length := by
  induction t with
  | leaf v => rfl
  | node l r ihl ihr => simp only [serTree, Tree.leaves, List.length_append, List.length_cons, List.length_nil]; omega

/-- Emit(t) appends SerTree(t) (43_tree R147). -/
theorem emitTree_eq (t : Tree) (s : State) : emitTree t s = s.setSnk (s.snk ++ serTree t) := by
  induction t generalizing s with
  | leaf v => simp [emitTree, emitAbsent, serTree, snkWrite, State.setSnk]
  | node l r ihl ihr => rw [emitTree, ihl, ihr]; simp [serTree, snkWrite, State.setSnk]

-- ## ReadNode

/-- The pair read is the sentinel: ABSENT. -/
theorem readNode_sentinel {s : State} {rest : List Byte} (depth c : Nat) (h : srcRest s = 0x00 :: 0x01 :: rest) :
    readNode (depth + 1) c s = .done (none, c) (s.setPos (s.src.pos + 2)) := by
  have h1 := srcRest_setPos h
  rw [readNode, srcReadOr_cons _ h, bind_done, srcReadOr_cons _ h1, bind_done]
  rfl

/-- The pair read is not the sentinel and there is room: both children are read. -/
theorem readNode_pair {s : State} {b0 b1 : Byte} {rest : List Byte} (depth c : Nat)
    (h : srcRest s = b0 :: b1 :: rest) (hs : ¬(b0 = 0x00 ∧ b1 = 0x01)) (hc : c ≠ Config.nodeCap) :
    readNode (depth + 1) c s =
      (readNode depth (c + 1) (s.setPos (s.src.pos + 2))).bind fun left s =>
      (readNode depth left.2 s).bind fun right s => joinChildren b0 left.1 right.1 right.2 s := by
  have h1 := srcRest_setPos h
  have hs' : ¬(b0 = Config.sentinelFirst ∧ b1 = Config.sentinelSecond) := hs
  rw [readNode, srcReadOr_cons _ h, bind_done, srcReadOr_cons _ h1, bind_done, if_neg hs', if_neg hc]
  rfl

/-- The pair read would be node number 512: overflow (43_tree R148). -/
theorem readNode_overflow {s : State} {b0 b1 : Byte} {rest : List Byte} (depth : Nat)
    (h : srcRest s = b0 :: b1 :: rest) (hs : ¬(b0 = 0x00 ∧ b1 = 0x01)) :
    readNode (depth + 1) Config.nodeCap s = raise .treeovf 0 (s.setPos (s.src.pos + 2)) := by
  have h1 := srcRest_setPos h
  have hs' : ¬(b0 = Config.sentinelFirst ∧ b1 = Config.sentinelSecond) := hs
  rw [readNode, srcReadOr_cons _ h, bind_done, srcReadOr_cons _ h1, bind_done, if_neg hs', if_pos rfl]
  rfl

theorem srcRest_drop {s : State} {xs rest : List Byte} (h : srcRest s = xs ++ rest) :
    srcRest (s.setPos (s.src.pos + xs.length)) = rest := by
  have := congrArg (List.drop xs.length) h
  simpa [srcRest, List.drop_drop] using this

/-- ReadNode() reads back what Emit wrote: the same tree, exactly its bytes (43_tree R159). -/
theorem readNode_serTree (t : Tree) : ∀ (depth c : Nat) (s : State) (rest : List Byte),
    srcRest s = serTree t ++ rest → c + t.nodes ≤ Config.nodeCap → Config.nodeCap < depth + c →
    readNode depth c s = .done (some t, c + t.nodes) (s.setPos (s.src.pos + (serTree t).length)) := by
  induction t with
  | leaf v =>
    intro depth c s rest h hc hd
    simp only [Tree.nodes] at hc ⊢
    obtain ⟨d, rfl⟩ : ∃ d, depth = d + 2 := ⟨depth - 2, by omega⟩
    have r2 : srcRest (s.setPos (s.src.pos + 2)) = 0x00 :: 0x01 :: 0x00 :: 0x01 :: rest := srcRest_drop (xs := [v, 0x00]) h
    have r4 : srcRest (s.setPos (s.src.pos + 4)) = 0x00 :: 0x01 :: rest := srcRest_drop (xs := [v, 0x00, 0x00, 0x01]) h
    rw [readNode_pair (d + 1) c h (by simp [Config.markNode]) (by omega), readNode_sentinel d _ r2, bind_done]
    have : (s.setPos (s.src.pos + 2)).setPos ((s.setPos (s.src.pos + 2)).src.pos + 2) = s.setPos (s.src.pos + 4) := rfl
    rw [this, readNode_sentinel d _ r4]
    rfl
  | node l r ihl ihr =>
    intro depth c s rest h hc hd
    simp only [Tree.nodes] at hc ⊢
    obtain ⟨d, rfl⟩ : ∃ d, depth = d + 1 := ⟨depth - 1, by omega⟩
    have hs : srcRest s = 0x00 :: 0x00 :: (serTree l ++ (serTree r ++ rest)) := by
      rw [h]; simp [serTree, Config.placeholder, Config.markNode]
    have r2 : srcRest (s.setPos (s.src.pos + 2)) = serTree l ++ (serTree r ++ rest) := srcRest_drop (xs := [0x00, 0x00]) hs
    rw [readNode_pair d c hs (by simp) (by omega), ihl d (c + 1) _ _ r2 (by omega) (by omega), bind_done,
      ihr d _ _ _ (srcRest_drop r2) (by simp only; omega) (by simp only; omega), bind_done]
    simp only [joinChildren, setPos_setPos, State.setPos_src, serTree, List.length_append, List.length_cons,
      List.length_nil]
    congr 2 <;> omega

/-- The faults ReadNode() can raise (43_tree R148). -/
def TreeFault (e : FaultCode) (info : Word) : Prop :=
  (e = .trunc ∧ (info = 0x20 ∨ info = 0x21)) ∨ (e = .treeovf ∧ info = 0) ∨ (e = .tree ∧ info = 3)

/-- The nodes of a result of ReadNode(), 0 for ABSENT. -/
def nodesOf (t : Option Tree) : Nat := (t.map Tree.nodes).getD 0

/-- Everything ReadNode() can do: it hands back a tree whose nodes it has counted, within the capacity, or raises one of
its faults; and it changes nothing but SRC.pos, which stays inside the source (43_tree R148). -/
theorem readNode_cases : ∀ (depth c : Nat) (s : State), c ≤ Config.nodeCap → s.src.pos ≤ s.src.data.length →
    (∃ t p, readNode depth c s = .done (t, c + nodesOf t) (s.setPos p) ∧ c + nodesOf t ≤ Config.nodeCap ∧
        s.src.pos ≤ p ∧ p ≤ s.src.data.length) ∨
      (∃ e info p, readNode depth c s = raise e info (s.setPos p) ∧ TreeFault e info ∧
        s.src.pos ≤ p ∧ p ≤ s.src.data.length)
  | 0, c, s, _, hp => .inr ⟨.treeovf, 0, s.src.pos, rfl, .inr (.inl ⟨rfl, rfl⟩), Nat.le_refl _, hp⟩
  | depth + 1, c, s, hc, hp => by
    rcases srcRead_cases s with ⟨-, hn⟩ | ⟨b0, xs, h0, -, hlt0⟩
    · refine .inr ⟨.trunc, 0x20, s.src.pos, ?_, .inl ⟨rfl, .inl rfl⟩, Nat.le_refl _, hp⟩
      rw [readNode, srcReadOr_nil _ hn]; rfl
    · have h1 := srcRest_setPos h0
      rcases srcRead_cases (s.setPos (s.src.pos + 1)) with ⟨-, hn⟩ | ⟨b1, ys, h2, -, hlt1⟩
      · refine .inr ⟨.trunc, 0x21, s.src.pos + 1, ?_, .inl ⟨rfl, .inr rfl⟩, by omega, hlt0⟩
        rw [readNode, srcReadOr_cons _ h0, bind_done, srcReadOr_nil _ hn]; rfl
      · rw [h1] at h2; subst h2
        have hlt2 : s.src.pos + 2 ≤ s.src.data.length := hlt1
        by_cases hsent : b0 = 0x00 ∧ b1 = 0x01
        · obtain ⟨rfl, rfl⟩ := hsent
          exact .inl ⟨none, s.src.pos + 2, readNode_sentinel depth c h0, hc, by omega, hlt2⟩
        · by_cases hcap : c = Config.nodeCap
          · refine .inr ⟨.treeovf, 0, s.src.pos + 2, ?_, .inr (.inl ⟨rfl, rfl⟩), by omega, hlt2⟩
            subst hcap
            exact readNode_overflow depth h0 hsent
          · have hc1 : c + 1 ≤ Config.nodeCap := by omega
            rw [readNode_pair depth c h0 hsent hcap]
            rcases readNode_cases depth (c + 1) (s.setPos (s.src.pos + 2)) hc1 hlt2 with
              ⟨l, p, hl, hcl, hp1, hp2⟩ | ⟨e, info, p, hl, hf, hp1, hp2⟩
            · rw [hl, bind_done]
              rcases readNode_cases depth (c + 1 + nodesOf l) (s.setPos p) hcl hp2 with
                ⟨r, q, hr, hcr, hq1, hq2⟩ | ⟨e, info, q, hr, hf, hq1, hq2⟩
              · have hpq : s.src.pos + 2 ≤ p := hp1
                have hpq' : p ≤ q := hq1
                have hr' : readNode depth (c + 1 + nodesOf l) ((s.setPos (s.src.pos + 2)).setPos p) =
                  .done (r, c + 1 + nodesOf l + nodesOf r) (s.setPos q) := hr
                rw [hr', bind_done]
                have hnone : nodesOf none = 0 := rfl
                have hsome (t : Tree) : nodesOf (some t) = t.nodes := rfl
                cases l with
                | none =>
                  cases r with
                  | none =>
                    refine .inl ⟨some (.leaf b0), q, rfl, ?_, by omega, hq2⟩
                    simp only [hsome, Tree.nodes]; omega
                  | some r =>
                    exact .inr ⟨.tree, 3, q, rfl, .inr (.inr ⟨rfl, rfl⟩), by omega, hq2⟩
                | some l =>
                  cases r with
                  | none => exact .inr ⟨.tree, 3, q, rfl, .inr (.inr ⟨rfl, rfl⟩), by omega, hq2⟩
                  | some r =>
                    refine .inl ⟨some (.node l r), q, ?_, ?_, by omega, hq2⟩
                    · simp only [joinChildren, hsome, Tree.nodes]
                      congr 2; omega
                    · simp only [hsome, Tree.nodes] at hcr ⊢; omega
              · have hpq : s.src.pos + 2 ≤ p := hp1
                have hpq' : p ≤ q := hq1
                refine .inr ⟨e, info, q, ?_, hf, by omega, hq2⟩
                have hr' : readNode depth (c + 1 + nodesOf l) ((s.setPos (s.src.pos + 2)).setPos p) =
                  raise e info (s.setPos q) := hr
                rw [hr', bind_raise]
            · have hpq : s.src.pos + 2 ≤ p := hp1
              refine .inr ⟨e, info, p, ?_, hf, by omega, hp2⟩
              rw [hl, bind_raise]; rfl

/-- The depth bound of `readNode` is never used up: from NODE_CAP + 1 − c on, more depth changes nothing
(notes/assumptions/9.md). -/
theorem readNode_depth_enough : ∀ (depth c : Nat) (s : State), c ≤ Config.nodeCap → s.src.pos ≤ s.src.data.length →
    Config.nodeCap < depth + c → readNode (depth + 1) c s = readNode depth c s
  | 0, c, _, hc, _, hd => by omega
  | depth + 1, c, s, hc, hp, hd => by
    rcases srcRead_cases s with ⟨-, hn⟩ | ⟨b0, xs, h0, -, hlt0⟩
    · rw [readNode, srcReadOr_nil _ hn, readNode, srcReadOr_nil _ hn]; rfl
    · have h1 := srcRest_setPos h0
      rcases srcRead_cases (s.setPos (s.src.pos + 1)) with ⟨-, hn⟩ | ⟨b1, ys, h2, -, hlt1⟩
      · rw [readNode, srcReadOr_cons _ h0, bind_done, srcReadOr_nil _ hn, readNode, srcReadOr_cons _ h0, bind_done,
          srcReadOr_nil _ hn]; rfl
      · rw [h1] at h2; subst h2
        have hlt2 : s.src.pos + 2 ≤ s.src.data.length := hlt1
        by_cases hsent : b0 = 0x00 ∧ b1 = 0x01
        · obtain ⟨rfl, rfl⟩ := hsent
          rw [readNode_sentinel _ _ h0, readNode_sentinel _ _ h0]
        · by_cases hcap : c = Config.nodeCap
          · subst hcap
            rw [readNode_overflow _ h0 hsent, readNode_overflow _ h0 hsent]
          · have hc1 : c + 1 ≤ Config.nodeCap := by omega
            rw [readNode_pair _ c h0 hsent hcap, readNode_pair _ c h0 hsent hcap,
              readNode_depth_enough depth (c + 1) _ hc1 hlt2 (by omega)]
            rcases readNode_cases depth (c + 1) (s.setPos (s.src.pos + 2)) hc1 hlt2 with
              ⟨l, p, hl, hcl, hp1, hp2⟩ | ⟨e, info, p, hl, hf, hp1, hp2⟩
            · rw [hl, bind_done, bind_done]
              have := readNode_depth_enough depth (c + 1 + nodesOf l) (s.setPos p) hcl hp2 (by omega)
              exact congrArg (CmdResult.bind · _) this
            · rw [hl, bind_raise, bind_raise]

end Sys2Proof.Machine
end

