-- ==== Sys2Proof/Laws/Codes.lean ====
section
/-! SUPPORT. Codes: what Derive and TCODES give (43_tree R154 to R157), and that DecodeSym follows a code to its leaf
(44_vlc R168, R172). -/

namespace Sys2Proof.Machine

-- ## Tables

theorem tget_tset_self {α : Type} (t : Vector α 256) (v : Byte) (x : α) : tget (tset t v x) v = x := by
  simp [tget, tset]

theorem tget_tset_ne {α : Type} (t : Vector α 256) {v u : Byte} (x : α) (h : v ≠ u) :
    tget (tset t v x) u = tget t u := by
  have : v.toNat ≠ u.toNat := fun e => h (BitVec.eq_of_toNat_eq e)
  simp [tget, tset, this]

@[simp] theorem tget_noCodes (v : Byte) : tget noCodes v = none := by simp [tget, noCodes]

/-- Two tables with the same entries are the same. -/
theorem table_ext {α : Type} {t u : Vector α 256} (h : ∀ v : Byte, tget t v = tget u v) : t = u := by
  apply Vector.ext
  intro i hi
  have := h (BitVec.ofNat 8 i)
  have e : (BitVec.ofNat 8 i).toNat = i := by simp; omega
  simpa only [tget, e] using this

-- ## Derive

/-- The path so far is only carried along. -/
theorem derive_path (t : Tree) (p : List Bit) : derive t p = (derive t []).map fun a => (a.1, p ++ a.2) := by
  induction t generalizing p with
  | leaf v => simp [derive]
  | node l r ihl ihr =>
    rw [derive, derive, ihl, ihr, ihl ([] ++ [false]), ihr ([] ++ [true])]
    simp [List.map_map, Function.comp_def]

/-- The codes of an internal node's leaves, left ones with 0 in front and right ones with 1 (R154). -/
theorem derive_node (l r : Tree) : derive (.node l r) [] =
    (derive l []).map (fun a => (a.1, false :: a.2)) ++ (derive r []).map (fun a => (a.1, true :: a.2)) := by
  rw [derive, derive_path l, derive_path r]; rfl

/-- The bytes Derive assigns codes to are the leaves, left to right. -/
theorem derive_bytes (t : Tree) (p : List Bit) : (derive t p).map Prod.fst = t.leaves := by
  induction t generalizing p with
  | leaf v => rfl
  | node l r ihl ihr => simp [derive, Tree.leaves, ihl, ihr]

/-- A code below an internal node starts with the branch taken. -/
theorem mem_derive_node {l r : Tree} {v : Byte} {p : List Bit} (h : (v, p) ∈ derive (.node l r) []) :
    (∃ q, p = false :: q ∧ (v, q) ∈ derive l []) ∨ (∃ q, p = true :: q ∧ (v, q) ∈ derive r []) := by
  rw [derive_node, List.mem_append, List.mem_map, List.mem_map] at h
  rcases h with ⟨a, ha, e⟩ | ⟨a, ha, e⟩
  · simp only [Prod.mk.injEq] at e
    exact .inl ⟨a.2, e.2.symm, e.1 ▸ ha⟩
  · simp only [Prod.mk.injEq] at e
    exact .inr ⟨a.2, e.2.symm, e.1 ▸ ha⟩

/-- A code is shorter than the number of leaves, so at most 255 bits in a valid tree (R157). -/
theorem code_length {t : Tree} : ∀ {v : Byte} {p : List Bit}, (v, p) ∈ derive t [] → p.length < t.leaves.length := by
  induction t with
  | leaf v => intro v' p h; simp [derive] at h; simp [h.2, Tree.leaves]
  | node l r ihl ihr =>
    intro v p h
    have hl := leaves_pos l
    have hr := leaves_pos r
    rw [Tree.leaves, List.length_append]
    rcases mem_derive_node h with ⟨q, rfl, hq⟩ | ⟨q, rfl, hq⟩
    · have := ihl hq; simp only [List.length_cons]; omega
    · have := ihr hq; simp only [List.length_cons]; omega

/-- Two positions of a tree whose codes are a beginning of one another are the same position (R157): equal codes, equal
bytes. -/
theorem derive_prefix_free {t : Tree} : ∀ {u v : Byte} {p q : List Bit}, (u, p) ∈ derive t [] → (v, q) ∈ derive t [] →
    p <+: q → p = q ∧ u = v := by
  induction t with
  | leaf w => intro u v p q hp hq _; simp [derive] at hp hq; simp [hp, hq]
  | node l r ihl ihr =>
    intro u v p q hp hq h
    rcases mem_derive_node hp with ⟨p', rfl, hp'⟩ | ⟨p', rfl, hp'⟩ <;>
      rcases mem_derive_node hq with ⟨q', rfl, hq'⟩ | ⟨q', rfl, hq'⟩
    · obtain ⟨e1, e2⟩ := ihl hp' hq' (by simpa using h); exact ⟨by rw [e1], e2⟩
    · simp at h
    · simp at h
    · obtain ⟨e1, e2⟩ := ihr hp' hq' (by simpa using h); exact ⟨by rw [e1], e2⟩

-- ## The code table

/-- Every entry of the table after the assignments is one of them, or was there before. -/
theorem assignCodes_cases : ∀ (l : List (Byte × List Bit)) (c : CodeTable) (v : Byte),
    (∃ p, tget (assignCodes l c) v = some p ∧ (v, p) ∈ l) ∨
      (tget (assignCodes l c) v = tget c v ∧ v ∉ l.map Prod.fst)
  | [], c, v => .inr ⟨rfl, by simp⟩
  | (u, q) :: l, c, v => by
    rcases assignCodes_cases l (tset c u (some q)) v with ⟨p, h, hm⟩ | ⟨h, hn⟩
    · exact .inl ⟨p, h, List.mem_cons_of_mem _ hm⟩
    · by_cases e : u = v
      · subst e
        exact .inl ⟨q, by rw [assignCodes, h, tget_tset_self], List.mem_cons_self⟩
      · refine .inr ⟨by rw [assignCodes, h, tget_tset_ne _ _ e], ?_⟩
        simp only [List.map_cons, List.mem_cons, not_or]
        exact ⟨fun h => e h.symm, hn⟩

/-- A byte of the tree has a code, and it is the path to one of its leaves (R155, R156). -/
theorem codeTable_mem {t : Tree} {v : Byte} (h : v ∈ t.leaves) :
    ∃ p, tget (codeTable t) v = some p ∧ (v, p) ∈ derive t [] := by
  rcases assignCodes_cases (derive t []) noCodes v with h1 | ⟨-, h2⟩
  · exact h1
  · rw [derive_bytes] at h2; exact absurd h h2

/-- A byte without a leaf has no code (R155). -/
theorem codeTable_not_mem {t : Tree} {v : Byte} (h : v ∉ t.leaves) : tget (codeTable t) v = none := by
  rcases assignCodes_cases (derive t []) noCodes v with ⟨p, -, hm⟩ | ⟨h1, -⟩
  · exact absurd (derive_bytes t [] ▸ List.mem_map_of_mem (f := Prod.fst) hm) h
  · rw [codeTable, h1, tget_noCodes]

/-- A code of the table is the path to a leaf of that byte. -/
theorem codeTable_sound {t : Tree} {v : Byte} {p : List Bit} (h : tget (codeTable t) v = some p) :
    (v, p) ∈ derive t [] := by
  by_cases hm : v ∈ t.leaves
  · obtain ⟨q, hq, hd⟩ := codeTable_mem hm
    rw [hq] at h; exact Option.some.inj h ▸ hd
  · rw [codeTable_not_mem hm] at h; cases h

-- ## DecodeSym

/-- What a walk may change: SRC.pos and the reader. -/
def readerFrame (s s' : State) : Prop := s' = (s.setPos s'.src.pos).setReader s'.rbuf s'.rcnt

theorem readerFrame_refl (s : State) : readerFrame s s := rfl

theorem readerFrame_trans {s t u : State} (h1 : readerFrame s t) (h2 : readerFrame t u) : readerFrame s u := by
  unfold readerFrame at *
  rw [h2, h1]; rfl

/-- DecodeSym() walks along the code of a leaf to that leaf, and consumes exactly its bits (44_vlc R168, R172). -/
theorem decodeSym_path {t : Tree} : ∀ {v : Byte} {p rest : List Bit} {s : State}, (v, p) ∈ derive t [] → s.ReaderOk →
    unreadBits s = p ++ rest →
    ∃ s', decodeSym t s = .done v s' ∧ unreadBits s' = rest ∧ s'.ReaderOk ∧ readerFrame s s' ∧
      Consumed s s' p.length := by
  induction t with
  | leaf w =>
    intro v p rest s h hr hb
    simp only [derive, List.mem_singleton, Prod.mk.injEq] at h
    obtain ⟨rfl, rfl⟩ := h
    exact ⟨s, rfl, hb, hr, rfl, consumed_refl s⟩
  | node l r ihl ihr =>
    intro v p rest s h hr hb
    rcases mem_derive_node h with ⟨q, rfl, hq⟩ | ⟨q, rfl, hq⟩
    · obtain ⟨s1, g1, g2, g3, g4, -⟩ := getBit_cons hr hb
      obtain ⟨s2, d1, d2, d3, d4, d5⟩ := ihl hq g3 g2
      refine ⟨s2, by rw [decodeSym, g1]; exact d1, d2, d3, readerFrame_trans g4 d4, ?_⟩
      rw [List.length_cons, Nat.add_comm]
      exact consumed_trans (getBit_consumed g1) d5
    · obtain ⟨s1, g1, g2, g3, g4, -⟩ := getBit_cons hr hb
      obtain ⟨s2, d1, d2, d3, d4, d5⟩ := ihr hq g3 g2
      refine ⟨s2, by rw [decodeSym, g1]; exact d1, d2, d3, readerFrame_trans g4 d4, ?_⟩
      rw [List.length_cons, Nat.add_comm]
      exact consumed_trans (getBit_consumed g1) d5

/-- Everything DecodeSym() can do from a sound reader: a leaf reached along its code, or ERR_TRUNC(0x30) at the end of the
bits; it changes only SRC.pos and the reader (44_vlc R168). -/
theorem decodeSym_cases {t : Tree} : ∀ {s : State}, s.ReaderOk →
    (∃ v p s', decodeSym t s = .done v s' ∧ (v, p) ∈ derive t [] ∧ unreadBits s = p ++ unreadBits s' ∧ s'.ReaderOk ∧
        readerFrame s s') ∨
      (∃ s' n, decodeSym t s = raise .trunc 0x30 s' ∧ unreadBits s' = [] ∧ s'.ReaderOk ∧ readerFrame s s' ∧
        Consumed s s' n) := by
  induction t with
  | leaf w => intro s hr; exact .inl ⟨w, [], s, rfl, by simp [derive], rfl, hr, rfl⟩
  | node l r ihl ihr =>
    intro s hr
    rcases getBit_cases s hr with ⟨g, hnil⟩ | ⟨b, rest, s1, hb, g, hrest, g3, g4, -⟩
    · exact .inr ⟨s, 0, by rw [decodeSym, g], hnil, hr, rfl, consumed_refl s⟩
    · cases b with
      | false =>
        have e : decodeSym (.node l r) s = decodeSym l s1 := by rw [decodeSym, g]; rfl
        rcases ihl g3 with ⟨v, p, s2, d1, d2, d3, d4, d5⟩ | ⟨s2, n, d1, d2, d3, d4, d5⟩
        · refine .inl ⟨v, false :: p, s2, e.trans d1, ?_, ?_, d4, readerFrame_trans g4 d5⟩
          · rw [derive_node]
            exact List.mem_append_left _ (List.mem_map.2 ⟨(v, p), d2, rfl⟩)
          · rw [hb, ← hrest, d3]; rfl
        · exact .inr ⟨s2, 1 + n, e.trans d1, d2, d3, readerFrame_trans g4 d4, consumed_trans (getBit_consumed g) d5⟩
      | true =>
        have e : decodeSym (.node l r) s = decodeSym r s1 := by rw [decodeSym, g]; rfl
        rcases ihr g3 with ⟨v, p, s2, d1, d2, d3, d4, d5⟩ | ⟨s2, n, d1, d2, d3, d4, d5⟩
        · refine .inl ⟨v, true :: p, s2, e.trans d1, ?_, ?_, d4, readerFrame_trans g4 d5⟩
          · rw [derive_node]
            exact List.mem_append_right _ (List.mem_map.2 ⟨(v, p), d2, rfl⟩)
          · rw [hb, ← hrest, d3]; rfl
        · exact .inr ⟨s2, 1 + n, e.trans d1, d2, d3, readerFrame_trans g4 d4, consumed_trans (getBit_consumed g) d5⟩

end Sys2Proof.Machine
end

