-- ==== Sys2Proof/Laws/Build.lean ====
section
/-! SUPPORT. The tree builder (43_tree R140 to R145): the priority structure, the merges, and the shape of the built tree. -/

namespace Sys2Proof.Machine

/-- Extraction takes one entry out of the set (R142). -/
theorem extractMin_perm : ∀ (e : Entry) (l : List Entry), ((extractMin e l).1 :: (extractMin e l).2).Perm (e :: l)
  | e, [] => List.Perm.refl _
  | e, x :: xs => by
    have ih := extractMin_perm x xs
    simp only [extractMin]
    split
    · exact List.Perm.refl _
    · exact (List.Perm.swap _ _ _).trans (ih.cons e)

theorem extractMin_length (e : Entry) (l : List Entry) : (extractMin e l).2.length = l.length := by
  have := (extractMin_perm e l).length_eq
  simpa using this

theorem before_asymm {a b : Entry} (h : a.before b = true) : b.before a = false := by
  simp only [Entry.before, decide_eq_true_eq, decide_eq_false_iff_not] at *; omega

theorem before_neg_trans {a b c : Entry} (h1 : a.before b = false) (h2 : b.before c = false) : a.before c = false := by
  simp only [Entry.before, decide_eq_false_iff_not] at *; omega

/-- The entry extracted is a minimum of the set: none left is before it (R141, R142). -/
theorem extractMin_min : ∀ (e : Entry) (l : List Entry), ∀ x ∈ (extractMin e l).2, x.before (extractMin e l).1 = false
  | e, [] => by simp [extractMin]
  | e, y :: ys => by
    have ih := extractMin_min y ys
    have hp := extractMin_perm y ys
    simp only [extractMin]
    split
    · next h =>
      intro x hx
      have hx' : x ∈ (extractMin y ys).1 :: (extractMin y ys).2 := hp.mem_iff.2 hx
      rcases List.mem_cons.1 hx' with rfl | hx'
      · exact before_asymm h
      · exact before_neg_trans (ih x hx') (before_asymm h)
    · next h =>
      intro x hx
      rcases List.mem_cons.1 hx with rfl | hx
      · simpa using h
      · exact ih x hx

/-- The leaves of all the trees of a list of entries. -/
def entryLeaves (l : List Entry) : List Byte := l.flatMap fun e => e.t.leaves

theorem entryLeaves_perm {l m : List Entry} (h : l.Perm m) : (entryLeaves l).Perm (entryLeaves m) :=
  h.flatMap_right _

/-- The merges keep the leaves, so the built tree's leaves are the seeds (R145). -/
theorem mergeAll_leaves : ∀ (n s : Nat) (e : Entry) (rest : List Entry), rest.length ≤ n →
    (mergeAll n s e rest).leaves.Perm (entryLeaves (e :: rest))
  | 0, s, e, rest, h => by
    have : rest = [] := List.length_eq_zero_iff.1 (by omega)
    subst this
    simp [mergeAll, entryLeaves]
  | n + 1, s, e, rest, h => by
    have hp := extractMin_perm e rest
    have hl := extractMin_length e rest
    rw [mergeAll]
    split
    · next a heq =>
      rw [heq] at hp
      have := entryLeaves_perm hp
      simpa [entryLeaves] using this
    · next a x xs heq =>
      rw [heq] at hp hl
      have hq := extractMin_perm x xs
      have hl2 := extractMin_length x xs
      refine (mergeAll_leaves n (s + 1) _ _ (by simp at hl; omega)).trans ?_
      refine List.Perm.trans ?_ ((entryLeaves_perm (hq.cons a)).trans (entryLeaves_perm hp))
      simp [entryLeaves, mergeEntries, Tree.leaves]

/-- With two entries or more the root is an internal node. -/
theorem mergeAll_isNode : ∀ (n s : Nat) (e : Entry) (rest : List Entry), rest.length ≤ n → rest ≠ [] ∨ e.t.isNode = true →
    (mergeAll n s e rest).isNode = true
  | 0, s, e, rest, h, h2 => by
    have : rest = [] := List.length_eq_zero_iff.1 (by omega)
    subst this
    simpa [mergeAll] using h2
  | n + 1, s, e, rest, h, h2 => by
    have hl := extractMin_length e rest
    rw [mergeAll]
    split
    · next a heq =>
      rw [heq] at hl
      have : rest = [] := List.length_eq_zero_iff.1 hl.symm
      subst this
      simp only [extractMin, Prod.mk.injEq, and_true] at heq
      rw [← heq]; simpa using h2
    · next a x xs heq =>
      rw [heq] at hl
      have hl2 := extractMin_length x xs
      exact mergeAll_isNode n (s + 1) _ _ (by simp at hl; omega) (.inr rfl)

theorem seedFrom_leaves (f : FreqTable) : ∀ (s : Nat) (vs : List Byte), entryLeaves (seedFrom f s vs) = vs
  | _, [] => rfl
  | s, v :: vs => by
    have := seedFrom_leaves f (s + 1) vs
    simp only [entryLeaves] at this
    simp [entryLeaves, seedFrom, Tree.leaves, this]

theorem seedFrom_length (f : FreqTable) : ∀ (s : Nat) (vs : List Byte), (seedFrom f s vs).length = vs.length
  | _, [] => rfl
  | s, v :: vs => by simp [seedFrom, seedFrom_length f (s + 1) vs]

theorem allBytes_nodup : allBytes.Nodup := by
  refine List.Nodup.map_on ?_ List.nodup_range
  intro x hx y hy h
  simp at hx hy
  have := congrArg BitVec.toNat h
  simp at this; omega

theorem mem_allBytes (v : Byte) : v ∈ allBytes := by
  simp only [allBytes, List.mem_map, List.mem_range]
  exact ⟨v.toNat, v.isLt, by simp⟩

theorem mem_present {f : FreqTable} {v : Byte} : v ∈ present f ↔ tget f v ≠ 0 := by
  simp [present, mem_allBytes]

theorem present_nodup (f : FreqTable) : (present f).Nodup := allBytes_nodup.filter _

/-- K is at most 256 (10_state R18). -/
theorem kCount_le (f : FreqTable) : kCount f ≤ 256 := by
  have := List.length_filter_le (fun v => tget f v != 0) allBytes
  simpa [kCount, present, allBytes] using this

/-- TBUILD builds nothing exactly when K < 2 (R140, R142). -/
theorem buildTree_none {f : FreqTable} : buildTree f = none ↔ kCount f < 2 := by
  have hl := seedFrom_length f 0 (present f)
  unfold buildTree kCount
  split <;> rename_i h <;> rw [h] at hl <;> simp at hl ⊢ <;> omega

/-- What TBUILD builds: a tree with an internal root whose leaves are the bytes present, in some order (R145). -/
theorem buildTree_some {f : FreqTable} {t : Tree} (h : buildTree f = some t) :
    t.leaves.Perm (present f) ∧ t.isNode = true ∧ 2 ≤ kCount f := by
  have hk : 2 ≤ kCount f := by
    by_contra hlt
    rw [buildTree_none.2 (by omega)] at h; cases h
  unfold buildTree at h
  split at h
  · cases h
  · cases h
  · next e x xs heq =>
    have ht := Option.some.inj h
    have h1 := mergeAll_leaves (x :: xs).length (kCount f) e (x :: xs) (Nat.le_refl _)
    have h2 := mergeAll_isNode (x :: xs).length (kCount f) e (x :: xs) (Nat.le_refl _) (.inl (by simp))
    rw [ht] at h1 h2
    rw [← heq, seedFrom_leaves] at h1
    exact ⟨h1, h2, hk⟩

theorem buildTree_isSome {f : FreqTable} (h : 2 ≤ kCount f) : ∃ t, buildTree f = some t := by
  cases ht : buildTree f with
  | none => have := buildTree_none.1 ht; omega
  | some t => exact ⟨t, rfl⟩

/-- A built tree has 2k − 1 nodes, at most NODE_CAP: it is a valid TREE (R145, R153). -/
theorem buildTree_valid {f : FreqTable} {t : Tree} (h : buildTree f = some t) :
    t.valid = true ∧ t.nodes + 1 = 2 * kCount f := by
  obtain ⟨h1, h2, -⟩ := buildTree_some h
  have hn := nodes_leaves t
  rw [h1.length_eq] at hn
  have hk := kCount_le f
  refine ⟨?_, hn⟩
  unfold kCount at hk
  rw [Tree.valid, h2]
  exact decide_eq_true (show t.nodes ≤ 511 by omega)

end Sys2Proof.Machine
end

