-- ==== Sys2Proof/Laws/Coding.lean ====
section
/-! SUPPORT. Encoding and decoding runs of symbols (44_vlc R166 to R172), the scan (42_frequency R130), and the pieces of
CMP and DCMP (46_codec). -/

namespace Sys2Proof.Machine

-- ## Encoding

/-- What an encoding run may change: SRC.pos, the writer and the sink. -/
def encoderFrame (s s' : State) : Prop :=
  s' = ((s.setPos s'.src.pos).setSnk s'.snk).setWriter s'.wbuf s'.wcnt

theorem encoderFrame_refl (s : State) : encoderFrame s s := rfl

theorem encoderFrame_trans {s t u : State} (h1 : encoderFrame s t) (h2 : encoderFrame t u) : encoderFrame s u := by
  unfold encoderFrame at *
  rw [h2, h1]; rfl

theorem encoderFrame_putBits (p : List Bit) (s : State) : encoderFrame s (putBits p s) := by
  unfold encoderFrame
  have := putBits_frame p s
  rw [this]; rfl

theorem encoderFrame_setPos (p : Nat) (s : State) : encoderFrame s (s.setPos p) := rfl

/-- A byte that has a code. -/
theorem requireCodeOf_some {c : CodeTable} {x : Byte} {p : List Bit} (s : State) (h : tget c x = some p) :
    requireCodeOf c x s = .done p s := by simp [requireCodeOf, h]

/-- A byte that has none faults ERR_NOCODE. -/
theorem requireCodeOf_none {c : CodeTable} {x : Byte} (s : State) (h : tget c x = none) :
    requireCodeOf c x s = raise .nocode (infoOfByte x) s := by simp [requireCodeOf, h]

theorem encodeFrom_cons {c : CodeTable} {x : Byte} {rest : List Byte} {s : State} (left : Nat) (h : srcRest s = x :: rest) :
    encodeFrom c (left + 1) s =
      (requireCodeOf c x (s.setPos (s.src.pos + 1))).bind fun p s => encodeFrom c left (putBits p s) := by
  rw [encodeFrom, srcRead_cons h]

theorem srcRest_putBits (p : List Bit) (s : State) : srcRest (putBits p s) = srcRest s := by
  rw [putBits_frame p s]; rfl

/-- HENC's loop writes the codes of a run of coded bytes in order, and stops in front of what follows (R167). -/
theorem encodeFrom_run {c : CodeTable} : ∀ (xs : List Byte) (left : Nat) (s : State) (rest : List Byte), s.WriterOk →
    srcRest s = xs ++ rest → (∀ x ∈ xs, (tget c x).isSome) →
    ∃ s', encodeFrom c (xs.length + left) s = encodeFrom c left s' ∧ s'.WriterOk ∧
      writtenBits s' = writtenBits s ++ payloadBits c xs ∧ s'.src.pos = s.src.pos + xs.length ∧ encoderFrame s s'
  | [], left, s, rest, hw, _, _ => ⟨s, by simp, hw, by simp [payloadBits], rfl, rfl⟩
  | x :: xs, left, s, rest, hw, h, hc => by
    obtain ⟨p, hp⟩ := Option.isSome_iff_exists.1 (hc x (List.mem_cons_self))
    let s1 := s.setPos (s.src.pos + 1)
    obtain ⟨w1, w2⟩ := putBits_spec p s1 hw
    have r1 : srcRest (putBits p s1) = xs ++ rest := (srcRest_putBits p s1).trans (srcRest_setPos h)
    obtain ⟨s', e1, e2, e3, e4, e5⟩ := encodeFrom_run xs left (putBits p s1) rest w1 r1
      fun y hy => hc y (List.mem_cons_of_mem _ hy)
    have hpos : (putBits p s1).src.pos = s.src.pos + 1 := by rw [putBits_frame p s1]; rfl
    refine ⟨s', ?_, e2, ?_, by rw [e4, hpos, List.length_cons]; omega,
      encoderFrame_trans (encoderFrame_trans (encoderFrame_setPos _ s) (encoderFrame_putBits p s1)) e5⟩
    · rw [List.length_cons, Nat.add_right_comm, encodeFrom_cons _ h, requireCodeOf_some _ hp, bind_done]
      exact e1
    · rw [e3, w2]
      simp [payloadBits, hp, s1, writtenBits, pendingBits]

/-- HENC's loop over a rest of coded bytes: it ends normally with all their codes written (R167). -/
theorem encodeFrom_all {c : CodeTable} {s : State} (hw : s.WriterOk) (hc : ∀ x ∈ srcRest s, (tget c x).isSome) :
    ∃ s', encodeFrom c (srcLeft s) s = .done () s' ∧ s'.WriterOk ∧
      writtenBits s' = writtenBits s ++ payloadBits c (srcRest s) ∧ s'.src.pos = s.src.pos + srcLeft s ∧
      encoderFrame s s' := by
  obtain ⟨s', e1, e2, e3, e4, e5⟩ := encodeFrom_run (srcRest s) 0 s [] hw (by simp) hc
  rw [srcRest_length] at e1 e4
  exact ⟨s', e1, e2, e3, e4, e5⟩

/-- HENC's loop meets a byte without a code: ERR_NOCODE, the codes of the earlier bytes written, the byte consumed
(R167). -/
theorem encodeFrom_nocode {c : CodeTable} {s : State} {xs rest : List Byte} {x : Byte} (hw : s.WriterOk)
    (h : srcRest s = xs ++ x :: rest) (hc : ∀ y ∈ xs, (tget c y).isSome) (hx : tget c x = none) :
    ∃ s', encodeFrom c (srcLeft s) s = raise .nocode (infoOfByte x) s' ∧ s'.WriterOk ∧
      writtenBits s' = writtenBits s ++ payloadBits c xs ∧ s'.src.pos = s.src.pos + xs.length + 1 ∧ encoderFrame s s' := by
  obtain ⟨s', e1, e2, e3, e4, e5⟩ := encodeFrom_run xs (rest.length + 1) s (x :: rest) hw h hc
  have hlen : srcLeft s = xs.length + (rest.length + 1) := by rw [← srcRest_length, h]; simp
  have hr : srcRest s' = x :: rest := by
    have : s'.src.data = s.src.data := by rw [e5]; rfl
    rw [srcRest, this, e4]
    exact (srcRest_drop h : _)
  refine ⟨s'.setPos (s'.src.pos + 1), ?_, e2, e3, by simp only [State.setPos_src]; omega,
    encoderFrame_trans e5 (encoderFrame_setPos _ s')⟩
  rw [hlen, e1, encodeFrom_cons _ hr, requireCodeOf_none _ hx, bind_raise]

-- ## Decoding

/-- What a decoding run may change: SRC.pos, the reader and the sink. -/
def decoderFrame (s s' : State) : Prop :=
  s' = ((s.setPos s'.src.pos).setSnk s'.snk).setReader s'.rbuf s'.rcnt

theorem decoderFrame_trans {s t u : State} (h1 : decoderFrame s t) (h2 : decoderFrame t u) : decoderFrame s u := by
  unfold decoderFrame at *
  rw [h2, h1]; rfl

theorem decoderFrame_of_reader {s t : State} (h : readerFrame s t) : decoderFrame s t := by
  unfold decoderFrame; unfold readerFrame at h
  rw [h]; rfl

theorem decoderFrame_snkWrite (b : Byte) (s : State) : decoderFrame s (snkWrite b s) := rfl

/-- HDEC's loop follows a run of paths to their leaves (R170). -/
theorem decodeSyms_paths {t : Tree} : ∀ (l : List (Byte × List Bit)) (s : State) (rest : List Bit), s.ReaderOk →
    (∀ a ∈ l, a ∈ derive t []) → unreadBits s = l.flatMap Prod.snd ++ rest →
    ∃ s', (∀ left, decodeSyms t (l.length + left) s = decodeSyms t left s') ∧ s'.snk = s.snk ++ l.map Prod.fst ∧
      unreadBits s' = rest ∧ s'.ReaderOk ∧ decoderFrame s s' ∧ Consumed s s' (l.flatMap Prod.snd).length
  | [], s, rest, hr, _, hb => ⟨s, by simp, by simp, by simpa using hb, hr, rfl, consumed_refl s⟩
  | (x, p) :: l, s, rest, hr, hx, hb => by
    have hb' : unreadBits s = p ++ (l.flatMap Prod.snd ++ rest) := by rw [hb]; simp
    obtain ⟨s1, d1, d2, d3, d4, d5⟩ := decodeSym_path (hx _ List.mem_cons_self) hr hb'
    obtain ⟨s', e1, e2, e3, e4, e5, e6⟩ := decodeSyms_paths l (snkWrite x s1) rest d3
      (fun y hy => hx y (List.mem_cons_of_mem _ hy)) d2
    have hsnk : s1.snk = s.snk := by rw [d4]; rfl
    refine ⟨s', fun left => ?_, ?_, e3, e4, decoderFrame_trans
      (decoderFrame_trans (decoderFrame_of_reader d4) (decoderFrame_snkWrite x s1)) e5, ?_⟩
    · rw [List.length_cons, Nat.add_right_comm, decodeSyms, d1]; exact e1 left
    · rw [e2, snkWrite_snk, hsnk]; simp
    · rw [List.flatMap_cons, List.length_append]
      exact consumed_trans d5 (t := snkWrite x s1) e6

/-- The codes of a run of bytes are a run of paths. -/
theorem payloadBits_paths {t : Tree} : ∀ (xs : List Byte), (∀ x ∈ xs, x ∈ t.leaves) →
    ∃ l : List (Byte × List Bit), (∀ a ∈ l, a ∈ derive t []) ∧ l.map Prod.fst = xs ∧
      l.flatMap Prod.snd = payloadBits (codeTable t) xs
  | [], _ => ⟨[], by simp, rfl, rfl⟩
  | x :: xs, h => by
    obtain ⟨p, hp, hd⟩ := codeTable_mem (h x List.mem_cons_self)
    obtain ⟨l, h1, h2, h3⟩ := payloadBits_paths xs fun y hy => h y (List.mem_cons_of_mem _ hy)
    refine ⟨(x, p) :: l, fun a ha => ?_, by simp [h2], ?_⟩
    · rcases List.mem_cons.1 ha with rfl | ha
      · exact hd
      · exact h1 a ha
    · rw [List.flatMap_cons, h3]
      simp [payloadBits, hp]

/-- HDEC's loop decodes the codes of a run of bytes back to the bytes (R170, R172). -/
theorem decodeSyms_run {t : Tree} (xs : List Byte) (s : State) (rest : List Bit) (hr : s.ReaderOk)
    (hx : ∀ x ∈ xs, x ∈ t.leaves) (hb : unreadBits s = payloadBits (codeTable t) xs ++ rest) :
    ∃ s', decodeSyms t xs.length s = .done () s' ∧ s'.snk = s.snk ++ xs ∧ unreadBits s' = rest ∧ s'.ReaderOk ∧
      decoderFrame s s' ∧ Consumed s s' (payloadBits (codeTable t) xs).length := by
  obtain ⟨l, h1, rfl, h3⟩ := payloadBits_paths xs hx
  rw [← h3] at hb ⊢
  obtain ⟨s', e1, e2⟩ := decodeSyms_paths l s rest hr h1 hb
  exact ⟨s', by rw [List.length_map]; exact e1 0, e2⟩

/-- DecodeSym() when the unread bits lead to no leaf: all of them are consumed, then ERR_TRUNC(0x30) (44_vlc R168). -/
theorem decodeSym_cut {t : Tree} {s : State} (hr : s.ReaderOk) (hn : ∀ v p, (v, p) ∈ derive t [] → ¬ p <+: unreadBits s) :
    decodeSym t s = raise .trunc 0x30 ((s.setPos (s.src.pos + srcLeft s)).setReader 0 0) := by
  rcases decodeSym_cases (t := t) hr with ⟨v, p, s', -, hd, hu, -⟩ | ⟨s', n, d1, d2, d3, d4, d5⟩
  · exact absurd ⟨_, hu.symm⟩ (hn v p hd)
  · obtain ⟨h1, h2, h3⟩ := consumed_all d3 d2 d5
    unfold readerFrame at d4
    rw [d1, d4, h1, h2, h3]

/-- Unread bits as a run of paths, up to n of them, and a rest that leads to no leaf if there are fewer. -/
theorem paths_split (t : Tree) : ∀ (n : Nat) (bits : List Bit), ∃ (l : List (Byte × List Bit)) (rest : List Bit),
    (∀ a ∈ l, a ∈ derive t []) ∧ bits = l.flatMap Prod.snd ++ rest ∧
      (l.length = n ∨ l.length < n ∧ ∀ v p, (v, p) ∈ derive t [] → ¬ p <+: rest)
  | 0, bits => ⟨[], bits, by simp, rfl, .inl rfl⟩
  | n + 1, bits => by
    by_cases h : ∃ v p, (v, p) ∈ derive t [] ∧ p <+: bits
    · obtain ⟨v, p, hd, rest, rfl⟩ := h
      obtain ⟨l, rest', h1, h2, h3⟩ := paths_split t n rest
      refine ⟨(v, p) :: l, rest', fun a ha => ?_, by simp [h2], ?_⟩
      · rcases List.mem_cons.1 ha with rfl | ha
        · exact hd
        · exact h1 a ha
      · rw [List.length_cons]
        rcases h3 with h3 | ⟨h3, h4⟩
        · exact .inl (by omega)
        · exact .inr ⟨by omega, h4⟩
    · refine ⟨[], bits, by simp, rfl, .inr ⟨by simp, fun v p hd hp => h ⟨v, p, hd, hp⟩⟩⟩

/-- Everything HDEC's loop can do from a sound reader: the bytes of as many leaves as are asked for, or those the bits lead
to and ERR_TRUNC(0x30) (R170, R171). -/
theorem decodeSyms_cases {t : Tree} (n : Nat) {s : State} (hr : s.ReaderOk) :
    ∃ l : List (Byte × List Bit), (∀ a ∈ l, a ∈ derive t []) ∧
      ((∃ s', decodeSyms t n s = .done () s' ∧ l.length = n ∧ s'.snk = s.snk ++ l.map Prod.fst ∧
          unreadBits s = l.flatMap Prod.snd ++ unreadBits s' ∧ s'.ReaderOk ∧ decoderFrame s s' ∧
          Consumed s s' (l.flatMap Prod.snd).length) ∨
       (∃ cut, l.length < n ∧ unreadBits s = l.flatMap Prod.snd ++ cut ∧
          (∀ v p, (v, p) ∈ derive t [] → ¬ p <+: cut) ∧
          decodeSyms t n s = raise .trunc 0x30
            (((s.setPos (s.src.pos + srcLeft s)).setSnk (s.snk ++ l.map Prod.fst)).setReader 0 0))) := by
  obtain ⟨l, rest, h1, h2, h3⟩ := paths_split t n (unreadBits s)
  obtain ⟨s', e1, e2, e3, e4, e5, e6⟩ := decodeSyms_paths l s rest hr h1 h2
  refine ⟨l, h1, ?_⟩
  rcases h3 with rfl | ⟨h3, h4⟩
  · exact .inl ⟨s', e1 0, rfl, e2, by rw [e3]; exact h2, e4, e5, e6⟩
  · refine .inr ⟨rest, h3, h2, h4, ?_⟩
    obtain ⟨k, rfl⟩ : ∃ k, n = l.length + (k + 1) := ⟨n - l.length - 1, by omega⟩
    subst e3
    rw [e1, decodeSyms, decodeSym_cut e4 h4, bind_raise]
    have hpos : s'.src.pos + srcLeft s' = s.src.pos + srcLeft s := by
      obtain ⟨m, c1, c2, -, c4⟩ := e6
      unfold srcLeft
      rw [c2] at c4 ⊢
      rcases c4 with rfl | c4 <;> omega
    unfold decoderFrame at e5
    rw [hpos, e5, e2]
    rfl

-- ## The scan

/-- The table after counting a run of bytes, one increment each. -/
def countInto (f : FreqTable) : List Byte → FreqTable
  | [] => f
  | x :: xs => countInto (tset f x (tget f x + 1)) xs

theorem tget_countInto : ∀ (xs : List Byte) (f : FreqTable) (v : Byte),
    tget (countInto f xs) v = tget f v + BitVec.ofNat 64 (xs.count v)
  | [], f, v => by simp [countInto]
  | x :: xs, f, v => by
    rw [countInto, tget_countInto xs]
    by_cases e : x = v
    · subst e
      rw [tget_tset_self, List.count_cons_self, Nat.add_comm, BitVec.ofNat_add, BitVec.add_assoc]
      rfl
    · rw [tget_tset_ne _ _ e, List.count_cons_of_ne e]

theorem tget_countsOf (xs : List Byte) (v : Byte) : tget (countsOf xs) v = BitVec.ofNat 64 (xs.count v) := by
  simp [tget, countsOf]

@[simp] theorem tget_zeroFreq (v : Byte) : tget zeroFreq v = 0 := by simp [tget, zeroFreq]

/-- Counting from the cleared table gives the counts (42_frequency R130). -/
theorem countInto_zero (xs : List Byte) : countInto zeroFreq xs = countsOf xs :=
  table_ext fun v => by rw [tget_countInto, tget_zeroFreq, tget_countsOf]; simp

/-- FSCAN's loop over a run of bytes within the size limit (R130). -/
theorem scanFrom_run : ∀ (xs : List Byte) (left n : Nat) (s : State) (rest : List Byte), srcRest s = xs ++ rest →
    n + xs.length ≤ Config.maxLen →
    scanFrom (xs.length + left) n s =
      scanFrom left (n + xs.length) ((s.setFreq (countInto s.freq xs)).setPos (s.src.pos + xs.length))
  | [], left, n, s, rest, _, _ => by simp [countInto, State.setFreq, State.setPos]
  | x :: xs, left, n, s, rest, h, hn => by
    have hne : n ≠ Config.maxLen := by simp at hn; omega
    rw [List.length_cons] at hn
    have hr : srcRest (countByte x (s.setPos (s.src.pos + 1))) = xs ++ rest := srcRest_setPos h
    rw [List.length_cons, Nat.add_right_comm, scanFrom, srcRead_cons h]
    simp only [if_neg hne]
    rw [scanFrom_run xs left (n + 1) _ rest hr (by omega)]
    have e1 : n + 1 + xs.length = n + (xs.length + 1) := by omega
    have e2 : s.src.pos + 1 + xs.length = s.src.pos + (xs.length + 1) := by omega
    rw [e1, ← e2]; rfl

@[simp] theorem setFreq_setFreq (s : State) (f g : FreqTable) : (s.setFreq f).setFreq g = s.setFreq g := rfl

/-- FSCAN on a source of at most MAXLEN unread bytes (R130). -/
theorem opFscan_ok {s : State} (h : srcLeft s ≤ Config.maxLen) :
    opFscan s = .done () (((s.setFreq (countsOf (srcRest s))).setPos (s.src.pos + srcLeft s)).setLen
      (BitVec.ofNat 32 (srcLeft s))) := by
  have := scanFrom_run (srcRest s) 0 0 (s.setFreq zeroFreq) [] (by simp; rfl) (by rw [srcRest_length]; omega)
  rw [srcRest_length, Nat.add_zero] at this
  rw [opFscan, this, scanFrom, bind_done, State.setFreq_freq, countInto_zero, Nat.zero_add]
  rfl

theorem srcRest_setFreq (s : State) (f : FreqTable) (p : Nat) : srcRest ((s.setFreq f).setPos p) = srcRest (s.setPos p) :=
  rfl

/-- FSCAN's loop meets one byte more than the limit M. -/
theorem scanFrom_over {s : State} {M : Nat} (hM : M = Config.maxLen) (h : M < srcLeft s) :
    scanFrom (srcLeft s) 0 (s.setFreq zeroFreq) =
      raise .size 0 ((s.setFreq (countsOf ((srcRest s).take M))).setPos (s.src.pos + M + 1)) := by
  have hlen := srcRest_length s
  have hl : ((srcRest s).take M).length = M := by rw [List.length_take]; omega
  obtain ⟨x, rest, hd⟩ : ∃ x rest, (srcRest s).drop M = x :: rest := by
    cases hd : (srcRest s).drop M with
    | nil => have := congrArg List.length hd; rw [List.length_drop, List.length_nil] at this; omega
    | cons x rest => exact ⟨x, rest, rfl⟩
  have hs : srcRest s = (srcRest s).take M ++ x :: rest := by rw [← hd, List.take_append_drop]
  have hk : srcLeft s = ((srcRest s).take M).length + ((srcLeft s - M - 1) + 1) := by omega
  have run := scanFrom_run ((srcRest s).take M) ((srcLeft s - M - 1) + 1) 0 (s.setFreq zeroFreq)
    (x :: rest) hs (by omega)
  rw [← hk, Nat.zero_add, hl, State.setFreq_freq, countInto_zero, State.setFreq_src, setFreq_setFreq] at run
  have hr : srcRest ((s.setFreq (countsOf ((srcRest s).take M))).setPos (s.src.pos + M)) = x :: rest := by
    have := srcRest_drop hs
    rwa [hl, ← srcRest_setFreq] at this
  rw [run, scanFrom, srcRead_cons hr]
  simp only [if_pos hM, setPos_setPos, State.setPos_src]

/-- FSCAN on a longer source: ERR_SIZE at byte number 2^32, consumed and not counted (R131). -/
theorem opFscan_size {s : State} (h : Config.maxLen < srcLeft s) :
    opFscan s = raise .size 0 ((s.setFreq (countsOf ((srcRest s).take Config.maxLen))).setPos
      (s.src.pos + Config.maxLen + 1)) := by
  rw [opFscan, scanFrom_over rfl h, bind_raise]

-- ## The alphabet

theorem mem_present_countsOf {xs : List Byte} {v : Byte} (h : xs.length ≤ Config.maxLen) :
    v ∈ present (countsOf xs) ↔ v ∈ xs := by
  rw [mem_present, tget_countsOf]
  have hc : xs.count v ≤ xs.length := List.count_le_length
  unfold Config.maxLen at h
  rw [← List.count_pos_iff]
  constructor
  · intro h0
    by_contra hz
    exact h0 (by simp [Nat.eq_zero_of_not_pos hz])
  · intro hp h0
    have : xs.count v % 2 ^ 64 = 0 := (BitVec.toNat_ofNat _ 64).symm.trans (congrArg BitVec.toNat h0)
    omega

end Sys2Proof.Machine
end

