-- ==== Sys2Proof/Laws/Codec.lean ====
section
/-! SUPPORT. CMP writes the container and DCMP reads it back (46_codec R191 to R199). -/

namespace Sys2Proof.Machine

-- ## The final flush

/-- From an empty writer, bits p written and flushed are Pack(p), and a zero byte when 8 divides |p| (41_bitstream R112). -/
theorem flush_written {s : State} {k : List Byte} {p : List Bit} (hw : s.WriterOk)
    (h : writtenBits s = unpack k ++ p) : (flush s).snk = k ++ pack p ++ flushByte p := by
  have hl := pendingBits_length s hw
  have h7 : s.wcnt.toNat ≤ 7 := by simpa [BitVec.le_def] using hw.1
  have hlen := congrArg List.length h
  simp only [writtenBits, List.length_append, unpack_length] at hlen
  have hp : s.snk ++ pack (pendingBits s) = k ++ pack p := by
    rw [← pack_unpack_append, ← pack_unpack_append, ← h, writtenBits]
  rw [flush_appends s hw, ← hp]
  by_cases h0 : pendingBits s = []
  · have : p.length % 8 = 0 := by rw [h0] at hlen; simp at hlen; omega
    simp [h0, flushByte, this, byteOfBits]
  · have hpos : 0 < (pendingBits s).length := List.length_pos_iff.2 h0
    have : p.length % 8 ≠ 0 := by omega
    rw [pack_short _ h0 (by omega)]
    simp [flushByte, this]

-- ## The alphabet of the input

theorem present_nil : present (countsOf []) = [] := by
  apply List.eq_nil_iff_forall_not_mem.2
  intro v hv
  rw [mem_present_countsOf (by simp)] at hv
  simp at hv

/-- One distinct byte value: k = 1 (R192). -/
theorem present_single {v : Byte} {rest : List Byte} (hl : (v :: rest).length ≤ Config.maxLen)
    (h : rest.all (fun x => x == v) = true) : present (countsOf (v :: rest)) = [v] := by
  have hm (x : Byte) : x ∈ present (countsOf (v :: rest)) ↔ x = v := by
    rw [mem_present_countsOf hl, List.mem_cons]
    constructor
    · rintro (h1 | h1)
      · exact h1
      · simpa using List.all_eq_true.1 h x h1
    · exact .inl
  have hn := present_nodup (countsOf (v :: rest))
  generalize present (countsOf (v :: rest)) = l at hm hn
  match l with
  | [] => exact absurd ((hm v).2 rfl) (by simp)
  | [x] => rw [(hm x).1 (by simp)]
  | x :: y :: l =>
    have e1 := (hm x).1 (by simp)
    have e2 := (hm y).1 (by simp)
    simp [e1, e2] at hn

/-- Two distinct byte values or more: k ≥ 2 (R192). -/
theorem present_many {v : Byte} {rest : List Byte} (hl : (v :: rest).length ≤ Config.maxLen)
    (h : rest.all (fun x => x == v) = false) : ∃ a b l, present (countsOf (v :: rest)) = a :: b :: l := by
  obtain ⟨x, hx, hne⟩ := List.all_eq_false.1 h
  have h1 := (mem_present_countsOf (v := v) hl).2 (by simp)
  have h2 := (mem_present_countsOf (v := x) hl).2 (by simp [hx])
  generalize present (countsOf (v :: rest)) = l at h1 h2
  match l with
  | [] => simp at h1
  | [y] => simp at h1 h2; exact absurd (by simp [h2, h1]) hne
  | a :: b :: l => exact ⟨a, b, l, rfl⟩

-- ## CMP

/-- The state CMP leaves: the parts that are the same for all three containers (R191). -/
structure CompressedFrom (s t : State) : Prop where
  snk : t.snk = s.snk ++ container (srcRest s)
  len : t.len = BitVec.ofNat 32 (srcLeft s)
  freq : t.freq = countsOf (srcRest s)
  src : t.src = { s.src with pos := s.src.pos + srcLeft s, mark := s.src.pos }
  writer : t.wbuf = 0 ∧ t.wcnt = 0
  reader : t.rbuf = 0 ∧ t.rcnt = 0
  kept : t.arg = s.arg ∧ t.res = s.res ∧ t.run = s.run ∧ t.eos = s.eos ∧ t.err = s.err ∧ t.einfo = s.einfo ∧
    t.script = s.script ∧ t.answers = s.answers
  tables : (kCount (countsOf (srcRest s)) < 2 ∧ t.tree = s.tree ∧ t.code = s.code) ∨
    ∃ T, buildTree (countsOf (srcRest s)) = some T ∧ t.tree = some T ∧ t.code = some (codeTable T)

/-- The branch k ≥ 2 of CMP on a state ready for it (R191). -/
theorem compressHuffman_spec {s : State} {bytes : List Byte} {T : Tree} (hf : s.freq = countsOf bytes)
    (hT : buildTree (countsOf bytes) = some T) (hl : bytes.length ≤ Config.maxLen)
    (hlen : s.len = BitVec.ofNat 32 bytes.length) (hr : srcRest (srcRewind s) = bytes)
    (hw : s.wbuf = 0 ∧ s.wcnt = 0) :
    ∃ t, compressHuffman s = .done () t ∧ t.snk = s.snk ++ huffmanContainer bytes T ∧
      t = ((((s.setPos (s.src.mark + bytes.length)).setTree (some T)).setCode (codeTable T)).setWriter 0 0).setSnk t.snk := by
  let s1 := opPutlen (snkWrite Config.tagH s)
  have hs1 : s1 = s.setSnk (s.snk ++ ([Config.tagH] ++ le32 s.len)) := by
    simp only [s1, opPutlen, snkWriteAll_eq]
    simp [State.setSnk, snkWrite]
  let s2 := (s1.setTree (some T))
  have e1 : opTbuild s1 = .done () s2 := by
    have : s1.freq = countsOf bytes := by rw [hs1]; exact hf
    rw [opTbuild, this, hT]
  let s3 := emitTree T s2
  have hs3 : s3 = s2.setSnk (s2.snk ++ serTree T) := emitTree_eq T s2
  have e2 : opTwrite s2 = .done () s3 := rfl
  have e3 : opTcodes s3 = .done () (s3.setCode (codeTable T)) := by
    rw [opTcodes, hs3]; rfl
  let s4 := srcRewind (s3.setCode (codeTable T))
  have hs4 : s4 = (((srcRewind s).setTree (some T)).setCode (codeTable T)).setSnk
      (s.snk ++ ([Config.tagH] ++ le32 s.len) ++ serTree T) := by
    simp only [s4, hs3, s2, hs1]; rfl
  have hr4 : srcRest s4 = bytes := by rw [hs4]; exact hr
  have hw4 : s4.WriterOk := by
    rw [hs4]; refine ⟨?_, ?_⟩
    · show s.wcnt ≤ 7; rw [hw.2]; decide
    · show s.wbuf >>> s.wcnt.toNat = 0; rw [hw.1]; simp
  have hwb4 : writtenBits s4 = unpack s4.snk := by
    have : pendingBits s4 = [] := by
      rw [hs4]; show (bitsOfByte s.wbuf).take s.wcnt.toNat = []; rw [hw.2]; rfl
    rw [writtenBits, this, List.append_nil]
  have hcoded : ∀ x ∈ srcRest s4, (tget (codeTable T) x).isSome := by
    intro x hx
    rw [hr4] at hx
    have hp := (buildTree_some hT).1
    obtain ⟨p, hp', -⟩ := codeTable_mem (hp.mem_iff.2 ((mem_present_countsOf hl).2 hx))
    rw [hp']; rfl
  obtain ⟨s5, h1, h2, h3, h4, h5⟩ := encodeFrom_all hw4 hcoded
  have e4 : opHenc s4 = .done () s5 := by
    have : requireCode s4 = .done (codeTable T) s4 := by rw [hs4]; rfl
    rw [opHenc, this]; exact h1
  have hleft : srcLeft s4 = bytes.length := by rw [← srcRest_length, hr4]
  refine ⟨flush s5, ?_, ?_, ?_⟩
  · rw [compressHuffman, e1, bind_done, e2, bind_done, e3, bind_done, e4, bind_done]
  · rw [hwb4, hr4] at h3
    rw [flush_written h2 h3]
    have : s4.snk = s.snk ++ ([Config.tagH] ++ le32 s.len) ++ serTree T := by rw [hs4]; rfl
    simp only [this, hlen, huffmanContainer, List.append_assoc]
  · have hp : s5.src.pos = s.src.mark + bytes.length := by
      rw [h4, hleft, hs4]; rfl
    unfold encoderFrame at h5
    rw [h5, hp, hs4]
    rfl

/-- CMP on at most MAXLEN unread bytes ends normally (R191, R193). -/
theorem opCmp_container {s : State} (h : srcLeft s ≤ Config.maxLen) :
    ∃ t, opCmp s = .done () t ∧ CompressedFrom s t := by
  have hlen := srcRest_length s
  obtain ⟨s1, hs1⟩ : ∃ s1, s1 = (((clearBuffers (srcMark s)).setFreq (countsOf (srcRest s))).setPos
      (s.src.pos + srcLeft s)).setLen (BitVec.ofNat 32 (srcLeft s)) := ⟨_, rfl⟩
  have e1 : opCmp s = compressByK s1 := by
    rw [hs1, opCmp, opFscan_ok (s := clearBuffers (srcMark s)) h, bind_done]; rfl
  have hf : s1.freq = countsOf (srcRest s) := by
    rw [hs1, State.setLen_freq, State.setPos_freq, State.setFreq_freq]
  have hfields : s1.snk = s.snk ∧ s1.len = BitVec.ofNat 32 (srcLeft s) ∧
      s1.src = { s.src with pos := s.src.pos + srcLeft s, mark := s.src.pos } ∧
      s1.tree = s.tree ∧ s1.code = s.code := by simp [hs1, clearBuffers]
  obtain ⟨hsnk, hslen, hsrc, htree, hcode⟩ := hfields
  have hbufs : (s1.wbuf = 0 ∧ s1.wcnt = 0) ∧ s1.rbuf = 0 ∧ s1.rcnt = 0 := by simp [hs1, clearBuffers]
  have hkept : s1.arg = s.arg ∧ s1.res = s.res ∧ s1.run = s.run ∧ s1.eos = s.eos ∧ s1.err = s.err ∧
      s1.einfo = s.einfo ∧ s1.script = s.script ∧ s1.answers = s.answers := by simp [hs1, clearBuffers]
  clear hs1
  match hS : srcRest s with
  | [] =>
    have hp : present s1.freq = [] := by rw [hf, hS, present_nil]
    have hk : kCount (countsOf (srcRest s)) < 2 := by rw [hS, kCount, present_nil]; decide
    exact ⟨s1, by rw [e1, compressByK, hp], by rw [hS, hsnk]; exact (List.append_nil _).symm, hslen, hf, hsrc,
      hbufs.1, hbufs.2, hkept, .inl ⟨hk, htree, hcode⟩⟩
  | v :: rest =>
    have hle : (v :: rest).length ≤ Config.maxLen := by rw [← hS, hlen]; exact h
    cases hall : rest.all (fun x => x == v) with
    | true =>
      have hpr := present_single hle hall
      have hp : present s1.freq = [v] := by rw [hf, hS, hpr]
      have hk : kCount (countsOf (srcRest s)) < 2 := by rw [hS, kCount, hpr, List.length_singleton]; decide
      have hcont : container (srcRest s) = [Config.tagR] ++ le32 (BitVec.ofNat 32 (srcLeft s)) ++ [v] := by
        rw [hS]; simp only [container, hall, if_true]; rw [← hlen, hS]
      have hren : opRenc v (snkWrite Config.tagR s1) = s1.setSnk (s.snk ++ container (srcRest s)) := by
        rw [opRenc, snkWriteAll_eq, hcont, snkWrite_len, hslen]
        simp [snkWrite, State.setSnk, hsnk]
      refine ⟨_, by rw [e1, compressByK, hp], ?_⟩
      rw [hren]
      exact ⟨rfl, hslen, hf, hsrc, hbufs.1, hbufs.2, hkept, .inl ⟨hk, htree, hcode⟩⟩
    | false =>
      obtain ⟨a, b, l, hp⟩ := present_many hle hall
      have hk : 2 ≤ kCount (countsOf (srcRest s)) := by rw [hS, kCount, hp]; simp
      obtain ⟨T, hT⟩ := buildTree_isSome hk
      have hrew : srcRest (srcRewind s1) = srcRest s := by simp [srcRest, hsrc]
      obtain ⟨t, h1, h2, h3⟩ := compressHuffman_spec hf hT (by rw [hlen]; exact h) (by rw [hslen, hlen]) hrew hbufs.1
      have hcont : container (srcRest s) = huffmanContainer (srcRest s) T := by
        rw [hS] at hT ⊢; simp only [container, hall, hT]; rfl
      rw [hsnk, ← hcont] at h2
      have hpos : s1.src.mark + (srcRest s).length = s.src.pos + srcLeft s := by rw [hsrc, hlen]
      rw [hpos, h2] at h3
      refine ⟨t, by rw [e1, compressByK, hf, hS, hp]; exact h1, ?_⟩
      subst h3
      exact ⟨by simp, by simp [hslen], by simp [hf], by simp [hsrc], by simp, by simp [hbufs.2], by simp [hkept],
        .inr ⟨T, hT, by simp, by simp⟩⟩

-- ## DCMP

/-- GETLEN on LE32(n) (40_control_stream R98). -/
theorem opGetlen_le32 {s : State} {n : Word} {rest : List Byte} (h : srcRest s = le32 n ++ rest) :
    opGetlen s = .done () ((s.setPos (s.src.pos + 4)).setLen n) := by
  rw [opGetlen, readInt_le32 n rest s h, bind_done]
  simp

/-- RDEC on a run record (45_rle R182, R183). -/
theorem opRdec_record {s : State} {n : Word} {v : Byte} {rest : List Byte} (h : srcRest s = le32 n ++ [v] ++ rest) :
    opRdec s = .done () (((s.setPos (s.src.pos + 5)).setLen n).setSnk (s.snk ++ List.replicate n.toNat v)) := by
  have h' : srcRest s = le32 n ++ (v :: rest) := by rw [h]; simp
  have h5 : srcRest ((s.setPos (s.src.pos + 4)).setLen n) = v :: rest := srcRest_drop (xs := le32 n) h'
  rw [opRdec, opGetlen_le32 h', bind_done, srcReadOr_cons _ h5, bind_done, snkWriteAll_eq]
  rfl

/-- TREAD on SerTree(T) for a valid tree (43_tree R150, R159). -/
theorem opTread_serTree {s : State} {T : Tree} {rest : List Byte} (hv : T.valid = true)
    (h : srcRest s = serTree T ++ rest) :
    opTread s = .done () ((s.setPos (s.src.pos + (serTree T).length)).setTree (some T)) := by
  have hn : T.isNode = true ∧ T.nodes ≤ Config.nodeCap := by
    simpa [Tree.valid] using hv
  have hr : readNode (Config.nodeCap + 1) 0 (s.setTree none) =
      .done (some T, 0 + T.nodes) ((s.setTree none).setPos (s.src.pos + (serTree T).length)) :=
    readNode_serTree T _ 0 (s.setTree none) rest h (by omega) (by omega)
  rw [opTread, hr, bind_done]
  cases T with
  | leaf v => simp [Tree.isNode] at hn
  | node l r => rfl

theorem unreadBits_fresh {s : State} (h : s.rcnt = 0) : unreadBits s = unpack (srcRest s) := by
  have : heldBits s = [] := by unfold heldBits; rw [h]; rfl
  rw [unreadBits, this, List.nil_append]

/-- The bits of a payload, read from the bytes the final flush left. -/
theorem payload_unpacked (p : List Bit) (rest : List Byte) :
    ∃ more, unpack (pack p ++ flushByte p ++ rest) =
      p ++ (List.replicate (8 * ((p.length + 7) / 8) - p.length) false ++ more) := by
  rw [unpack_append, unpack_append, unpack_pack]
  exact ⟨_, by rw [List.append_assoc, List.append_assoc]⟩

/-- What DCMP reaches on a container of bytes that CMP could have written (R194, R197, R199). -/
structure DecompressedTo (s t : State) (bytes : List Byte) : Prop where
  snk : t.snk = s.snk ++ bytes
  data : t.src.data = s.src.data
  mark : t.src.mark = s.src.mark
  writer : t.wbuf = 0 ∧ t.wcnt = 0
  kept : t.arg = s.arg ∧ t.run = s.run ∧ t.err = s.err ∧ t.einfo = s.einfo ∧ t.freq = s.freq ∧
    t.script = s.script ∧ t.answers = s.answers
  outcome : (bytes = [] ∧ t = endOfStream (clearBuffers s)) ∨
    (bytes.toFinset.card = 1 ∧ t.eos = false ∧ t.res = resOfByte Config.tagR ∧
      t.len = BitVec.ofNat 32 bytes.length ∧ t.tree = s.tree ∧ t.code = s.code ∧ t.src.pos = s.src.pos + 6 ∧
      t.rbuf = 0 ∧ t.rcnt = 0) ∨
    (2 ≤ bytes.toFinset.card ∧ t.eos = false ∧ t.res = resOfByte Config.tagH ∧
      t.len = BitVec.ofNat 32 bytes.length ∧ ∃ T, buildTree (countsOf bytes) = some T ∧ t.tree = some T ∧
        t.code = none ∧ t.src.pos =
          s.src.pos + 1 + 4 + (serTree T).length + ((payloadBits (codeTable T) bytes).length + 7) / 8 ∧
        t.rbuf = 0 ∧
        t.rcnt.toNat + (payloadBits (codeTable T) bytes).length = 8 * (((payloadBits (codeTable T) bytes).length + 7) / 8))

/-- One byte value, or at least two, by the test the container makes (R193). -/
theorem card_one {v : Byte} {vs : List Byte} (h : vs.all (fun x => x == v) = true) : (v :: vs).toFinset.card = 1 := by
  rw [Finset.card_eq_one]
  refine ⟨v, ?_⟩
  ext x
  simp only [List.mem_toFinset, List.mem_cons, Finset.mem_singleton]
  constructor
  · rintro (rfl | hx)
    · rfl
    · simpa using List.all_eq_true.1 h x hx
  · exact .inl

theorem card_many {v : Byte} {vs : List Byte} (h : vs.all (fun x => x == v) = false) : 2 ≤ (v :: vs).toFinset.card := by
  obtain ⟨x, hx, hne⟩ := List.all_eq_false.1 h
  refine Finset.one_lt_card.2 ⟨x, ?_, v, ?_, ?_⟩
  · simp [hx]
  · simp
  · simpa using hne

/-- GETB with a byte left (40_control_stream R96). -/
theorem opGetb_cons {s : State} {b : Byte} {rest : List Byte} (h : srcRest s = b :: rest) :
    opGetb s = gotData (resOfByte b) (s.setPos (s.src.pos + 1)) := by rw [opGetb, srcRead_cons h]

/-- GETB at the end of the source (40_control_stream R96). -/
theorem opGetb_nil {s : State} (h : srcRest s = []) : opGetb s = endOfStream s := by rw [opGetb, srcRead_nil h]

/-- The tag 'R' (R194). -/
theorem decompressByTag_run {s : State} (he : s.eos = false) (hr : s.res = resOfByte Config.tagR) :
    decompressByTag s = opRdec s := by
  rw [decompressByTag, he, if_neg (by simp), if_pos hr]

/-- The tag 'H' (R194). -/
theorem decompressByTag_huffman {s : State} (he : s.eos = false) (hr : s.res = resOfByte Config.tagH) :
    decompressByTag s = decompressHuffman s := by
  rw [decompressByTag, he, if_neg (by simp), if_neg (by rw [hr]; decide), if_pos hr]

/-- DCMP on the container of a byte list, whatever follows it in the source (R194, R197, R199). -/
theorem opDcmp_container {s : State} {bytes rest : List Byte} (hl : bytes.length ≤ Config.maxLen)
    (h : srcRest s = container bytes ++ rest) (hrest : bytes = [] → rest = []) :
    ∃ t, opDcmp s = .done () t ∧ DecompressedTo s t bytes := by
  have hr0 : srcRest (clearBuffers s) = container bytes ++ rest := h
  match bytes, hl with
  | [], _ =>
    rw [hrest rfl] at hr0
    refine ⟨endOfStream (clearBuffers s), ?_, ?_⟩
    · rw [opDcmp, opGetb_nil hr0]; rfl
    · exact ⟨(List.append_nil _).symm, rfl, rfl, ⟨rfl, rfl⟩, ⟨rfl, rfl, rfl, rfl, rfl, rfl, rfl⟩, .inl ⟨rfl, rfl⟩⟩
  | v :: vs, hl =>
    have hn : (BitVec.ofNat 32 (v :: vs).length).toNat = (v :: vs).length := by
      rw [BitVec.toNat_ofNat]; unfold Config.maxLen at hl; omega
    cases hall : vs.all (fun x => x == v) with
    | true =>
      have hc : container (v :: vs) = Config.tagR :: (le32 (BitVec.ofNat 32 (v :: vs).length) ++ [v]) := by
        simp only [container, hall, if_true]; rfl
      rw [hc] at hr0
      obtain ⟨s1, hs1⟩ : ∃ s1, s1 = gotData (resOfByte Config.tagR) ((clearBuffers s).setPos (s.src.pos + 1)) := ⟨_, rfl⟩
      have e1 : opGetb (clearBuffers s) = s1 := (opGetb_cons hr0).trans hs1.symm
      have e2 : opDcmp s = opRdec s1 := by
        rw [opDcmp, e1]; exact decompressByTag_run (by simp [hs1, gotData]) (by simp [hs1, gotData])
      have hr1 : srcRest s1 = le32 (BitVec.ofNat 32 (v :: vs).length) ++ [v] ++ rest := by
        rw [hs1]; exact srcRest_setPos hr0
      have hrep : List.replicate (v :: vs).length v = v :: vs := by
        symm
        refine List.eq_replicate_of_mem fun x hx => ?_
        rcases List.mem_cons.1 hx with rfl | hx
        · rfl
        · simpa using List.all_eq_true.1 hall x hx
      have h3 := opRdec_record hr1
      rw [hn, hrep] at h3
      refine ⟨_, e2.trans h3, ?_⟩
      exact ⟨by simp [hs1, gotData, clearBuffers], by simp [hs1, gotData, clearBuffers],
        by simp [hs1, gotData, clearBuffers], by simp [hs1, gotData, clearBuffers], by simp [hs1, gotData, clearBuffers],
        .inr (.inl ⟨card_one hall, by simp [hs1, gotData], by simp [hs1, gotData], by simp [hs1],
          by simp [hs1, gotData, clearBuffers], by simp [hs1, gotData, clearBuffers],
          by simp [hs1, gotData, Nat.add_assoc], by simp [hs1, gotData, clearBuffers],
          by simp [hs1, gotData, clearBuffers]⟩)⟩
    | false =>
      obtain ⟨a, b, l, hp⟩ := present_many hl hall
      obtain ⟨T, hT⟩ := buildTree_isSome (f := countsOf (v :: vs)) (by rw [kCount, hp]; simp)
      have hc : container (v :: vs) = huffmanContainer (v :: vs) T := by
        simp only [container, hall, hT]; rfl
      let bits := payloadBits (codeTable T) (v :: vs)
      have hr0' : srcRest (clearBuffers s) = Config.tagH :: (le32 (BitVec.ofNat 32 (v :: vs).length) ++
          (serTree T ++ (pack bits ++ flushByte bits ++ rest))) := by
        rw [hr0, hc]; simp [huffmanContainer, bits]
      obtain ⟨s1, hs1⟩ : ∃ s1, s1 = gotData (resOfByte Config.tagH) ((clearBuffers s).setPos (s.src.pos + 1)) := ⟨_, rfl⟩
      have e1 : opGetb (clearBuffers s) = s1 := (opGetb_cons hr0').trans hs1.symm
      have e0 : opDcmp s = decompressHuffman s1 := by
        rw [opDcmp, e1]; exact decompressByTag_huffman (by simp [hs1, gotData]) (by simp [hs1, gotData])
      have hr1 : srcRest s1 = le32 (BitVec.ofNat 32 (v :: vs).length) ++
          (serTree T ++ (pack bits ++ flushByte bits ++ rest)) := by rw [hs1]; exact srcRest_setPos hr0'
      obtain ⟨s2, hs2⟩ : ∃ s2, s2 = (s1.setPos (s1.src.pos + 4)).setLen (BitVec.ofNat 32 (v :: vs).length) := ⟨_, rfl⟩
      have e2 : opGetlen s1 = .done () s2 := (opGetlen_le32 hr1).trans (by rw [hs2])
      have hr2 : srcRest s2 = serTree T ++ (pack bits ++ flushByte bits ++ rest) := by
        rw [hs2]; exact srcRest_drop (xs := le32 (BitVec.ofNat 32 (v :: vs).length)) hr1
      obtain ⟨s3, hs3⟩ : ∃ s3, s3 = (s2.setPos (s2.src.pos + (serTree T).length)).setTree (some T) := ⟨_, rfl⟩
      have e3 : opTread s2 = .done () s3 := (opTread_serTree (buildTree_valid hT).1 hr2).trans (by rw [hs3])
      have hr3 : srcRest s3 = pack bits ++ flushByte bits ++ rest := by rw [hs3]; exact srcRest_drop hr2
      have h3 : s3.rcnt = 0 ∧ s3.rbuf = 0 ∧ s3.wbuf = 0 ∧ s3.wcnt = 0 ∧ s3.snk = s.snk ∧ s3.src.data = s.src.data ∧
          s3.src.mark = s.src.mark := by
        simp [hs3, hs2, hs1, gotData, clearBuffers]
      have hk3 : s3.arg = s.arg ∧ s3.run = s.run ∧ s3.err = s.err ∧ s3.einfo = s.einfo ∧ s3.freq = s.freq ∧
          s3.script = s.script ∧ s3.answers = s.answers := by
        simp [hs3, hs2, hs1, gotData, clearBuffers]
      have hlen3 : s3.len.toNat = (v :: vs).length := by rw [← hn, hs3, State.setTree_len, State.setPos_len, hs2, State.setLen_len]
      have ht3 : s3.tree = some T := by rw [hs3, State.setTree_tree]
      have hc3 : s3.eos = false ∧ s3.res = resOfByte Config.tagH ∧ s3.code = none ∧
          s3.src.pos = s.src.pos + 1 + 4 + (serTree T).length := by simp [hs3, hs2, hs1, gotData]
      have hln3 : s3.len = BitVec.ofNat 32 (v :: vs).length := by rw [hs3, State.setTree_len, State.setPos_len, hs2, State.setLen_len]
      clear hs3 hs2 hs1
      obtain ⟨more, hm⟩ := payload_unpacked bits rest
      have hb : unreadBits s3 = bits ++ (List.replicate (8 * ((bits.length + 7) / 8) - bits.length) false ++ more) := by rw [unreadBits_fresh h3.1, hr3, hm]
      have hro : s3.ReaderOk := ⟨by rw [h3.1]; decide, by rw [h3.2.1]; simp⟩
      obtain ⟨t, d1, d2, d3, d4, d5, d6⟩ := decodeSyms_run (t := T) (v :: vs) s3 _ hro
        (fun x hx => (buildTree_some hT).1.mem_iff.2 ((mem_present_countsOf hl).2 hx)) hb
      refine ⟨t, ?_, ?_⟩
      · have e4 : opHdec s3 = decodeSyms T s3.len.toNat s3 := by rw [opHdec, requireTree, ht3]; rfl
        rw [e0, decompressHuffman, e2, bind_done, e3, bind_done, e4, hlen3, d1]
      · have hpad := consumed_padding d4 h3.1 d6 d3
        unfold decoderFrame at d5
        rw [h3.2.2.2.2.1] at d2
        rw [d5]
        have hp := consumed_pos hro.1 d6
        have h0 : s3.rcnt.toNat = 0 := by rw [h3.1]; rfl
        rw [h0, Nat.sub_zero, hc3.2.2.2] at hp
        refine ⟨by simpa using d2, by simp [h3], by simp [h3], by simp [h3], by simp [hk3], .inr (.inr ⟨card_many hall,
          by simp [hc3], by simp [hc3], ?_, T, hT, by simp [ht3], by simp [hc3], by simpa using hp,
          by simpa using hpad⟩)⟩
        simp only [State.setReader_len, State.setSnk_len, State.setPos_len]
        exact hln3

end Sys2Proof.Machine
end

