-- ==== Sys2Proof/Laws/Counts.lean ====
section
/-! SUPPORT. Counting: the entries of a table of counts sum to the number of bytes counted, and the byte values that pass
a test as a subset of 0..255. -/

namespace Sys2Proof.Machine

/-- One summand of a range is 1 and the rest are 0. -/
theorem one_sum : ∀ (n : Nat) {x : Nat}, x < n → ((List.range n).map fun i => if i = x then 1 else 0).sum = 1
  | n + 1, x, h => by
    rw [List.range_succ, List.map_append, List.sum_append, List.map_singleton, List.sum_singleton]
    by_cases e : n = x
    · subst e
      rw [if_pos rfl, List.sum_eq_zero]
      intro y hy
      obtain ⟨i, hi, rfl⟩ := List.mem_map.1 hy
      exact if_neg (List.mem_range.1 hi).ne
    · rw [if_neg e, one_sum n (by omega)]

/-- The counts of the numbers below n in a list of them sum to its length. -/
theorem count_sum (n : Nat) : ∀ xs : List Nat, (∀ x ∈ xs, x < n) →
    ((List.range n).map fun i => xs.count i).sum = xs.length
  | [], _ => by simp
  | x :: xs, h => by
    have hx := h x List.mem_cons_self
    have ih := count_sum n xs fun y hy => h y (List.mem_cons_of_mem _ hy)
    have e : ((List.range n).map fun i => (x :: xs).count i) = ((List.range n).map fun i => xs.count i + if i = x then 1 else 0) := by
      apply List.map_congr_left
      intro i _
      rw [List.count_cons]
      congr 1
      by_cases hh : i = x
      · subst hh; simp
      · simp [hh, Ne.symm hh]
    rw [e, List.sum_map_add, ih, List.length_cons]
    congr 1
    exact one_sum n hx

theorem count_map_toNat (xs : List Byte) (v : Byte) : (xs.map BitVec.toNat).count v.toNat = xs.count v :=
  List.count_map_of_injective xs BitVec.toNat (fun _ _ h => BitVec.eq_of_toNat_eq h) v

/-- After a scan, Σ FREQ[v] is the number of bytes scanned (42_frequency R130). -/
theorem counts_total (f : FreqTable) (xs : List Byte) (h : ∀ v, (tget f v).toNat = xs.count v) :
    (f.toList.map BitVec.toNat).sum = xs.length := by
  rw [← List.length_map (f := BitVec.toNat) (as := xs), ← count_sum 256 (xs.map BitVec.toNat) (by intro x hx; obtain ⟨y, -, rfl⟩ := List.mem_map.1 hx; exact y.isLt)]
  congr 1
  apply List.ext_getElem
  · rw [List.length_map, List.length_map, List.length_range, Vector.length_toList]
  · intro i h1 h2
    rw [List.length_map, List.length_range] at h2
    have := h (BitVec.ofNat 8 i)
    rw [← count_map_toNat, BitVec.toNat_ofNat, Nat.mod_eq_of_lt (by exact h2)] at this
    rw [List.getElem_map, List.getElem_map, List.getElem_range, ← this, tget]
    congr 1
    rw [Vector.getElem_toList]
    congr 1
    rw [BitVec.toNat_ofNat, Nat.mod_eq_of_lt (by exact h2)]

/-- The byte values that pass a test, counted as a subset of 0..255 (10_state R18). -/
theorem filter_allBytes_card (p : Byte → Bool) :
    (allBytes.filter p).length = (Finset.univ.filter fun v : Fin 256 => p (BitVec.ofFin v) = true).card := by
  have hn : (allBytes.filter p).Nodup := List.Nodup.filter _ (by decide +kernel)
  rw [← List.toFinset_card_of_nodup hn]
  apply Finset.card_bij fun b _ => b.toFin
  · intro a ha
    rw [List.mem_toFinset, List.mem_filter] at ha
    simp [ha.2]
  · intro a _ b _ h
    exact BitVec.toFin_inj.1 h
  · intro v hv
    refine ⟨BitVec.ofFin v, ?_, rfl⟩
    rw [List.mem_toFinset, List.mem_filter]
    have hm : ∀ v : Fin 256, BitVec.ofFin v ∈ allBytes := by decide +kernel
    exact ⟨hm v, by simpa using hv⟩

end Sys2Proof.Machine
end

