-- ==== Sys2Proof/Laws/Frames.lean ====
section
/-! SUPPORT. What each loop and reader changes, whether it ends normally or at a fault. -/

namespace Sys2Proof.Machine

-- ## Reading bytes

/-- Only SRC.pos and the fault fields differ. -/
def readFrame (s t : State) : Prop := t = mayFault (atPos s t.src.pos) t

theorem readFrame_refl (s : State) : readFrame s s := rfl

theorem readFrame_trans {s t u : State} (h1 : readFrame s t) (h2 : readFrame t u) : readFrame s u := by
  unfold readFrame at *
  rw [h2, h1]
  rfl

theorem readFrame_setPos (s : State) (p : Nat) : readFrame s (s.setPos p) := rfl

theorem readFrame_enterFault (e : FaultCode) (w : Word) (s : State) : readFrame s (enterFault e w s) := rfl

theorem readFrame_srcReadOr (info : Word) (s : State) : readFrame s (srcReadOr info s).final := by
  rcases srcRead_cases s with ⟨h, -⟩ | ⟨b, rest, -, h, -⟩
  · simp only [srcReadOr, h]
    exact readFrame_enterFault _ _ _
  · simp only [srcReadOr, h]
    exact readFrame_setPos _ _

/-- A sequence of two pieces keeps a reflexive and transitive frame. -/
theorem bind_frame {α β : Type} {F : State → State → Prop} (ht : ∀ {s t u}, F s t → F t u → F s u) {s : State}
    {r : CmdResult α} {k : α → State → CmdResult β} (hr : F s r.final) (hk : ∀ a t, F t (k a t).final) :
    F s (r.bind k).final := by
  cases r with
  | done a t => exact ht hr (hk a t)
  | faulted t => exact hr

theorem readFrame_readIntFrom : ∀ (left i n : Nat) (s : State), readFrame s (readIntFrom left i n s).final
  | 0, _, _, s => readFrame_refl s
  | left + 1, i, n, s => by
    rw [readIntFrom]
    exact bind_frame (F := readFrame) readFrame_trans (readFrame_srcReadOr _ s) fun x t => readFrame_readIntFrom left (i + 1) _ t

theorem readFrame_joinChildren (b0 : Byte) (l r : Option Tree) (c : Nat) (s : State) :
    readFrame s (joinChildren b0 l r c s).final := by
  cases l <;> cases r <;> first | exact readFrame_refl s | exact readFrame_enterFault _ _ s

theorem readFrame_readNode : ∀ (depth c : Nat) (s : State), readFrame s (readNode depth c s).final
  | 0, _, s => readFrame_enterFault _ _ s
  | depth + 1, c, s => by
    rw [readNode]
    refine bind_frame (F := readFrame) readFrame_trans (readFrame_srcReadOr _ s) fun b0 t => ?_
    refine bind_frame (F := readFrame) readFrame_trans (readFrame_srcReadOr _ t) fun b1 u => ?_
    split
    · exact readFrame_refl u
    · split
      · exact readFrame_enterFault _ _ u
      · refine bind_frame (F := readFrame) readFrame_trans (readFrame_readNode depth _ u) fun l v => ?_
        exact bind_frame (F := readFrame) readFrame_trans (readFrame_readNode depth _ v) fun r w => readFrame_joinChildren _ _ _ _ w

-- ## The scan

/-- Only SRC.pos, FREQ and the fault fields differ. -/
def scanFrame (s t : State) : Prop := t = { mayFault (atPos s t.src.pos) t with freq := t.freq }

theorem scanFrame_trans {s t u : State} (h1 : scanFrame s t) (h2 : scanFrame t u) : scanFrame s u := by
  unfold scanFrame at *
  rw [h2, h1]
  rfl

theorem scanFrame_scanFrom : ∀ (left n : Nat) (s : State), scanFrame s (scanFrom left n s).final
  | 0, _, _ => rfl
  | left + 1, n, s => by
    rw [scanFrom]
    rcases srcRead_cases s with ⟨h, -⟩ | ⟨b, rest, -, h, -⟩
    · rw [h]; rfl
    · rw [h]
      dsimp only
      split
      · rfl
      · exact scanFrame_trans (t := countByte b (s.setPos (s.src.pos + 1))) rfl (scanFrame_scanFrom left _ _)

-- ## Encoding

/-- Only SRC.pos, the bit writer, the sink and the fault fields differ. -/
def encodeFrame (s t : State) : Prop :=
  t = { mayFault (atPos s t.src.pos) t with wbuf := t.wbuf, wcnt := t.wcnt, snk := t.snk }

theorem encodeFrame_trans {s t u : State} (h1 : encodeFrame s t) (h2 : encodeFrame t u) : encodeFrame s u := by
  unfold encodeFrame at *
  rw [h2, h1]
  rfl

theorem encodeFrame_putBits (p : List Bit) (s : State) : encodeFrame s (putBits p s) := by
  rw [putBits_frame p s]
  rfl

theorem encodeFrame_encodeFrom (c : CodeTable) : ∀ (left : Nat) (s : State), encodeFrame s (encodeFrom c left s).final
  | 0, _ => rfl
  | left + 1, s => by
    rw [encodeFrom]
    rcases srcRead_cases s with ⟨h, -⟩ | ⟨b, rest, -, h, -⟩
    · rw [h]; rfl
    · rw [h]
      dsimp only
      refine encodeFrame_trans (t := s.setPos (s.src.pos + 1)) rfl ?_
      cases hc : tget c b with
      | none => simp only [requireCodeOf, hc]; rfl
      | some p =>
        simp only [requireCodeOf, hc, bind_done]
        exact encodeFrame_trans (encodeFrame_putBits p _) (encodeFrame_encodeFrom c left _)

-- ## Decoding

/-- Only SRC.pos, the bit reader, the sink and the fault fields differ. -/
def decodeFrame (s t : State) : Prop :=
  t = { mayFault (atPos s t.src.pos) t with rbuf := t.rbuf, rcnt := t.rcnt, snk := t.snk }

theorem decodeFrame_trans {s t u : State} (h1 : decodeFrame s t) (h2 : decodeFrame t u) : decodeFrame s u := by
  unfold decodeFrame at *
  rw [h2, h1]
  rfl

/-- Decoding one symbol writes no byte. -/
theorem decodeSym_frame : ∀ (t : Tree) (s : State),
    (decodeSym t s).final.snk = s.snk ∧ decodeFrame s (decodeSym t s).final
  | .leaf _, _ => ⟨rfl, rfl⟩
  | .node l r, s => by
    rw [decodeSym]
    cases h : getBit s with
    | none => exact ⟨rfl, rfl⟩
    | some p =>
      obtain ⟨b, s'⟩ := p
      have hf := getBit_frame h
      have h1 : s'.snk = s.snk ∧ decodeFrame s s' := by rw [hf]; exact ⟨rfl, rfl⟩
      dsimp only
      split
      · have h2 := decodeSym_frame r s'
        exact ⟨h2.1.trans h1.1, decodeFrame_trans h1.2 h2.2⟩
      · have h2 := decodeSym_frame l s'
        exact ⟨h2.1.trans h1.1, decodeFrame_trans h1.2 h2.2⟩

theorem decodeFrame_decodeSyms (t : Tree) : ∀ (left : Nat) (s : State), decodeFrame s (decodeSyms t left s).final
  | 0, _ => rfl
  | left + 1, s => by
    rw [decodeSyms]
    exact bind_frame (F := decodeFrame) decodeFrame_trans (decodeSym_frame t s).2 fun v u =>
      decodeFrame_trans (s := u) (t := snkWrite v u) rfl (decodeFrame_decodeSyms t left _)

end Sys2Proof.Machine
end

