-- ==== Sys2Proof/Laws/Host.lean ====
section
/-! SUPPORT. What a step does with the host's next action, and the halves of a 64-bit register. -/

namespace Sys2Proof.Machine

/-- While no command runs, a step performs the host's next action. -/
theorem step_cons {s : State} {a : HostAction} {rest : List HostAction} (h : s.script = a :: rest)
    (hr : s.run ≠ .busy) : step s = hostEffect a { s with script := rest } := by
  rw [step, nextMove, h]
  exact if_neg fun e => hr e.1

/-- In BUSY a step performs an action the spec admits, and has no move for the others. -/
theorem step_busy {s : State} {a : HostAction} {rest : List HostAction} (h : s.script = a :: rest)
    (hr : s.run = .busy) :
    step s = if allowedWhileBusy a = false then .fault .hostActsWhileBusy
      else hostEffect a { s with script := rest } := by
  rw [step, nextMove, h]
  show (if s.run = .busy ∧ _ then _ else hostEffect a (s.setScript rest)) = _
  simp only [hr, true_and]
  rw [← hr]
  rfl

/-- With no host action to come, a step changes nothing. -/
theorem step_nil {s : State} (h : s.script = []) : step s = .next s := by rw [step, nextMove, h]

/-- In IDLE a legal word runs its command. -/
theorem writeCmd_idle {s : State} {w : Word} {i : Instr} (hr : s.run = .idle) (hd : decode w = .command i) :
    writeCmd w s = exec i s := by simp only [writeCmd, hr, acceptIdle, hd]

/-- In IDLE an illegal word faults with ERR_ILLCMD and the word. -/
theorem writeCmd_illegal {s : State} {w : Word} {why : IllegalWord} (hr : s.run = .idle) (hd : decode w = .illegal why) :
    writeCmd w s = .next (enterFault .illcmd w s) := by simp only [writeCmd, hr, acceptIdle, hd]

/-- In FAULT every word but SRST is refused. -/
theorem writeCmd_refused {s : State} {w : Word} (hr : s.run = .fault) (hw : w ≠ srstWord) : writeCmd w s = .next s := by
  simp only [writeCmd, hr]
  exact if_neg hw

/-- No CSR shows the host's own list. -/
@[simp] theorem csrValue_script (c : Csr) (s : State) (l : List HostAction) :
    csrValue c { s with script := l } = csrValue c s := by cases c <;> rfl

/-- A 64-bit register is its two halves. -/
theorem halves_append (a : Dword) : a.extractLsb' 32 32 ++ a.extractLsb' 0 32 = a := by
  apply BitVec.eq_of_getLsbD_eq
  intro i hi
  rw [BitVec.getLsbD_append]
  split
  · rename_i h
    simp [h]
  · rename_i h
    have e : 32 + (i - 32) = i := by omega
    have hd : decide (i - 32 < 32) = true := by simp; omega
    simp only [BitVec.getLsbD_extractLsb', e, hd, Bool.true_and]

theorem low_of_append (a b : Word) : (a ++ b : Dword).extractLsb' 0 32 = b := by
  apply BitVec.eq_of_getLsbD_eq
  intro i hi
  rw [BitVec.getLsbD_extractLsb', BitVec.getLsbD_append]
  simp [hi]

theorem high_of_append (a b : Word) : (a ++ b : Dword).extractLsb' 32 32 = a := by
  apply BitVec.eq_of_getLsbD_eq
  intro i hi
  rw [BitVec.getLsbD_extractLsb', BitVec.getLsbD_append]
  simp [hi]

end Sys2Proof.Machine
end

