-- ==== Sys2Proof/Laws/Invariant.lean ====
section
/-! SUPPORT. The invariant of every reachable state (10_state R32): every update and every shared operation keeps it. -/

namespace Sys2Proof.Machine

-- ## Updates

theorem inv_setArg {s : State} (v : Dword) (h : s.Inv) : (s.setArg v).Inv := h
theorem inv_setRes {s : State} (v : Dword) (h : s.Inv) : (s.setRes v).Inv := h
theorem inv_setLen {s : State} (v : Word) (h : s.Inv) : (s.setLen v).Inv := h
theorem inv_setEos {s : State} (b : Bool) (h : s.Inv) : (s.setEos b).Inv := h
theorem inv_setFreq {s : State} (f : FreqTable) (h : s.Inv) : (s.setFreq f).Inv := h
theorem inv_setSnk {s : State} (l : List Byte) (h : s.Inv) : (s.setSnk l).Inv := h
theorem inv_setScript {s : State} (l : List HostAction) (h : s.Inv) : (s.setScript l).Inv := h
theorem inv_answer {s : State} (a : HostAnswer) (h : s.Inv) : (s.answer a).Inv := h
theorem inv_snkWrite {s : State} (b : Byte) (h : s.Inv) : (snkWrite b s).Inv := h

theorem inv_setPos {s : State} {p : Nat} (h : s.Inv) (hp : p ≤ s.src.data.length) : (s.setPos p).Inv :=
  ⟨h.1, h.2.1, h.2.2.1, h.2.2.2.1, h.2.2.2.2.1, hp, h.2.2.2.2.2.2⟩

theorem inv_srcMark {s : State} (h : s.Inv) : (srcMark s).Inv :=
  ⟨h.1, h.2.1, h.2.2.1, h.2.2.2.1, h.2.2.2.2.1, h.2.2.2.2.2.1, h.2.2.2.2.2.1⟩

theorem inv_srcRewind {s : State} (h : s.Inv) : (srcRewind s).Inv := inv_setPos h h.2.2.2.2.2.2

theorem inv_loadSource {s : State} (l : List Byte) (h : s.Inv) : (s.setSrc { data := l, pos := 0, mark := 0 }).Inv :=
  ⟨h.1, h.2.1, h.2.2.1, h.2.2.2.1, h.2.2.2.2.1, Nat.zero_le _, Nat.zero_le _⟩

theorem inv_setWriter {s : State} {b : Byte} {n : BitVec 4} (h : s.Inv) (hn : n ≤ 7 ∧ b >>> n.toNat = 0) :
    (s.setWriter b n).Inv := ⟨h.1, hn, h.2.2⟩

theorem inv_setReader {s : State} {b : Byte} {n : BitVec 4} (h : s.Inv) (hn : n ≤ 8 ∧ b >>> n.toNat = 0) :
    (s.setReader b n).Inv := ⟨h.1, h.2.1, hn, h.2.2.2⟩

theorem inv_writerInit {s : State} (h : s.Inv) : (writerInit s).Inv := inv_setWriter h ⟨by decide, rfl⟩

theorem inv_readerInit {s : State} (h : s.Inv) : (readerInit s).Inv := inv_setReader h ⟨by decide, rfl⟩

theorem inv_setTree {s : State} {t : Option Tree} (h : s.Inv) (ht : ∀ u ∈ t, u.valid = true) : (s.setTree t).Inv :=
  ⟨h.1, h.2.1, h.2.2.1, ht, fun _ hc => by simp at hc, h.2.2.2.2.2⟩

theorem inv_setCode {s : State} {t : Tree} (h : s.Inv) (ht : s.tree = some t) : (s.setCode (codeTable t)).Inv := by
  refine ⟨h.1, h.2.1, h.2.2.1, h.2.2.2.1, fun c hc => ?_, h.2.2.2.2.2⟩
  have : codeTable t = c := Option.some.inj hc
  show s.tree.map codeTable = some c
  rw [ht, ← this]; rfl

theorem number_ne_zero (e : FaultCode) : e.number ≠ 0 ∧ e.number ≤ 9 := by cases e <;> decide

/-- Fault entry keeps the invariant: STATE = FAULT and ERR ≠ 0 (R14, R212). -/
theorem inv_enterFault {s : State} (e : FaultCode) (w : Word) (h : s.Inv) : (enterFault e w s).Inv := by
  have hn := number_ne_zero e
  refine ⟨⟨by simp, ?_, by simp, hn.2⟩, h.2⟩
  simp only [enterFault_run, enterFault_err, true_iff]
  exact hn.1

/-- Both resets establish it, whatever the block held (R30). -/
theorem inv_hardReset {s : State} (h : s.SourceOk) : (hardReset s).Inv :=
  ⟨⟨by simp [State.reset], by simp [State.reset], by simp [State.reset],
    (by decide : (0 : Byte) ≤ 9)⟩, ⟨(by decide : (0 : BitVec 4) ≤ 7), rfl⟩, ⟨(by decide : (0 : BitVec 4) ≤ 8), rfl⟩,
    fun _ ht => by simp [State.reset] at ht, fun _ hc => by simp [State.reset] at hc, h⟩

theorem inv_softReset {s : State} (h : s.SourceOk) : (softReset s).Inv := inv_setArg s.arg (inv_hardReset h)

-- ## Sequences

/-- A sequence keeps the invariant when its pieces do. -/
theorem bind_inv {α β : Type} {r : CmdResult α} {k : α → State → CmdResult β} (h : r.final.Inv)
    (hk : ∀ a t, r = .done a t → t.Inv → (k a t).final.Inv) : (r.bind k).final.Inv := by
  cases r with
  | done a s => exact hk a s rfl h
  | faulted s => exact h

theorem inv_snkWriteAll {s : State} (l : List Byte) (h : s.Inv) : (snkWriteAll l s).Inv := by
  rw [snkWriteAll_eq]; exact h

theorem inv_putBit {s : State} (b : Bit) (h : s.Inv) : (putBit b s).Inv := by
  rw [putBit_frame b s]
  exact inv_setWriter (inv_setSnk _ h) (putBit_spec b s h.2.1).1

theorem inv_putBits {s : State} (p : List Bit) (h : s.Inv) : (putBits p s).Inv := by
  rw [putBits_frame p s]
  exact inv_setWriter (inv_setSnk _ h) (putBits_spec p s h.2.1).1

theorem inv_flush {s : State} (h : s.Inv) : (flush s).Inv := inv_writerInit (inv_snkWrite _ h)

theorem inv_clearBuffers {s : State} (h : s.Inv) : (clearBuffers s).Inv := inv_readerInit (inv_writerInit h)

/-- A byte read keeps it. -/
theorem inv_srcRead {s s' : State} {b : Byte} (h : s.Inv) (hr : srcRead s = some (b, s')) : s'.Inv := by
  rcases srcRead_cases s with ⟨hn, -⟩ | ⟨x, rest, -, hs, hlt⟩
  · rw [hn] at hr; cases hr
  · rw [hs] at hr
    have : s.setPos (s.src.pos + 1) = s' := congrArg Prod.snd (Option.some.inj hr)
    rw [← this]; exact inv_setPos h hlt

theorem inv_srcReadOr {s : State} (info : Word) (h : s.Inv) : (srcReadOr info s).final.Inv := by
  unfold srcReadOr
  split
  · next b s' hr => exact inv_srcRead h hr
  · exact inv_enterFault _ _ h

/-- A bit read keeps it. -/
theorem inv_getBit {s s' : State} {b : Bit} (h : s.Inv) (hb : getBit s = some (b, s')) : s'.Inv := by
  rcases getBit_cases s h.2.2.1 with ⟨g, -⟩ | ⟨x, rest, s1, -, g, -, hr, hf, -⟩
  · rw [g] at hb; cases hb
  · rw [g] at hb
    have e : s1 = s' := congrArg Prod.snd (Option.some.inj hb)
    rw [e] at hr hf
    have hp : s'.src.pos ≤ s.src.data.length := by
      have hg := hb
      unfold getBit at g
      split at g
      · rcases srcRead_cases s with ⟨hn, -⟩ | ⟨y, ys, -, hs, hlt⟩
        · rw [hn] at g; cases g
        · rw [hs] at g
          simp only [takeBit, Option.some.injEq, Prod.mk.injEq] at g
          rw [← e, ← g.2]; exact hlt
      · simp only [takeBit, Option.some.injEq, Prod.mk.injEq] at g
        rw [← e, ← g.2]; exact h.2.2.2.2.2.1
    rw [hf]
    exact inv_setReader (inv_setPos h hp) hr

-- ## The operations

theorem inv_readIntFrom : ∀ (left i n : Nat) (s : State), s.Inv → (readIntFrom left i n s).final.Inv
  | 0, _, _, _, h => h
  | left + 1, i, n, s, h => by
    rw [readIntFrom]
    exact bind_inv (inv_srcReadOr _ h) fun x t _ ht => inv_readIntFrom left (i + 1) _ t ht

theorem inv_opSetlen {s : State} (h : s.Inv) : (opSetlen s).final.Inv := by
  unfold opSetlen lenOperand
  split
  · exact h
  · exact inv_enterFault _ _ h

theorem inv_opGetb {s : State} (h : s.Inv) : (opGetb s).Inv := by
  unfold opGetb
  split
  · exact h
  · next x s' hr => exact inv_setRes _ (inv_setEos _ (inv_srcRead h hr))

theorem inv_opBget {s : State} (h : s.Inv) : (opBget s).Inv := by
  unfold opBget
  split
  · exact h
  · next x s' hr => exact inv_setRes _ (inv_setEos _ (inv_getBit h hr))

theorem inv_opPutlen {s : State} (h : s.Inv) : (opPutlen s).Inv := inv_snkWriteAll _ h

theorem inv_opGetlen {s : State} (h : s.Inv) : (opGetlen s).final.Inv :=
  bind_inv (inv_readIntFrom 4 0 0 s h) fun _ _ _ ht => ht

theorem inv_opRenc {s : State} (v : Byte) (h : s.Inv) : (opRenc v s).Inv := inv_snkWriteAll _ h

theorem inv_opRdec {s : State} (h : s.Inv) : (opRdec s).final.Inv :=
  bind_inv (inv_opGetlen h) fun _ _ _ ht => bind_inv (inv_srcReadOr _ ht) fun _ _ _ hu => inv_snkWriteAll _ hu

theorem inv_scanFrom : ∀ (left n : Nat) (s : State), s.Inv → (scanFrom left n s).final.Inv
  | 0, _, _, h => h
  | left + 1, n, s, h => by
    rw [scanFrom]
    split
    · exact h
    · next x s' hr =>
      have hs := inv_srcRead h hr
      split
      · exact inv_enterFault _ _ hs
      · exact inv_scanFrom left (n + 1) _ (inv_setFreq _ hs)

theorem inv_opFscan {s : State} (h : s.Inv) : (opFscan s).final.Inv :=
  bind_inv (inv_scanFrom _ _ _ (inv_setFreq _ h)) fun _ _ _ ht => ht

theorem inv_opTbuild {s : State} (h : s.Inv) : (opTbuild s).final.Inv := by
  unfold opTbuild
  split
  · exact inv_enterFault _ _ h
  · next t ht => exact inv_setTree h fun u hu => Option.some.inj hu ▸ (buildTree_valid ht).1

theorem inv_requireTree {s : State} (h : s.Inv) : (requireTree s).final.Inv := by
  unfold requireTree
  split
  · exact h
  · exact inv_enterFault _ _ h

theorem requireTree_done {s t : State} {T : Tree} (h : requireTree s = .done T t) : t = s ∧ s.tree = some T := by
  unfold requireTree at h
  split at h
  · next u hu => cases h; exact ⟨rfl, hu⟩
  · cases h

theorem inv_requireCode {s : State} (h : s.Inv) : (requireCode s).final.Inv := by
  unfold requireCode
  split
  · exact h
  · exact inv_enterFault _ _ h

theorem inv_requireCodeOf {s : State} (c : CodeTable) (v : Byte) (h : s.Inv) : (requireCodeOf c v s).final.Inv := by
  unfold requireCodeOf
  split
  · exact h
  · exact inv_enterFault _ _ h

theorem inv_emitTree {s : State} (t : Tree) (h : s.Inv) : (emitTree t s).Inv := by
  rw [emitTree_eq]; exact h

theorem inv_opTwrite {s : State} (h : s.Inv) : (opTwrite s).final.Inv :=
  bind_inv (inv_requireTree h) fun T _ _ ht => inv_emitTree T ht

/-- TREAD keeps it: the tree it accepts has an internal root and at most NODE_CAP nodes (43_tree R150, R153). -/
theorem inv_opTread {s : State} (h : s.Inv) : (opTread s).final.Inv := by
  have h0 : (s.setTree none).Inv := inv_setTree h fun _ hu => by cases hu
  rcases readNode_cases (Config.nodeCap + 1) 0 (s.setTree none) (Nat.zero_le _) h.2.2.2.2.2.1 with
    ⟨t, p, hr, hc, -, hp⟩ | ⟨e, info, p, hr, -, -, hp⟩
  · rw [opTread, hr, bind_done]
    have hs := inv_setPos h0 hp
    cases t with
    | none => exact inv_enterFault _ _ hs
    | some t =>
      cases t with
      | leaf v => exact inv_enterFault _ _ hs
      | node l r =>
        refine inv_setTree hs fun u hu => Option.some.inj hu ▸ ?_
        have hn : (Tree.node l r).nodes ≤ Config.nodeCap := by
          have : nodesOf (some (Tree.node l r)) = (Tree.node l r).nodes := rfl
          omega
        rw [Tree.valid]
        exact decide_eq_true hn
  · rw [opTread, hr, bind_raise]
    exact inv_enterFault _ _ (inv_setPos h0 hp)

theorem inv_opTcodes {s : State} (h : s.Inv) : (opTcodes s).final.Inv :=
  bind_inv (inv_requireTree h) fun T t ht hi => by
    obtain ⟨rfl, hT⟩ := requireTree_done ht
    exact inv_setCode hi hT

theorem inv_opClen {s : State} (v : Byte) (h : s.Inv) : (opClen v s).final.Inv :=
  bind_inv (inv_requireCode h) fun _ _ _ ht => ht

theorem inv_opPutsym {s : State} (v : Byte) (h : s.Inv) : (opPutsym v s).final.Inv :=
  bind_inv (inv_requireCode h) fun c _ _ ht => bind_inv (inv_requireCodeOf c v ht) fun p _ _ hu => inv_putBits p hu

theorem inv_encodeFrom (c : CodeTable) : ∀ (left : Nat) (s : State), s.Inv → (encodeFrom c left s).final.Inv
  | 0, _, h => h
  | left + 1, s, h => by
    rw [encodeFrom]
    split
    · exact h
    · next x s' hr =>
      exact bind_inv (inv_requireCodeOf c x (inv_srcRead h hr)) fun p _ _ hu => inv_encodeFrom c left _ (inv_putBits p hu)

theorem inv_opHenc {s : State} (h : s.Inv) : (opHenc s).final.Inv :=
  bind_inv (inv_requireCode h) fun c _ _ ht => inv_encodeFrom c _ _ ht

theorem inv_decodeSym : ∀ (t : Tree) (s : State), s.Inv → (decodeSym t s).final.Inv
  | .leaf _, _, h => h
  | .node l r, s, h => by
    rw [decodeSym]
    split
    · exact inv_enterFault _ _ h
    · next b s' hb =>
      split
      · exact inv_decodeSym r s' (inv_getBit h hb)
      · exact inv_decodeSym l s' (inv_getBit h hb)

theorem inv_opGetsym {s : State} (h : s.Inv) : (opGetsym s).final.Inv :=
  bind_inv (inv_requireTree h) fun T _ _ ht => bind_inv (inv_decodeSym T _ ht) fun _ _ _ hu => hu

theorem inv_decodeSyms (t : Tree) : ∀ (left : Nat) (s : State), s.Inv → (decodeSyms t left s).final.Inv
  | 0, _, h => h
  | left + 1, s, h => by
    rw [decodeSyms]
    exact bind_inv (inv_decodeSym t s h) fun v _ _ hu => inv_decodeSyms t left _ (inv_snkWrite v hu)

theorem inv_opHdec {s : State} (h : s.Inv) : (opHdec s).final.Inv :=
  bind_inv (inv_requireTree h) fun T _ _ ht => inv_decodeSyms T _ _ ht

theorem inv_compressHuffman {s : State} (h : s.Inv) : (compressHuffman s).final.Inv :=
  bind_inv (inv_opTbuild (inv_opPutlen (inv_snkWrite _ h))) fun _ _ _ h1 =>
  bind_inv (inv_opTwrite h1) fun _ _ _ h2 =>
  bind_inv (inv_opTcodes h2) fun _ _ _ h3 =>
  bind_inv (inv_opHenc (inv_srcRewind h3)) fun _ _ _ h4 => inv_flush h4

theorem inv_compressByK {s : State} (h : s.Inv) : (compressByK s).final.Inv := by
  unfold compressByK
  split
  · exact h
  · exact inv_opRenc _ (inv_snkWrite _ h)
  · exact inv_compressHuffman h

theorem inv_opCmp {s : State} (h : s.Inv) : (opCmp s).final.Inv :=
  bind_inv (inv_opFscan (inv_clearBuffers (inv_srcMark h))) fun _ _ _ h1 => inv_compressByK h1

theorem inv_decompressHuffman {s : State} (h : s.Inv) : (decompressHuffman s).final.Inv :=
  bind_inv (inv_opGetlen h) fun _ _ _ h1 => bind_inv (inv_opTread h1) fun _ _ _ h2 => inv_opHdec h2

theorem inv_decompressByTag {s : State} (h : s.Inv) : (decompressByTag s).final.Inv := by
  unfold decompressByTag
  split
  · exact h
  · split
    · exact inv_opRdec h
    · split
      · exact inv_decompressHuffman h
      · exact inv_enterFault _ _ h

theorem inv_opDcmp {s : State} (h : s.Inv) : (opDcmp s).final.Inv :=
  inv_decompressByTag (inv_opGetb (inv_clearBuffers h))

end Sys2Proof.Machine
end

