-- ==== Sys2Proof/Laws/Nodes.lean ====
section
/-! SUPPORT. ReadNode() as a relation on the unread bytes (43_tree R148, R149): every source has an outcome, `readNode`
and TREAD follow it, and what it is on serialised trees, whole, cut short or too large. -/

namespace Sys2Proof.Machine

theorem srcRest_setPos_add (s : State) (n : Nat) : srcRest (s.setPos (s.src.pos + n)) = (srcRest s).drop n := by
  simp [srcRest, List.drop_drop]

/-- The source after a pair has been read. -/
theorem srcRest_pair {s : State} {b0 b1 : Byte} {rest : List Byte} (h : srcRest s = b0 :: b1 :: rest) :
    srcRest (s.setPos (s.src.pos + 2)) = rest := by rw [srcRest_setPos_add, h]; rfl

/-- The source after a left child of n bytes. -/
theorem srcRest_left {s : State} {rest : List Byte} (n : Nat) (h : srcRest s = rest) :
    srcRest (s.setPos (s.src.pos + n)) = rest.drop n := by rw [srcRest_setPos_add, h]

-- ## The machine follows the relation

/-- What `readNode` answers when ReadNode() consumes n bytes and ends as r. -/
def endsAs (s : State) (n : Nat) (r : NodeEnd) (a : CmdResult (Option Tree × Nat)) : Prop :=
  match r with
  | .read t c => a = .done (t, c) (s.setPos (s.src.pos + n))
  | .faults e info => ∃ code : FaultCode, code.number = e ∧ a = raise code info (s.setPos (s.src.pos + n))

/-- The counter only grows, and never beyond the capacity. -/
theorem readsNode_counter {c n : Nat} {bytes : List Byte} {r : NodeEnd} (h : ReadsNode c bytes n r) (hc : c ≤ Config.nodeCap) :
    ∀ t c', r = .read t c' → c ≤ c' ∧ c' ≤ Config.nodeCap := by
  induction h with
  | noFirst => simp
  | noSecond => simp
  | absent => rintro t c' ⟨⟩; exact ⟨Nat.le_refl _, hc⟩
  | full => simp
  | leftFaults => simp
  | rightFaults => simp
  | leaf _ room _ _ ihl ihr =>
    rintro t c' ⟨⟩
    obtain ⟨h1, h2⟩ := ihl (by omega) _ _ rfl
    obtain ⟨h3, h4⟩ := ihr h2 _ _ rfl
    exact ⟨by omega, h4⟩
  | node _ room _ _ ihl ihr =>
    rintro t c' ⟨⟩
    obtain ⟨h1, h2⟩ := ihl (by omega) _ _ rfl
    obtain ⟨h3, h4⟩ := ihr h2 _ _ rfl
    exact ⟨by omega, h4⟩
  | unary => simp

/-- `readNode`, with depth enough, does what the relation says (R148). -/
theorem readsNode_sound {c n : Nat} {bytes : List Byte} {r : NodeEnd} (h : ReadsNode c bytes n r) :
    ∀ (depth : Nat) (s : State), c ≤ Config.nodeCap → Config.nodeCap < depth + c → srcRest s = bytes →
      endsAs s n r (readNode depth c s) := by
  induction h with
  | noFirst c =>
    intro depth s hc hd hs
    obtain ⟨d, rfl⟩ : ∃ d, depth = d + 1 := ⟨depth - 1, by omega⟩
    exact ⟨.trunc, rfl, by rw [readNode, srcReadOr_nil _ hs]; rfl⟩
  | noSecond c b0 =>
    intro depth s hc hd hs
    obtain ⟨d, rfl⟩ : ∃ d, depth = d + 1 := ⟨depth - 1, by omega⟩
    exact ⟨.trunc, rfl, by rw [readNode, srcReadOr_cons _ hs, bind_done, srcReadOr_nil _ (srcRest_setPos hs)]; rfl⟩
  | absent c rest =>
    intro depth s hc hd hs
    obtain ⟨d, rfl⟩ : ∃ d, depth = d + 1 := ⟨depth - 1, by omega⟩
    exact readNode_sentinel d c hs
  | full rest pair cap =>
    intro depth s hc hd hs
    obtain ⟨d, rfl⟩ : ∃ d, depth = d + 1 := ⟨depth - 1, by omega⟩
    subst cap
    exact ⟨.treeovf, rfl, readNode_overflow d hs pair⟩
  | leftFaults pair room _ ih =>
    intro depth s hc hd hs
    obtain ⟨d, rfl⟩ : ∃ d, depth = d + 1 := ⟨depth - 1, by omega⟩
    obtain ⟨code, hcode, hl⟩ := ih d _ (by omega) (by omega) (srcRest_pair hs)
    exact ⟨code, hcode, by rw [readNode_pair d _ hs pair room, hl, bind_raise]; simp [Nat.add_assoc]⟩
  | rightFaults pair room left _ ihl ihr =>
    intro depth s hc hd hs
    obtain ⟨d, rfl⟩ : ∃ d, depth = d + 1 := ⟨depth - 1, by omega⟩
    have h2 := srcRest_pair hs
    have hk := readsNode_counter left (by omega) _ _ rfl
    have hl := ihl d _ (by omega) (by omega) h2
    obtain ⟨code, hcode, hr⟩ := ihr d _ hk.2 (by omega) (srcRest_left _ h2)
    refine ⟨code, hcode, ?_⟩
    rw [readNode_pair d _ hs pair room, show readNode _ _ _ = _ from hl, bind_done, hr, bind_raise]
    simp [Nat.add_assoc]
  | leaf pair room left _ ihl ihr =>
    intro depth s hc hd hs
    obtain ⟨d, rfl⟩ : ∃ d, depth = d + 1 := ⟨depth - 1, by omega⟩
    have h2 := srcRest_pair hs
    have hk := readsNode_counter left (by omega) _ _ rfl
    have hl := ihl d _ (by omega) (by omega) h2
    have hr := ihr d _ hk.2 (by omega) (srcRest_left _ h2)
    show readNode _ _ _ = _
    rw [readNode_pair d _ hs pair room, show readNode _ _ _ = _ from hl, bind_done, show readNode _ _ _ = _ from hr,
      bind_done]
    simp [joinChildren, Nat.add_assoc]
  | node pair room left _ ihl ihr =>
    intro depth s hc hd hs
    obtain ⟨d, rfl⟩ : ∃ d, depth = d + 1 := ⟨depth - 1, by omega⟩
    have h2 := srcRest_pair hs
    have hk := readsNode_counter left (by omega) _ _ rfl
    have hl := ihl d _ (by omega) (by omega) h2
    have hr := ihr d _ hk.2 (by omega) (srcRest_left _ h2)
    show readNode _ _ _ = _
    rw [readNode_pair d _ hs pair room, show readNode _ _ _ = _ from hl, bind_done, show readNode _ _ _ = _ from hr,
      bind_done]
    simp [joinChildren, Nat.add_assoc]
  | @unary _ _ _ _ _ _ _ _ l r pair room left _ one ihl ihr =>
    intro depth s hc hd hs
    obtain ⟨d, rfl⟩ : ∃ d, depth = d + 1 := ⟨depth - 1, by omega⟩
    have h2 := srcRest_pair hs
    have hk := readsNode_counter left (by omega) _ _ rfl
    have hl := ihl d _ (by omega) (by omega) h2
    have hr := ihr d _ hk.2 (by omega) (srcRest_left _ h2)
    refine ⟨.tree, rfl, ?_⟩
    rw [readNode_pair d _ hs pair room, show readNode _ _ _ = _ from hl, bind_done, show readNode _ _ _ = _ from hr,
      bind_done]
    cases l <;> cases r <;> simp_all [joinChildren, Nat.add_assoc]

/-- Every list of unread bytes has an outcome (R148: "on arbitrary input"). -/
theorem readsNode_total : ∀ (room c : Nat) (bytes : List Byte), c + room = Config.nodeCap → ∃ n r, ReadsNode c bytes n r
  | _, c, [], _ => ⟨_, _, .noFirst c⟩
  | _, c, [b0], _ => ⟨_, _, .noSecond c b0⟩
  | room, c, b0 :: b1 :: rest, h => by
    by_cases pair : b0 = 0x00 ∧ b1 = 0x01
    · obtain ⟨rfl, rfl⟩ := pair
      exact ⟨_, _, .absent c rest⟩
    · match room, h with
      | 0, h => exact ⟨_, _, .full rest pair h⟩
      | room + 1, h =>
        obtain ⟨n, r, hl⟩ := readsNode_total room (c + 1) rest (by omega)
        have hc : c ≠ Config.nodeCap := by omega
        cases r with
        | faults e info => exact ⟨_, _, .leftFaults pair hc hl⟩
        | read l c1 =>
          have hk := readsNode_counter hl (by omega) _ _ rfl
          obtain ⟨room', hroom⟩ : ∃ room', c1 + room' = Config.nodeCap := ⟨Config.nodeCap - c1, by omega⟩
          have : room' < room + 1 := by omega
          obtain ⟨m, r, hr⟩ := readsNode_total room' c1 (rest.drop n) hroom
          cases r with
          | faults e info => exact ⟨_, _, .rightFaults pair hc hl hr⟩
          | read r c2 =>
            match l, r with
            | none, none => exact ⟨_, _, .leaf pair hc hl hr⟩
            | some l, some r => exact ⟨_, _, .node pair hc hl hr⟩
            | none, some r => exact ⟨_, _, .unary pair hc hl hr (by simp)⟩
            | some l, none => exact ⟨_, _, .unary pair hc hl hr (by simp)⟩
termination_by room => room

/-- TREAD leaves what R150 gives for the way ReadNode() ends. -/
theorem execTread_follows {s : State} {n : Nat} {r : NodeEnd} (h : ReadsNode 0 (srcRest s) n r) :
    execTread s = .next (afterTread s n r) := by
  have hr := readsNode_sound h (Config.nodeCap + 1) (s.setTree none) (by omega) (by omega) rfl
  match r, hr with
  | .faults e info, ⟨code, hcode, hr⟩ =>
    subst hcode
    rw [execTread, opTread, hr, bind_raise]; rfl
  | .read none c, hr => rw [execTread, opTread, show readNode _ _ _ = _ from hr, bind_done]; rfl
  | .read (some (.leaf v)) c, hr => rw [execTread, opTread, show readNode _ _ _ = _ from hr, bind_done]; rfl
  | .read (some (.node l r)) c, hr => rw [execTread, opTread, show readNode _ _ _ = _ from hr, bind_done]; rfl

-- ## Serialised trees

theorem serTree_node_append (l r : Tree) (rest : List Byte) :
    serTree (.node l r) ++ rest = 0x00 :: 0x00 :: (serTree l ++ (serTree r ++ rest)) := by
  simp [serTree, Config.placeholder, Config.markNode]

/-- A whole serialised tree within the capacity is read back (R159). -/
theorem readsNode_serTree : ∀ (t : Tree) (c : Nat) (rest : List Byte), c + t.nodes ≤ Config.nodeCap →
    ReadsNode c (serTree t ++ rest) (serTree t).length (.read (some t) (c + t.nodes))
  | .leaf v, c, rest, h => by
    simp only [Tree.nodes] at h
    exact .leaf (b0 := v) (b1 := 0x00) (by simp) (by omega) (.absent (c + 1) (0x00 :: 0x01 :: rest)) (.absent (c + 1) rest)
  | .node l r, c, rest, h => by
    simp only [Tree.nodes] at h ⊢
    have hl := readsNode_serTree l (c + 1) (serTree r ++ rest) (by omega)
    have hr := readsNode_serTree r (c + 1 + l.nodes) rest (by omega)
    have hn := ReadsNode.node (c := c) (b0 := 0x00) (b1 := 0x00) (by simp) (by omega) hl
      (by rw [List.drop_left]; exact hr)
    rw [serTree_node_append]
    have e1 : (serTree (.node l r)).length = 2 + (serTree l).length + (serTree r).length := by
      simp only [serTree, List.length_append, List.length_cons, List.length_nil]
    have e2 : c + (1 + l.nodes + r.nodes) = c + 1 + l.nodes + r.nodes := by omega
    rw [e1, e2]
    exact hn

/-- A serialised tree cut short: truncation, at the byte that is missing (R148, R149). -/
theorem readsNode_cut : ∀ (t : Tree) (c : Nat) (q z : List Byte), c + t.nodes ≤ Config.nodeCap → serTree t = q ++ z →
    z ≠ [] → ReadsNode c q q.length (.faults 0x05 (if q.length % 2 = 0 then 0x20 else 0x21))
  | t, c, [], z, _, _, _ => .noFirst c
  | t, c, [b], z, _, _, _ => .noSecond c b
  | .leaf v, c, b0 :: b1 :: q, z, h, hq, hz => by
    have hc : c ≠ Config.nodeCap := by simp only [Tree.nodes] at h; omega
    simp only [serTree, Config.markNode, Config.sentinelFirst, Config.sentinelSecond, List.cons_append, List.cons.injEq] at hq
    obtain ⟨rfl, rfl, hq⟩ := hq
    have pair : ¬(v = 0x00 ∧ (0x00 : Byte) = 0x01) := by simp
    match q, hq with
    | [], _ =>
      rw [if_pos (by simp)]
      exact .leftFaults pair hc (.noFirst (c + 1))
    | [b], _ =>
      rw [if_neg (by simp)]
      exact .leftFaults pair hc (.noSecond (c + 1) b)
    | [x, y], hq =>
      simp only [List.cons_append, List.cons.injEq] at hq
      obtain ⟨rfl, rfl, -⟩ := hq
      rw [if_pos (by simp)]
      exact .rightFaults (n := 2) (m := 0) pair hc (.absent (c + 1) []) (.noFirst (c + 1))
    | [x, y, w], hq =>
      simp only [List.cons_append, List.cons.injEq] at hq
      obtain ⟨rfl, rfl, -⟩ := hq
      rw [if_neg (by simp)]
      exact .rightFaults (n := 2) (m := 1) pair hc (.absent (c + 1) [w]) (.noSecond (c + 1) w)
    | x :: y :: w :: u :: q, hq =>
      simp only [List.cons_append, List.cons.injEq] at hq
      exact absurd (List.append_eq_nil_iff.1 hq.2.2.2.2.symm).2 hz
  | .node l r, c, b0 :: b1 :: q, z, h, hq, hz => by
    simp only [Tree.nodes] at h
    have hc : c ≠ Config.nodeCap := by omega
    have hq' := (List.append_nil (serTree (.node l r))).trans hq
    rw [serTree_node_append, List.append_nil, List.cons_append, List.cons_append, List.cons.injEq, List.cons.injEq] at hq'
    obtain ⟨rfl, rfl, hsplit⟩ := hq'
    have hlen : ∀ k : Nat, (2 + k) % 2 = k % 2 := fun k => by omega
    have hlen' : (serTree l).length % 2 = 0 := by have := serTree_length l; omega
    rcases List.append_eq_append_iff.1 hsplit with ⟨q', rfl, hr⟩ | ⟨z', hl, hz'⟩
    · -- the left tree is whole
      have hr' := readsNode_cut r (c + 1 + l.nodes) q' z (by omega) hr hz
      have := ReadsNode.rightFaults (b0 := 0x00) (b1 := 0x00) (by simp) hc (readsNode_serTree l (c + 1) q' (by omega))
        (by rw [List.drop_left]; exact hr')
      have e1 : (0x00 :: 0x00 :: (serTree l ++ q') : List Byte).length = 2 + (serTree l).length + q'.length := by
        simp; omega
      have e2 : (2 + (serTree l).length + q'.length) % 2 = q'.length % 2 := by omega
      rw [e1, e2]
      exact this
    · by_cases hz0 : z' = []
      · subst hz0
        rw [List.append_nil] at hl
        subst hl
        have := ReadsNode.rightFaults (b0 := 0x00) (b1 := 0x00) (by simp) hc (readsNode_serTree l (c + 1) [] (by omega))
          (m := 0) (e := 0x05) (info := 0x20) (by rw [List.drop_left]; exact .noFirst _)
        rw [List.append_nil] at this
        have e1 : (0x00 :: 0x00 :: serTree l : List Byte).length = 2 + (serTree l).length + 0 := by simp; omega
        have e2 : (2 + (serTree l).length + 0) % 2 = 0 := by omega
        rw [e1, if_pos e2]
        exact this
      · have hl' := readsNode_cut l (c + 1) q z' (by omega) hl hz0
        have := ReadsNode.leftFaults (b0 := 0x00) (b1 := 0x00) (by simp) hc hl'
        have e1 : (0x00 :: 0x00 :: q : List Byte).length = 2 + q.length := by simp; omega
        rw [e1, hlen]
        exact this

/-- A serialised tree of more nodes than the capacity leaves room for: overflow (R148). -/
theorem readsNode_large : ∀ (t : Tree) (c : Nat) (rest : List Byte), c ≤ Config.nodeCap → Config.nodeCap < c + t.nodes →
    ∃ n, n ≤ (serTree t).length ∧ ReadsNode c (serTree t ++ rest) n (.faults 0x07 0)
  | .leaf v, c, rest, hc, h => by
    simp only [Tree.nodes] at h
    exact ⟨2, by simp [serTree], .full (b0 := v) (b1 := 0x00) _ (by simp) (by omega)⟩
  | .node l r, c, rest, hc, h => by
    simp only [Tree.nodes] at h
    rw [serTree_node_append]
    have e1 : (serTree (.node l r)).length = 2 + (serTree l).length + (serTree r).length := by
      simp only [serTree, List.length_append, List.length_cons, List.length_nil]
    by_cases hcap : c = Config.nodeCap
    · exact ⟨2, by omega, .full _ (by simp) hcap⟩
    · by_cases hl : Config.nodeCap < c + 1 + l.nodes
      · obtain ⟨n, hn, hf⟩ := readsNode_large l (c + 1) (serTree r ++ rest) (by omega) hl
        exact ⟨2 + n, by omega, .leftFaults (by simp) hcap hf⟩
      · obtain ⟨n, hn, hf⟩ := readsNode_large r (c + 1 + l.nodes) rest (by omega) (by omega)
        exact ⟨2 + (serTree l).length + n, by omega, .rightFaults (by simp) hcap
          (readsNode_serTree l (c + 1) (serTree r ++ rest) (by omega)) (by rw [List.drop_left]; exact hf)⟩

/-- A node with a left child only (R148). -/
theorem readsNode_leftOnly {t : Tree} {b0 b1 : Byte} {c : Nat} (rest : List Byte) (pair : ¬(b0 = 0x00 ∧ b1 = 0x01))
    (h : c + t.nodes < Config.nodeCap) :
    ReadsNode c (b0 :: b1 :: (serTree t ++ (0x00 :: 0x01 :: rest))) (2 + (serTree t).length + 2) (.faults 0x06 3) :=
  .unary pair (by omega) (readsNode_serTree t (c + 1) _ (by omega))
    (by rw [List.drop_left]; exact .absent _ rest) (by simp)

/-- A node with a right child only (R148). -/
theorem readsNode_rightOnly {t : Tree} {b0 b1 : Byte} {c : Nat} (rest : List Byte) (pair : ¬(b0 = 0x00 ∧ b1 = 0x01))
    (h : c + t.nodes < Config.nodeCap) :
    ReadsNode c (b0 :: b1 :: 0x00 :: 0x01 :: (serTree t ++ rest)) (2 + 2 + (serTree t).length) (.faults 0x06 3) :=
  .unary pair (by omega) (.absent (c + 1) _) (readsNode_serTree t (c + 1) rest (by omega)) (by simp)

/-- A chain of nodes, each the left child of the one before, that reaches the capacity: overflow (R148). -/
theorem readsNode_chain : ∀ (room c : Nat) (rest : List Byte), c + room = Config.nodeCap →
    ReadsNode c (List.replicate (2 * (room + 1)) 0x00 ++ rest) (2 * (room + 1)) (.faults 0x07 0)
  | 0, c, rest, h => .full (b0 := 0x00) (b1 := 0x00) rest (by simp) h
  | room + 1, c, rest, h => by
    have e : 2 * (room + 1 + 1) = 2 + 2 * (room + 1) := by omega
    rw [e]
    have : List.replicate (2 + 2 * (room + 1)) (0x00 : Byte) ++ rest =
        0x00 :: 0x00 :: (List.replicate (2 * (room + 1)) 0x00 ++ rest) := by
      rw [← List.replicate_append_replicate]; rfl
    rw [this]
    exact .leftFaults (by simp) (by omega) (readsNode_chain room (c + 1) rest (by omega))

end Sys2Proof.Machine
end

