-- ==== Sys2Proof/Laws/Optimal.lean ====
section
/-! SUPPORT. Why merging the two lightest entries gives the least weighted code length (43_tree R142, R145). The depths of
the leaves of a binary tree are described without the tree, and the exchange argument is made on lists of pairs of a
weight and a depth. -/

namespace Sys2Proof.Machine

-- ## Lists of leaf depths

/-- The depths, in any order, of the leaves of some binary tree. -/
inductive LeafDepths : List Nat → Prop where
  | single : LeafDepths [0]
  | split {d : Nat} {ds : List Nat} : LeafDepths (d :: ds) → LeafDepths ((d + 1) :: (d + 1) :: ds)
  | perm {ds es : List Nat} : LeafDepths ds → ds.Perm es → LeafDepths es

/-- A tree put in the place of a leaf. -/
theorem LeafDepths.graft {ds : List Nat} (h : LeafDepths ds) {d : Nat} {es : List Nat} (he : LeafDepths (d :: es)) :
    LeafDepths (ds.map (d + ·) ++ es) := by
  induction h with
  | single => exact he
  | split _ ih =>
    rename_i c cs _
    have := LeafDepths.split (d := d + c) (by simpa using ih)
    simpa [Nat.add_assoc] using this
  | perm _ hp ih => exact ih.perm ((hp.map _).append_right es)

/-- The depths of the leaves of a tree. -/
def depthsOf (t : Tree) : List Nat := (derive t []).map fun a => a.2.length

theorem depthsOf_node (l r : Tree) :
    depthsOf (.node l r) = (depthsOf l).map (1 + ·) ++ (depthsOf r).map (1 + ·) := by
  simp only [depthsOf, derive_node, List.map_append, List.map_map]
  congr 1 <;> exact List.map_congr_left fun a _ => by simp [Nat.add_comm]

theorem leafDepths_depthsOf (t : Tree) : LeafDepths (depthsOf t) := by
  induction t with
  | leaf v => exact .single
  | node l r ihl ihr =>
    rw [depthsOf_node]
    have h1 : LeafDepths ((depthsOf l).map (1 + ·) ++ [1]) := ihl.graft (LeafDepths.single.split)
    have h2 : LeafDepths (1 :: (depthsOf l).map (1 + ·)) := h1.perm List.perm_append_comm
    exact (ihr.graft h2).perm List.perm_append_comm

/-- Two leaves at the greatest depth are siblings: they can be taken off together. -/
theorem LeafDepths.deepest {ds : List Nat} (h : LeafDepths ds) (hl : 2 ≤ ds.length) :
    ∃ m es, ds.Perm ((m + 1) :: (m + 1) :: es) ∧ LeafDepths (m :: es) ∧ ∀ e ∈ es, e ≤ m + 1 := by
  induction h with
  | single => simp at hl
  | perm _ hp ih =>
    obtain ⟨m, es, h1, h2, h3⟩ := ih (by rw [hp.length_eq]; exact hl)
    exact ⟨m, es, hp.symm.trans h1, h2, h3⟩
  | @split d ds hd ih =>
    cases ds with
    | nil => exact ⟨d, [], .refl _, hd, by simp⟩
    | cons c cs =>
      obtain ⟨m, es, h1, h2, h3⟩ := ih (by simp)
      by_cases hm : m ≤ d
      · refine ⟨d, c :: cs, .refl _, hd, fun e he => ?_⟩
        have : e ∈ (m + 1) :: (m + 1) :: es := h1.mem_iff.1 (List.mem_cons_of_mem _ he)
        simp only [List.mem_cons] at this
        rcases this with rfl | rfl | he
        · omega
        · omega
        · exact (h3 e he).trans (by omega)
      · have hmem : d ∈ es := by
          have : d ∈ (m + 1) :: (m + 1) :: es := h1.mem_iff.1 List.mem_cons_self
          simp only [List.mem_cons] at this
          rcases this with h | h | h
          · omega
          · omega
          · exact h
        have h4 := List.perm_cons_erase hmem
        have h5 : (c :: cs).Perm ((m + 1) :: (m + 1) :: es.erase d) := by
          refine List.Perm.cons_inv (a := d) (h1.trans ?_)
          refine ((h4.cons _).cons _).trans ?_
          exact ((List.Perm.swap _ _ _).cons _).trans (List.Perm.swap _ _ _)
        refine ⟨m, (d + 1) :: (d + 1) :: es.erase d, ?_, ?_, ?_⟩
        · refine ((h5.cons _).cons _).trans ?_
          exact List.perm_append_comm (l₁ := [d + 1, d + 1]) (l₂ := [m + 1, m + 1]) |>.append_right (es.erase d)
        · have h6 : LeafDepths (d :: m :: es.erase d) := h2.perm ((h4.cons _).trans (List.Perm.swap _ _ _))
          exact h6.split.perm (List.perm_append_comm (l₁ := [d + 1, d + 1]) (l₂ := [m]) |>.append_right (es.erase d))
        · intro e he
          simp only [List.mem_cons] at he
          rcases he with rfl | rfl | he
          · omega
          · omega
          · exact h3 e (List.mem_of_mem_erase he)

-- ## Pairs of a weight and a depth

/-- The sum of weight times depth. -/
def pairCost (l : List (Nat × Nat)) : Nat := (l.map fun x => x.1 * x.2).sum

@[simp] theorem pairCost_cons (x : Nat × Nat) (l : List (Nat × Nat)) : pairCost (x :: l) = x.1 * x.2 + pairCost l := by
  simp [pairCost]

theorem pairCost_perm {l m : List (Nat × Nat)} (h : l.Perm m) : pairCost l = pairCost m := (h.map _).sum_eq

/-- A light weight above a heavy one may change places with it. -/
theorem swap_le {a x d e : Nat} (h1 : a ≤ x) (h2 : d ≤ e) : a * e + x * d ≤ x * e + a * d := by
  obtain ⟨k, rfl⟩ := Nat.exists_eq_add_of_le h1
  obtain ⟨j, rfl⟩ := Nat.exists_eq_add_of_le h2
  nlinarith

/-- The least weight can be brought to a place at the greatest depth. -/
theorem bring_down {a x m : Nat} {l : List (Nat × Nat)} (hle : a ≤ x) (hm : ∀ y ∈ l, y.2 ≤ m)
    (ha : a ∈ x :: l.map Prod.fst) :
    ∃ l', (x :: l.map Prod.fst).Perm (a :: l'.map Prod.fst) ∧ (l'.map Prod.snd).Perm (l.map Prod.snd) ∧
      (∀ y ∈ l', y.2 ≤ m) ∧ a * m + pairCost l' ≤ x * m + pairCost l := by
  by_cases hx : a = x
  · subst hx
    exact ⟨l, .refl _, .refl _, hm, Nat.le_refl _⟩
  · obtain ⟨⟨w, d⟩, hy, rfl⟩ : ∃ y ∈ l, y.1 = a := by
      rcases List.mem_cons.1 ha with h | h
      · exact absurd h hx
      · exact List.mem_map.1 h
    have hp := List.perm_cons_erase hy
    refine ⟨(x, d) :: l.erase (w, d), ?_, ?_, ?_, ?_⟩
    · exact ((hp.map Prod.fst).cons x).trans (List.Perm.swap _ _ _)
    · exact (hp.map Prod.snd).symm
    · intro y h
      rcases List.mem_cons.1 h with rfl | h
      · exact hm (w, d) hy
      · exact hm y (List.mem_of_mem_erase h)
    · rw [pairCost_perm hp, pairCost_cons, pairCost_cons]
      have := swap_le hle (hm _ hy)
      simp only at this ⊢
      omega

/-- One merge: from any pairing of the weights with leaf depths, the two least weights can be replaced by their sum, one
level up, at a saving of at least that sum. -/
theorem merge_pairs {a b : Nat} {ws : List Nat} {l : List (Nat × Nat)} (hw : (l.map Prod.fst).Perm (a :: b :: ws))
    (ha : ∀ w ∈ b :: ws, a ≤ w) (hb : ∀ w ∈ ws, b ≤ w) (hd : LeafDepths (l.map Prod.snd)) :
    ∃ l', (l'.map Prod.fst).Perm ((a + b) :: ws) ∧ LeafDepths (l'.map Prod.snd) ∧ pairCost l' + (a + b) ≤ pairCost l := by
  have hlen : 2 ≤ (l.map Prod.snd).length := by
    have := hw.length_eq
    simp only [List.length_map, List.length_cons] at this ⊢
    omega
  obtain ⟨m, es, h1, h2, h3⟩ := hd.deepest hlen
  -- the pairs at the two deepest places, and the rest
  obtain ⟨x, y, r, hl, hr⟩ : ∃ x y r, l.Perm ((x, m + 1) :: (y, m + 1) :: r) ∧ (r.map Prod.snd).Perm es := by
    have hx : (m + 1) ∈ l.map Prod.snd := h1.mem_iff.2 (by simp)
    obtain ⟨⟨x, d⟩, hx1, rfl⟩ := List.mem_map.1 hx
    have p1 := List.perm_cons_erase hx1
    have q1 : ((l.erase (x, m + 1)).map Prod.snd).Perm ((m + 1) :: es) :=
      List.Perm.cons_inv (a := m + 1) ((p1.map Prod.snd).symm.trans h1)
    have hy : (m + 1) ∈ (l.erase (x, m + 1)).map Prod.snd := q1.mem_iff.2 (by simp)
    obtain ⟨⟨y, d⟩, hy1, hyd⟩ := List.mem_map.1 hy
    simp only at hyd
    subst hyd
    have p2 := List.perm_cons_erase hy1
    exact ⟨x, y, _, p1.trans (p2.cons _), List.Perm.cons_inv (a := m + 1) ((p2.map Prod.snd).symm.trans q1)⟩
  have hm : ∀ z ∈ r, z.2 ≤ m + 1 := fun z hz => h3 _ (hr.mem_iff.1 (List.mem_map.2 ⟨z, hz, rfl⟩))
  have hws : (x :: y :: r.map Prod.fst).Perm (a :: b :: ws) := (hl.map Prod.fst).symm.trans hw
  have hax : a ≤ x := by
    rcases List.mem_cons.1 (hws.mem_iff.1 (List.mem_cons_self : x ∈ _)) with h | h
    · omega
    · exact ha x h
  -- a to the first of the two places
  obtain ⟨r1, c1, c2, c3, c4⟩ := bring_down (l := (y, m + 1) :: r) hax
    (fun z hz => by rcases List.mem_cons.1 hz with rfl | hz <;> [exact Nat.le_refl _; exact hm z hz])
    (hws.mem_iff.2 (List.mem_cons_self : a ∈ _))
  have hb1 : (r1.map Prod.fst).Perm (b :: ws) := List.Perm.cons_inv (c1.symm.trans hws)
  have hs1 : (m + 1) ∈ r1.map Prod.snd := c2.mem_iff.2 (by simp)
  obtain ⟨⟨z, d⟩, hz, hzd⟩ := List.mem_map.1 hs1
  simp only at hzd
  subst hzd
  have p3 := List.perm_cons_erase hz
  -- b to the second
  have hbz : b ≤ z := by
    rcases List.mem_cons.1 (hb1.mem_iff.1 (List.mem_map.2 ⟨_, hz, rfl⟩)) with h | h
    · exact Nat.le_of_eq h.symm
    · exact hb z h
  have hb2 : (z :: (r1.erase (z, m + 1)).map Prod.fst).Perm (b :: ws) := (p3.map Prod.fst).symm.trans hb1
  obtain ⟨r2, d1, d2, -, d4⟩ := bring_down (m := m + 1) hbz
    (fun y hy => c3 y (List.mem_of_mem_erase hy)) (hb2.mem_iff.2 (List.mem_cons_self : b ∈ _))
  have hs2 : (r2.map Prod.snd).Perm es := by
    refine d2.trans ?_
    refine List.Perm.cons_inv (a := m + 1) ((p3.map Prod.snd).symm.trans (c2.trans ?_))
    exact hr.cons _
  refine ⟨(a + b, m) :: r2, ?_, h2.perm (hs2.symm.cons _), ?_⟩
  · exact (List.Perm.cons_inv (d1.symm.trans hb2)).cons _
  · rw [pairCost_perm hl]
    rw [pairCost_perm p3] at c4
    simp only [pairCost_cons] at c4 ⊢
    have : (a + b) * m + (a + b) = a * (m + 1) + b * (m + 1) := by ring
    omega

-- ## The merging loop

/-- The weight of a tree: the sum of the counts of its leaves. -/
def treeWeight (f : FreqTable) (t : Tree) : Nat := (t.leaves.map fun v => (tget f v).toNat).sum

theorem weightedLength_leaf (f : FreqTable) (v : Byte) : weightedLength f (.leaf v) = 0 := by
  simp [weightedLength, derive]

theorem treeWeight_derive (f : FreqTable) (t : Tree) :
    treeWeight f t = ((derive t []).map fun a => (tget f a.1).toNat).sum := by
  rw [treeWeight, ← derive_bytes t [], List.map_map]
  rfl

/-- Under a new root every leaf is one level deeper. -/
theorem weightedLength_node (f : FreqTable) (l r : Tree) :
    weightedLength f (.node l r) = weightedLength f l + weightedLength f r + (treeWeight f l + treeWeight f r) := by
  have key : ∀ (b : Bool) (t : Tree),
      (((derive t []).map fun a => (a.1, b :: a.2)).map fun a => (tget f a.1).toNat * a.2.length).sum =
        weightedLength f t + treeWeight f t := by
    intro b t
    rw [weightedLength, treeWeight_derive, ← List.sum_map_add, List.map_map]
    congr 1
  rw [weightedLength, derive_node, List.map_append, List.sum_append, key, key]
  omega

theorem treeWeight_node (f : FreqTable) (l r : Tree) : treeWeight f (.node l r) = treeWeight f l + treeWeight f r := by
  simp [treeWeight, Tree.leaves]

/-- The total weighted code length inside the trees of a list of entries. -/
def entriesLength (f : FreqTable) (l : List Entry) : Nat := (l.map fun e => weightedLength f e.t).sum

/-- Whatever depths the entries might be given, the merging loop does not do worse (R142, R145). -/
theorem mergeAll_least (f : FreqTable) : ∀ (n s : Nat) (e : Entry) (rest : List Entry), rest.length ≤ n →
    (∀ x ∈ e :: rest, x.w = treeWeight f x.t) →
    ∀ l : List (Nat × Nat), (l.map Prod.fst).Perm ((e :: rest).map Entry.w) → LeafDepths (l.map Prod.snd) →
      weightedLength f (mergeAll n s e rest) ≤ entriesLength f (e :: rest) + pairCost l
  | 0, s, e, rest, hn, _, l, _, _ => by
    simp only [mergeAll, entriesLength, List.map_cons, List.sum_cons]
    omega
  | n + 1, s, e, rest, hn, hw, l, hl, hd => by
    have hp := extractMin_perm e rest
    have hmin := extractMin_min e rest
    have hlen := extractMin_length e rest
    rw [mergeAll]
    match hx : extractMin e rest with
    | (a, []) =>
      rw [hx] at hp
      have : entriesLength f (e :: rest) = entriesLength f [a] := ((hp.map _).sum_eq).symm
      rw [this]
      simp only [entriesLength, List.map_cons, List.map_nil, List.sum_cons, List.sum_nil]
      omega
    | (a, x :: xs) =>
      rw [hx] at hp hmin hlen
      have hp2 := extractMin_perm x xs
      have hmin2 := extractMin_min x xs
      have hlen2 := extractMin_length x xs
      dsimp only
      generalize extractMin x xs = p at hp2 hmin2 hlen2
      have hall : (a :: p.1 :: p.2).Perm (e :: rest) := (hp2.cons a).trans hp
      have hle : ∀ {u v : Entry}, v.before u = false → u.w ≤ v.w := by
        intro u v h
        simp only [Entry.before, decide_eq_false_iff_not, not_or] at h
        omega
      have ha : ∀ w ∈ p.1.w :: p.2.map Entry.w, a.w ≤ w := by
        intro w hw'
        rw [← List.map_cons] at hw'
        obtain ⟨y, hy, rfl⟩ := List.mem_map.1 hw'
        exact hle (hmin y (hp2.mem_iff.1 hy))
      have hb : ∀ w ∈ p.2.map Entry.w, p.1.w ≤ w := by
        intro w hw'
        obtain ⟨y, hy, rfl⟩ := List.mem_map.1 hw'
        exact hle (hmin2 y hy)
      obtain ⟨l', g1, g2, g3⟩ := merge_pairs (hl.trans (hall.map Entry.w).symm) ha hb hd
      have hwa := hw a (hall.mem_iff.1 (by simp))
      have hwb := hw p.1 (hall.mem_iff.1 (by simp))
      have ih := mergeAll_least f n (s + 1) (mergeEntries a p.1 s) p.2
        (by rw [hlen2]; simp only [List.length_cons] at hlen; omega) (fun y hy => by
          rcases List.mem_cons.1 hy with rfl | hy
          · simp only [mergeEntries, treeWeight_node, hwa, hwb]
          · exact hw y (hall.mem_iff.1 (by simp [hy]))) l' (by simpa [mergeEntries] using g1) g2
      have hsum : entriesLength f (e :: rest) = entriesLength f (a :: p.1 :: p.2) := ((hall.map _).sum_eq).symm
      rw [hsum]
      simp only [entriesLength, List.map_cons, List.sum_cons, mergeEntries, weightedLength_node] at ih ⊢
      omega

/-- The seeds carry the counts, cost nothing yet, and each is as heavy as its one leaf (R142). -/
theorem seedFrom_weights (f : FreqTable) : ∀ (s : Nat) (vs : List Byte),
    (seedFrom f s vs).map Entry.w = vs.map fun v => (tget f v).toNat
  | _, [] => rfl
  | s, v :: vs => by rw [seedFrom, List.map_cons, seedFrom_weights f (s + 1) vs]; rfl

theorem seedFrom_start (f : FreqTable) : ∀ (s : Nat) (vs : List Byte),
    (∀ x ∈ seedFrom f s vs, x.w = treeWeight f x.t) ∧ entriesLength f (seedFrom f s vs) = 0
  | _, [] => by simp [seedFrom, entriesLength]
  | s, v :: vs => by
    obtain ⟨h1, h2⟩ := seedFrom_start f (s + 1) vs
    rw [seedFrom]
    constructor
    · intro x hx
      rcases List.mem_cons.1 hx with rfl | hx
      · simp [treeWeight, Tree.leaves]
      · exact h1 x hx
    · simp only [entriesLength, List.map_cons, List.sum_cons, weightedLength_leaf] at h2 ⊢
      omega

-- ## The loop as a relation

/-- Entries of distinct sequence numbers: the one that is not after another is before it (R141). -/
theorem precedes_of_not_before {a x : Entry} (h : x.before a = false) (hs : a.s ≠ x.s) : Precedes a x := by
  simp only [Entry.before, decide_eq_false_iff_not, not_or] at h
  simp only [Precedes]
  omega

/-- The loop of TBUILD is the loop of R142, whatever order the entries are listed in. -/
theorem mergeAll_mergesTo : ∀ (n s : Nat) (e : Entry) (rest : List Entry), rest.length ≤ n →
    ((e :: rest).map Entry.s).Nodup → (∀ x ∈ e :: rest, x.s < s) → MergesTo (e :: rest) s (mergeAll n s e rest)
  | 0, s, e, rest, hn, _, _ => by
    have : rest = [] := List.length_eq_zero_iff.1 (by omega)
    subst this
    exact .last e s
  | n + 1, s, e, rest, hn, hd, hs => by
    have hp := extractMin_perm e rest
    have hmin := extractMin_min e rest
    have hlen := extractMin_length e rest
    rw [mergeAll]
    match hx : extractMin e rest with
    | (a, []) =>
      rw [hx] at hp
      rw [List.perm_singleton.1 hp.symm]
      exact .last a s
    | (a, x :: xs) =>
      rw [hx] at hp hmin hlen
      have hp2 := extractMin_perm x xs
      have hmin2 := extractMin_min x xs
      have hlen2 := extractMin_length x xs
      dsimp only
      generalize extractMin x xs = p at hp2 hmin2 hlen2
      have hall : (a :: p.1 :: p.2).Perm (e :: rest) := (hp2.cons a).trans hp
      have hd' : ((a :: p.1 :: p.2).map Entry.s).Nodup := (hall.map Entry.s).nodup_iff.2 hd
      simp only [List.map_cons, List.nodup_cons, List.mem_cons, not_or] at hd'
      have hs' : ∀ y ∈ a :: p.1 :: p.2, y.s < s := fun y hy => hs y (hall.mem_iff.1 hy)
      refine .merge (a := a) (b := p.1) (rest := p.2) hall.symm (fun y hy => ?_) (fun y hy => ?_)
        (mergeAll_mergesTo n (s + 1) (mergeEntries a p.1 s) p.2 ?_ ?_ ?_)
      · refine precedes_of_not_before (hmin y (hp2.mem_iff.1 hy)) fun h => ?_
        rcases List.mem_cons.1 hy with rfl | hy
        · exact hd'.1.1 h
        · exact hd'.1.2 (h ▸ List.mem_map_of_mem hy)
      · exact precedes_of_not_before (hmin2 y hy) fun h => hd'.2.1 (h ▸ List.mem_map_of_mem hy)
      · rw [hlen2]; simp only [List.length_cons] at hlen; omega
      · simp only [List.map_cons, List.nodup_cons, mergeEntries]
        refine ⟨fun h => ?_, hd'.2.2⟩
        obtain ⟨y, hy, h⟩ := List.mem_map.1 h
        have := hs' y (by simp [hy])
        omega
      · intro y hy
        rcases List.mem_cons.1 hy with rfl | hy
        · simp [mergeEntries]
        · have := hs' y (by simp [hy])
          omega

/-- The seeds in order: numbered from s on, each the leaf of its byte with its count (R141, R142). -/
theorem seedFrom_getElem (f : FreqTable) : ∀ (s : Nat) (vs : List Byte) (i : Nat) (h : i < (seedFrom f s vs).length)
    (h' : i < vs.length), (seedFrom f s vs)[i] = { w := (tget f vs[i]).toNat, s := s + i, t := .leaf vs[i] }
  | _, [], _, h, _ => by simp [seedFrom] at h
  | s, v :: vs, 0, _, _ => rfl
  | s, v :: vs, i + 1, h, h' => by
    have := seedFrom_getElem f (s + 1) vs i (by simpa [seedFrom] using h) (by simpa using h')
    simp only [seedFrom, List.getElem_cons_succ, this, Entry.mk.injEq, true_and, and_true]
    omega

/-- The seeds' sequence numbers, all distinct. -/
theorem seedFrom_numbers (f : FreqTable) : ∀ (s : Nat) (vs : List Byte),
    (seedFrom f s vs).map Entry.s = List.range' s vs.length
  | _, [] => rfl
  | s, v :: vs => by simp [seedFrom, seedFrom_numbers f (s + 1) vs, List.range'_succ]

/-- The bytes present, in ascending order. -/
theorem present_sorted (f : FreqTable) : (present f).Pairwise (· < ·) := by
  refine List.Pairwise.filter _ ?_
  rw [allBytes, List.pairwise_map]
  refine (List.pairwise_lt_range (n := 256)).imp_of_mem fun {a b} ha hb h => ?_
  simp only [List.mem_range] at ha hb
  simp only [BitVec.lt_def, BitVec.toNat_ofNat]
  omega

end Sys2Proof.Machine
end

