-- ==== Sys2Proof/Laws/PerInstr.lean ====
section
/-! SUPPORT. The family RowLegality: the word of each command matches exactly its own row of the opcode map and is well
formed (30_encoding R63, R64, R65). -/

namespace Sys2Proof.Laws.RowLegality

/-- The command's word matches exactly one row, the row of its mnemonic, and none of the grounds of R65 holds of it. -/
def Statement (i : Instr) : Prop :=
  (opRows.filter (·.matchesWord (encode i))).map (·.mnemonic) = [i.mnemonic] ∧ CmdWord.wellFormed (encode i) = true

theorem nop : Statement .nop := by unfold Statement; decide +kernel

theorem srst : Statement .srst := by unfold Statement; decide +kernel

theorem smark : Statement .smark := by unfold Statement; decide +kernel

theorem srew : Statement .srew := by unfold Statement; decide +kernel

theorem setlen : Statement .setlen := by unfold Statement; decide +kernel

theorem putb : ∀ imm : Byte, Statement (.putb imm) := by unfold Statement; decide +kernel

theorem getb : Statement .getb := by unfold Statement; decide +kernel

theorem putlen : Statement .putlen := by unfold Statement; decide +kernel

theorem getlen : Statement .getlen := by unfold Statement; decide +kernel

theorem bwinit : Statement .bwinit := by unfold Statement; decide +kernel

theorem bput : ∀ b : Bit, Statement (.bput b) := by unfold Statement; decide +kernel

theorem bflush : Statement .bflush := by unfold Statement; decide +kernel

theorem brinit : Statement .brinit := by unfold Statement; decide +kernel

theorem bget : Statement .bget := by unfold Statement; decide +kernel

theorem fclr : Statement .fclr := by unfold Statement; decide +kernel

theorem fscan : Statement .fscan := by unfold Statement; decide +kernel

theorem fset : ∀ imm : Byte, Statement (.fset imm) := by unfold Statement; decide +kernel

theorem fget : ∀ imm : Byte, Statement (.fget imm) := by unfold Statement; decide +kernel

theorem tbuild : Statement .tbuild := by unfold Statement; decide +kernel

theorem twrite : Statement .twrite := by unfold Statement; decide +kernel

theorem tread : Statement .tread := by unfold Statement; decide +kernel

theorem tcodes : Statement .tcodes := by unfold Statement; decide +kernel

theorem clen : ∀ imm : Byte, Statement (.clen imm) := by unfold Statement; decide +kernel

theorem putsym : ∀ imm : Byte, Statement (.putsym imm) := by unfold Statement; decide +kernel

theorem henc : Statement .henc := by unfold Statement; decide +kernel

theorem getsym : Statement .getsym := by unfold Statement; decide +kernel

theorem hdec : Statement .hdec := by unfold Statement; decide +kernel

theorem renc : ∀ imm : Byte, Statement (.renc imm) := by unfold Statement; decide +kernel

theorem rdec : Statement .rdec := by unfold Statement; decide +kernel

theorem cmp : Statement .cmp := by unfold Statement; decide +kernel

theorem dcmp : Statement .dcmp := by unfold Statement; decide +kernel

end Sys2Proof.Laws.RowLegality
end

