-- ==== Sys2Proof/Tests/Slice0.lean ====
section
/-! SUPPORT. Tests: ill-formed words, one word of every command, the vectors of spec/95_test_vectors.md one step each, and
for every statement with hypotheses a state that meets them. Expected values come from the vector named in the comment. -/

open Sys2Proof Sys2Proof.Machine

namespace Sys2Proof.Tests

set_option Elab.async false

-- ## Helpers

/-- The block after reset with a source attached. -/
def ready (bytes : List Byte) : State := { State.reset with src := { data := bytes, pos := 0, mark := 0 } }

/-- The block after reset with host actions to come. -/
def hosted (l : List HostAction) : State := { State.reset with script := l }

/-- The command ends in a next state of which p holds. -/
def after (i : Instr) (s : State) (p : State → Bool) : Bool :=
  match exec i s with
  | .next t => p t
  | .fault _ => false
  | .refused _ => false

/-- A step ends in a next state of which p holds. -/
def stepped (s : State) (p : State → Bool) : Bool :=
  match step s with
  | .next t => p t
  | .fault _ => false
  | .refused _ => false

/-- A table with the counts listed and 0 elsewhere. -/
def table : List (Byte × Dword) → FreqTable
  | [] => zeroFreq
  | (v, n) :: l => tset (table l) v n

/-- "abracadabra" in ASCII. -/
def abra : List Byte := [0x61, 0x62, 0x72, 0x61, 0x63, 0x61, 0x64, 0x61, 0x62, 0x72, 0x61]

/-- The tree of V-T1. -/
def abraTree : Tree :=
  .node (.leaf 0x61) (.node (.node (.leaf 0x63) (.leaf 0x64)) (.node (.leaf 0x62) (.leaf 0x72)))

/-- The 38 bytes of V-T1. -/
def abraBytes : List Byte :=
  [0x00, 0x00, 0x61, 0x00, 0x00, 0x01, 0x00, 0x01, 0x00, 0x00, 0x00, 0x00, 0x63, 0x00, 0x00, 0x01, 0x00, 0x01, 0x64,
   0x00, 0x00, 0x01, 0x00, 0x01] ++
  [0x00, 0x00, 0x62, 0x00, 0x00, 0x01, 0x00, 0x01, 0x72, 0x00, 0x00, 0x01, 0x00, 0x01]

/-- Tree and code table of V-T1 in place. -/
def coded (bytes : List Byte) : State := { ready bytes with tree := some abraTree, code := some (codeTable abraTree) }

/-- The tree with leaves 61 and 62. -/
def abTree : Tree := .node (.leaf 0x61) (.leaf 0x62)

/-- Tree, code table and both bit buffers in use, the source half read, a CSR read to come. -/
def rich : State :=
  { ready [0x61, 0x62, 0x63] with
    tree := some abTree, code := some (codeTable abTree), wbuf := 0x05, wcnt := 3, rbuf := 0x29, rcnt := 7,
    src := { data := [0x61, 0x62, 0x63], pos := 2, mark := 3 }, snk := [0x48], script := [.readCsr 9] }

/-- A block in FAULT after ERR_TAG. -/
def faulted (l : List HostAction) : State := { hosted l with run := .fault, err := 4, einfo := 0x58 }

/-- A state no run reaches: a command is executing. -/
def busy (l : List HostAction) : State := { hosted l with run := .busy }

-- ## Ill-formed words (30_encoding R65), one for each check, with V-E5 to V-E10

theorem test_wf_reserved : CmdWord.badReserved 0x00010000 = true ∧ CmdWord.wellFormed 0x00010000 = false ∧
    decode 0x00010000 = .illegal .reservedBits := by decide +kernel

theorem test_wf_opcode : CmdWord.badOpcode 0x00000009 = true ∧ CmdWord.wellFormed 0x00000009 = false ∧
    decode 0x00000009 = .illegal .unknownOpcode ∧ decode 0x00000072 = .illegal .unknownOpcode ∧
    decode 0x000000FF = .illegal .unknownOpcode ∧ decode 0x00000052 = .illegal .unknownOpcode := by decide +kernel

theorem test_wf_immediate : CmdWord.badImmediate 0x00000100 = true ∧ CmdWord.wellFormed 0x00000100 = false ∧
    decode 0x00000100 = .illegal .immediateNotZero ∧ decode 0x00000101 = .illegal .immediateNotZero := by decide +kernel

theorem test_wf_bit : CmdWord.badBitOperand 0x00000211 = true ∧ CmdWord.wellFormed 0x00000211 = false ∧
    decode 0x00000211 = .illegal .bitOperand ∧ CmdWord.wellFormed 0x00000111 = true := by decide +kernel

-- ## One word of every command, from the table of 30_encoding R63

theorem test_decode_control : decode 0x00000000 = .command .nop ∧ decode 0x00000001 = .command .srst ∧
    decode 0x00000002 = .command .smark ∧ decode 0x00000003 = .command .srew ∧ decode 0x00000004 = .command .setlen ∧
    decode 0x00004805 = .command (.putb 0x48) ∧ decode 0x00000006 = .command .getb ∧
    decode 0x00000007 = .command .putlen ∧ decode 0x00000008 = .command .getlen := by decide

theorem test_decode_bits : decode 0x00000010 = .command .bwinit ∧ decode 0x00000011 = .command (.bput false) ∧
    decode 0x00000111 = .command (.bput true) ∧ decode 0x00000012 = .command .bflush ∧
    decode 0x00000013 = .command .brinit ∧ decode 0x00000014 = .command .bget := by decide

theorem test_decode_frequency : decode 0x00000020 = .command .fclr ∧ decode 0x00000021 = .command .fscan ∧
    decode 0x0000FF22 = .command (.fset 0xFF) ∧ decode 0x00006123 = .command (.fget 0x61) := by decide

theorem test_decode_tree : decode 0x00000030 = .command .tbuild ∧ decode 0x00000031 = .command .twrite ∧
    decode 0x00000032 = .command .tread ∧ decode 0x00000033 = .command .tcodes ∧
    decode 0x00004134 = .command (.clen 0x41) := by decide

theorem test_decode_vlc : decode 0x00006140 = .command (.putsym 0x61) ∧ decode 0x00000041 = .command .henc ∧
    decode 0x00000042 = .command .getsym ∧ decode 0x00000043 = .command .hdec := by decide

theorem test_decode_codec : decode 0x00004150 = .command (.renc 0x41) ∧ decode 0x00000051 = .command .rdec ∧
    decode 0x00000070 = .command .cmp ∧ decode 0x00000071 = .command .dcmp := by decide

theorem test_encode : encode (.putb 0x48) = 0x00004805 ∧ encode (.bput true) = 0x00000111 ∧
    encode (.fset 0xFF) = 0x0000FF22 ∧ encode .cmp = 0x00000070 := by decide

-- ## The first step after reset runs the command placed there

theorem test_first_step_decodes : decodeTableWord 32 0x00004805 = some (.putb 0x48) ∧
    decodeTableWord 32 0x00000071 = some .dcmp ∧ decodeTableWord 32 0x00000211 = none := by decide

theorem test_first_step_runs : stepped (State.reset.withFetchWord 32 0x00004805) (fun t => t.snk == [0x48]) ∧
    stepped (State.reset.withFetchWord 32 0x00000071) (fun t => t.eos && t.snk == []) ∧
    stepped (State.reset.withFetchWord 32 0x00000070) (fun t => t.run == .idle && t.snk == []) := by decide +kernel

-- ## Acceptance and the host port

/-- V-E5, V-E6, V-E7, V-E8. -/
theorem test_illegal_words :
    stepped (hosted [.issue 0x00000211]) (fun t => statusWord t == 0x00000102 && t.einfo == 0x00000211) ∧
    stepped (hosted [.issue 0x00000100]) (fun t => t.einfo == 0x00000100) ∧
    stepped (hosted [.issue 0x00010000]) (fun t => t.einfo == 0x00010000) ∧
    stepped (hosted [.issue 0x00000009]) (fun t => t.einfo == 0x00000009) := by decide +kernel

/-- V-E10, V-E11, P5 steps 2 to 4. -/
theorem test_refused_in_fault :
    stepped (faulted [.issue 0xFFFFFFFF]) (fun t => statusWord t == 0x00000402 && t.einfo == 0x58) ∧
    stepped (faulted [.issue 0x00000101]) (fun t => statusWord t == 0x00000402) ∧
    stepped (faulted [.issue 0x00000001]) (fun t => statusWord t == 0 && t.einfo == 0) := by decide +kernel

/-- 20_memory R48, 10_state R26. -/
theorem test_host_actions :
    stepped (hosted [.loadSource [0x61]]) (fun t => t.src == { data := [0x61], pos := 0, mark := 0 }) ∧
    stepped { hosted [.takeSink] with snk := [0x05] } (fun t => t.snk == [] && t.answers == [.sink [0x05]]) ∧
    stepped { hosted [.writeCsr 3 0x00000001] with arg := 5 } (fun t => t.arg == 0x100000005) := by decide +kernel

-- ## One step of each command

/-- R90, V-K1. -/
theorem test_nop : after .nop State.reset (fun t => statusWord t == 0) := by decide +kernel

/-- V-K13. -/
theorem test_srst : after .srst { faulted [] with arg := 7, res := 3, freq := table [(0x61, 5)], snk := [0x48] }
    (fun t => statusWord t == 0 && t.einfo == 0 && t.res == 0 && tget t.freq 0x61 == 0 && t.arg == 7 && t.snk == [0x48]) := by
  decide +kernel

/-- V-K11. -/
theorem test_smark : after .smark { ready [0x61, 0x62, 0x63] with src := { data := [0x61, 0x62, 0x63], pos := 1, mark := 0 } }
    (fun t => t.src.mark == 1 && t.src.pos == 1) := by decide +kernel

/-- V-K11. -/
theorem test_srew : after .srew { ready [] with src := { data := [0x61, 0x62, 0x63], pos := 3, mark := 1 } }
    (fun t => t.src.pos == 1 && t.src.mark == 1) := by decide +kernel

/-- V-K3. -/
theorem test_setlen_fault : after .setlen { State.reset with arg := 0x100000000, len := 9 }
    (fun t => statusWord t == 0x00000902 && t.einfo == 1 && t.len == 9) := by decide +kernel

/-- V-K4. -/
theorem test_setlen_largest : after .setlen { State.reset with arg := 0xFFFFFFFF }
    (fun t => t.len == 0xFFFFFFFF && t.run == .idle) := by decide +kernel

/-- V-K12, first half: the byte overtakes the pending bit. -/
theorem test_putb : after (.putb 0xAA) { State.reset with wbuf := 1, wcnt := 1 }
    (fun t => t.snk == [0xAA] && bstatWord t == 0x00000101) := by decide +kernel

/-- V-K9. -/
theorem test_getb : after .getb (ready [0x52]) (fun t => t.res == 0x52 && !t.eos && t.src.pos == 1) ∧
    after .getb { ready [] with res := 0x52 } (fun t => t.res == 0x52 && statusWord t == 0x00000004) := by decide +kernel

/-- V-K6. -/
theorem test_putlen : after .putlen { State.reset with len := 0x12345678 } (fun t => t.snk == [0x78, 0x56, 0x34, 0x12]) := by
  decide +kernel

/-- V-K7. -/
theorem test_getlen : after .getlen (ready [0xE8, 0x03, 0x00, 0x00]) (fun t => t.len == 1000 && t.src.pos == 4) := by
  decide +kernel

/-- V-K8. -/
theorem test_getlen_short : after .getlen { ready [0xE8, 0x03] with len := 7 }
    (fun t => statusWord t == 0x00000502 && t.einfo == 2 && t.src.pos == 2 && t.len == 7) := by decide +kernel

/-- V-B9. -/
theorem test_bwinit : after .bwinit { State.reset with wbuf := 3, wcnt := 2 } (fun t => bstatWord t == 0 && t.snk == []) := by
  decide +kernel

/-- V-B1, third bit. -/
theorem test_bput : after (.bput true) { State.reset with wbuf := 0x01, wcnt := 2 } (fun t => bstatWord t == 0x00000305) := by
  decide +kernel

/-- V-B3, the eighth bit. -/
theorem test_bput_eighth : after (.bput false) { State.reset with wbuf := 0x53, wcnt := 7 }
    (fun t => t.snk == [0x53] && bstatWord t == 0) := by decide +kernel

/-- V-B2, V-B5. -/
theorem test_bflush : after .bflush { State.reset with wbuf := 5, wcnt := 3 } (fun t => t.snk == [0x05] && bstatWord t == 0) ∧
    after .bflush State.reset (fun t => t.snk == [0x00]) := by decide +kernel

/-- V-B7. -/
theorem test_brinit : after .brinit { State.reset with rbuf := 0x29, rcnt := 7 } (fun t => bstatWord t == 0) := by
  decide +kernel

/-- V-B7, first and second read. -/
theorem test_bget : after .bget (ready [0x53, 0x80]) (fun t => t.res == 1 && bstatWord t == 0x07290000 && t.src.pos == 1) ∧
    after .bget { ready [] with src := { data := [0x53, 0x80], pos := 1, mark := 0 } }
      (fun t => t.res == 0 && bstatWord t == 0x07400000 && t.src.pos == 2) := by decide +kernel

/-- V-B8. -/
theorem test_bget_end : after .bget { ready [] with res := 1 } (fun t => t.eos && t.res == 1 && t.rcnt == 0) := by
  decide +kernel

/-- V-F7. -/
theorem test_fclr : after .fclr { State.reset with freq := table [(0x61, 5)], len := 11 }
    (fun t => tget t.freq 0x61 == 0 && t.len == 11) := by decide +kernel

/-- V-F1. -/
theorem test_fscan : after .fscan { ready abra with freq := table [(0x7A, 2)] }
    (fun t => tget t.freq 0x61 == 5 && tget t.freq 0x72 == 2 && tget t.freq 0x7A == 0 && t.len == 11 && t.src.pos == 11) := by decide +kernel

/-- V-F4, V-F5. -/
theorem test_fset : after (.fset 0x61) { State.reset with arg := 5 } (fun t => tget t.freq 0x61 == 5 && kregWord t == 1) ∧
    after (.fset 0x61) { State.reset with freq := table [(0x61, 5)] } (fun t => tget t.freq 0x61 == 0) := by decide +kernel

/-- V-F6. -/
theorem test_fget : after (.fget 0x10) { State.reset with freq := table [(0x10, 0xFFFFFFFFFFFFFFFF)] }
    (fun t => csrValue .resLo t == 0xFFFFFFFF && csrValue .resHi t == 0xFFFFFFFF) := by decide +kernel

/-- V-T1, V-T3: the leaf of weight 2 beats the merged entry of weight 2. -/
theorem test_tbuild : after .tbuild { State.reset with freq := table [(0x61, 5), (0x62, 2), (0x63, 1), (0x64, 1), (0x72, 2)] }
      (fun t => t.tree == some abraTree && statusWord t == 0x00000008) ∧
    after .tbuild { State.reset with freq := table [(0x41, 2), (0x42, 1), (0x43, 1)] }
      (fun t => t.tree == some (.node (.leaf 0x41) (.node (.leaf 0x42) (.leaf 0x43)))) := by decide +kernel

/-- V-T7: the sum 2^64 is exact. -/
theorem test_tbuild_exact : after .tbuild { State.reset with
      freq := table [(0x10, 0xFFFFFFFFFFFFFFFF), (0x20, 0xFFFFFFFFFFFFFFFF), (0x30, 1)] }
    (fun t => t.tree == some (.node (.leaf 0x20) (.node (.leaf 0x30) (.leaf 0x10)))) := by decide +kernel

/-- V-T1. -/
theorem test_twrite : after .twrite (coded []) (fun t => t.snk == abraBytes) := by decide +kernel

/-- V-T12. -/
theorem test_twrite_no_tree : after .twrite State.reset (fun t => statusWord t == 0x00000202 && t.einfo == 2 && t.snk == []) := by
  decide +kernel

/-- V-T9, V-T22. -/
theorem test_tread : after .tread (ready abraBytes)
      (fun t => t.tree == some abraTree && t.src.pos == 38 && statusWord t == 0x00000008) ∧
    after .tread (ready [0x00, 0x00, 0x05, 0x01, 0x00, 0x01, 0x00, 0x01, 0x62, 0x00, 0x00, 0x01, 0x00, 0x01])
      (fun t => t.tree == some (.node (.leaf 0x05) (.leaf 0x62))) := by decide +kernel

/-- V-T17, V-T18, V-T25. -/
theorem test_tread_faults :
    after .tread (ready [0x00, 0x00, 0x61, 0x00, 0x00, 0x01, 0x00, 0x01, 0x00, 0x01])
      (fun t => t.err == 6 && t.einfo == 3 && t.src.pos == 10) ∧
    after .tread (ready [0x00, 0x00, 0x61, 0x00, 0x00, 0x01, 0x00])
      (fun t => statusWord t == 0x00000502 && t.einfo == 0x21 && t.src.pos == 7) ∧
    after .tread (coded [0x00, 0x01]) (fun t => statusWord t == 0x00000602 && t.einfo == 1) := by decide +kernel

/-- V-T1. -/
theorem test_tcodes : after .tcodes { State.reset with tree := some abraTree }
    (fun t => (t.code.map fun c => (tget c 0x61, tget c 0x64, tget c 0x72, tget c 0x7A)) ==
      some (some [false], some [true, false, true], some [true, true, true], none)) := by decide +kernel

/-- V-T23: of two leaves of one byte the last in preorder. -/
theorem test_tcodes_duplicate : after .tcodes { State.reset with tree := some (.node (.leaf 0x61) (.leaf 0x61)) }
    (fun t => (t.code.map fun c => tget c 0x61) == some (some [true])) := by decide +kernel

/-- V-T14. -/
theorem test_clen : after (.clen 0x61) (coded []) (fun t => t.res == 0x101) ∧
    after (.clen 0x72) (coded []) (fun t => t.res == 0x103) ∧ after (.clen 0x7A) (coded []) (fun t => t.res == 0) := by
  decide +kernel

/-- V-H1, the second symbol. -/
theorem test_putsym : after (.putsym 0x62) { coded [] with wbuf := 0, wcnt := 1 }
    (fun t => bstatWord t == 0x00000406 && t.snk == []) := by decide +kernel

/-- V-H12. -/
theorem test_putsym_no_code : after (.putsym 0x41) State.reset (fun t => t.err == 2 && t.einfo == 3) := by decide +kernel

/-- V-H2. -/
theorem test_henc : after .henc (coded abra)
    (fun t => t.snk == [0x76, 0x51] && bstatWord t == 0x0000073B && t.src.pos == 11) := by decide +kernel

/-- V-H11. -/
theorem test_henc_no_code : after .henc
      { ready [0x61, 0x62, 0x63, 0x61] with tree := some abTree, code := some (codeTable abTree) }
    (fun t => statusWord t == 0x0000081A && t.einfo == 0x63 && t.src.pos == 3 && t.wbuf == 2 && t.wcnt == 2 && t.snk == []) := by
  decide +kernel

/-- V-H4, the second symbol. -/
theorem test_getsym : after .getsym { coded [] with rbuf := 0x3B, rcnt := 7 } (fun t => t.res == 0x62 && t.rcnt == 4) := by
  decide +kernel

/-- V-H6. -/
theorem test_getsym_end : after .getsym { coded [] with res := 0x61 }
    (fun t => statusWord t == 0x0000051A && t.einfo == 0x30 && t.res == 0x61) := by decide +kernel

/-- V-H7. -/
theorem test_hdec : after .hdec { coded [0x76, 0x51, 0x3B] with len := 11 }
    (fun t => t.snk == abra && bstatWord t == 0x01000000 && t.src.pos == 3) := by decide +kernel

/-- V-H10. -/
theorem test_hdec_truncated : after .hdec { coded [0x76, 0x51, 0x3B] with len := 13 }
    (fun t => t.snk == abra ++ [0x61] && t.err == 5 && t.einfo == 0x30) := by decide +kernel

/-- V-R1. -/
theorem test_renc : after (.renc 0x41) { State.reset with len := 1000 } (fun t => t.snk == [0xE8, 0x03, 0x00, 0x00, 0x41]) := by
  decide +kernel

/-- V-R5. -/
theorem test_rdec : after .rdec (ready [0x03, 0x00, 0x00, 0x00, 0x7A, 0x99])
    (fun t => t.snk == [0x7A, 0x7A, 0x7A] && t.src.pos == 5) := by decide +kernel

/-- V-R7. -/
theorem test_rdec_no_value : after .rdec (ready [0x03, 0x00, 0x00, 0x00])
    (fun t => t.err == 5 && t.einfo == 0x10 && t.len == 3 && t.snk == []) := by decide +kernel

/-- V-C1. -/
theorem test_cmp : after .cmp (ready abra)
    (fun t => t.snk == [0x48, 0x0B, 0x00, 0x00, 0x00] ++ abraBytes ++ [0x76, 0x51, 0x3B] && statusWord t == 0x00000018 &&
      t.src.pos == 11 && bstatWord t == 0) := by decide +kernel

/-- V-C3, V-C7. -/
theorem test_cmp_small : after .cmp (ready [0x61]) (fun t => t.snk == [0x52, 0x01, 0x00, 0x00, 0x00, 0x61]) ∧
    after .cmp (ready [0x61, 0x61, 0x62]) (fun t => t.snk ==
      [0x48, 0x03, 0x00, 0x00, 0x00, 0x00, 0x00, 0x62, 0x00, 0x00, 0x01, 0x00, 0x01, 0x61, 0x00, 0x00, 0x01, 0x00, 0x01, 0x03]) := by
  decide +kernel

/-- V-C12. -/
theorem test_dcmp : after .dcmp (ready
      [0x48, 0x03, 0x00, 0x00, 0x00, 0x00, 0x00, 0x61, 0x00, 0x00, 0x01, 0x00, 0x01, 0x62, 0x00, 0x00, 0x01, 0x00, 0x01, 0xFE])
    (fun t => t.snk == [0x61, 0x62, 0x62] && t.run == .idle && t.rcnt == 5 && t.rbuf == 0x1F && t.src.pos == 20) := by
  decide +kernel

/-- V-C13, V-C16. -/
theorem test_dcmp_faults : after .dcmp (ready [0x58])
      (fun t => statusWord t == 0x00000402 && t.einfo == 0x58 && t.res == 0x58 && t.snk == [] && t.src.pos == 1) ∧
    after .dcmp (ready [0x48, 0x0B, 0x00]) (fun t => t.err == 5 && t.einfo == 2 && t.src.pos == 3 && t.len == 0) := by
  decide +kernel

-- ## Witnesses: states and operands that meet the hypotheses of the statements, clause by clause

theorem witness_EncodeDecodeRoundTrip : decode 0x00004805 = .command (.putb 0x48) := by decide

/-- A word for each ground of R65, issued in IDLE. -/
theorem witness_IllegalWordsFaultWithTheWord :
    (hosted [.issue 0x00000211]).script = .issue 0x00000211 :: [] ∧ (hosted [.issue 0x00000211]).run = .idle ∧
    decode 0x00000211 = .illegal .bitOperand ∧ decode 0x00000100 = .illegal .immediateNotZero ∧
    decode 0x00000009 = .illegal .unknownOpcode ∧ decode 0x00010000 = .illegal .reservedBits := by decide

theorem witness_StepRunsTheIssuedCommand :
    (hosted [.issue 0x00000070]).script = .issue 0x00000070 :: [] ∧ (hosted [.issue 0x00000070]).run = .idle ∧
    decode 0x00000070 = .command .cmp ∧ State.reset.run = .idle := by decide

theorem witness_FaultStateRefusesAllButSrst :
    (faulted []).run = .fault ∧ (faulted [.issue 0x00000000]).script = .issue 0x00000000 :: [] ∧
    (faulted [.issue 0x00000101]).script = .issue 0x00000101 :: [] ∧ (0x00000101 : Word) ≠ 0x00000001 ∧
    (faulted [.issue 0x00000001]).script = .issue 0x00000001 :: [] ∧
    (faulted [.writeArg 7]).script = .writeArg 7 :: [] ∧ (faulted [.readCsr 1]).script = .readCsr 1 :: [] := by decide

theorem witness_FirstFaultIsKept :
    (faulted [.issue 0xFFFFFFFF]).run = .fault ∧ (faulted [.issue 0xFFFFFFFF]).script = .issue 0xFFFFFFFF :: [] ∧
    stepped (faulted [.issue 0xFFFFFFFF]) (fun t => t.err == 4) ∧ HostAction.issue 0xFFFFFFFF ≠ .reset ∧
    HostAction.issue 0xFFFFFFFF ≠ .issue 0x00000001 ∧
    ∀ k, HostAction.issue 0xFFFFFFFF = .writeCsr k 0x00000001 → k ≠ 0 := by
  refine ⟨rfl, rfl, by decide +kernel, by decide, by decide, ?_⟩
  intro k h
  cases h

theorem witness_HardwareResetState : (faulted [.reset]).script = .reset :: [] ∧ (busy [.reset]).script = .reset :: [] := by
  decide

theorem witness_HostActionEffects :
    (faulted []).run ≠ .busy ∧ (hosted []).run ≠ .busy ∧ (hosted [.loadSource [0x61]]).script = .loadSource [0x61] :: [] ∧
    (hosted [.takeSink]).script = .takeSink :: [] ∧ (hosted [.writeArg 7]).script = .writeArg 7 :: [] ∧
    (hosted [.issue 0]).script = .issue 0 :: [] ∧ (hosted [.writeCsr 0 0]).script = .writeCsr 0 0 :: [] ∧
    (hosted [.readCsr 63]).script = .readCsr 63 :: [] ∧ (faulted [.reset]).script = .reset :: [] := by decide

/-- The boundary indices: 10 and 63 reserved, 1 and 9 read-only, 2 and 3 the halves of ARG. -/
theorem witness_CsrMapAndAccess :
    (10 : BitVec 6) ≤ 10 ∧ (10 : BitVec 6) ≤ 63 ∧ (hosted []).run ≠ .busy ∧
    (hosted [.writeCsr 2 5]).script = .writeCsr 2 5 :: [] ∧ (hosted [.writeCsr 3 5]).script = .writeCsr 3 5 :: [] ∧
    (hosted [.writeCsr 1 5]).script = .writeCsr 1 5 :: [] ∧ (hosted [.writeCsr 63 5]).script = .writeCsr 63 5 :: [] ∧
    (1 : BitVec 6) ≠ 0 ∧ (1 : BitVec 6) ≠ 2 ∧ (1 : BitVec 6) ≠ 3 ∧ (63 : BitVec 6) ≠ 0 := by decide

theorem witness_BusyAndIdleHostMoves :
    State.reset.script = [] ∧ (busy []).run = .busy ∧ (busy [.issue 0]).script = .issue 0 :: [] ∧
    (busy [.readCsr 1]).script = .readCsr 1 :: [] ∧ (busy [.takeSink]).script = .takeSink :: [] ∧
    allowedWhileBusy .takeSink = false ∧ allowedWhileBusy (.readCsr 6) = false := by decide

/-- A state with tree, code table and both bit buffers in use satisfies the invariant. -/
theorem rich_inv : rich.Inv := by
  refine ⟨⟨by decide, by decide, by decide, by decide⟩, ⟨by decide, by decide⟩, ⟨by decide, by decide⟩, ?_, ?_, ?_⟩
  · intro t ht
    have : abTree = t := Option.some.inj ht
    rw [← this]
    decide
  · intro c hc
    have : codeTable abTree = c := Option.some.inj hc
    rw [← this]
    rfl
  · decide

theorem witness_EveryStepKeepsInvariant : rich.Inv ∧ ∃ t, step rich = .next t := ⟨rich_inv, _, rfl⟩

theorem witness_InvariantStatesNeverStop : rich.Inv := rich_inv

theorem witness_EveryCommandFrame : ∃ t, exec .cmp rich = .next t := ⟨_, rfl⟩

theorem witness_SourceIsFixedAndSinkOnlyGrows : ∃ t, exec .hdec rich = .next t := ⟨_, rfl⟩

/-- MAXLEN and MAXLEN + 1. -/
theorem witness_SetlenLoadsLenOrFaults :
    ({ State.reset with arg := 0xFFFFFFFF } : State).arg.toNat ≤ Config.maxLen ∧
    Config.maxLen < ({ State.reset with arg := 0x100000000 } : State).arg.toNat := by decide

theorem witness_GetbReadsAByteOrSetsEos : srcRest (ready [0x52]) = 0x52 :: [] ∧ srcRest (ready []) = [] := by decide

/-- Exactly four bytes, three, and none. -/
theorem witness_GetlenReadsAnInteger :
    srcRest (ready [0xE8, 0x03, 0x00, 0x00]) = 0xE8 :: 0x03 :: 0x00 :: 0x00 :: [] ∧
    (srcRest (ready [0xE8, 0x03, 0x00])).length < 4 ∧ (srcRest (ready [])).length < 4 := by decide

theorem witness_BputPlacesTheBit :
    ({ State.reset with wbuf := 0x3F, wcnt := 6 } : State).wcnt ≠ 7 ∧
    ({ State.reset with wbuf := 0x7F, wcnt := 7 } : State).wcnt = 7 ∧
    ({ State.reset with wbuf := 0x7F, wcnt := 7 } : State).WriterOk ∧ State.reset.WriterOk := by decide

theorem witness_BgetTakesTheLowBit :
    rich.rcnt ≠ 0 ∧ ({ State.reset with rbuf := 0xFF, rcnt := 8 } : State).rcnt ≠ 0 ∧ (ready [0x53]).rcnt = 0 ∧
    srcRest (ready [0x53]) = 0x53 :: [] ∧ srcRest (ready []) = [] := by decide

/-- The empty bit string gives one byte, 0x00. -/
theorem witness_WrittenBitsAreReadBack :
    State.reset.wbuf = 0 ∧ State.reset.wcnt = 0 ∧
    stepped (hosted [.issue 0x00000012]) (fun t => t.snk == [0x00]) ∧
    (ready [0x00]).rbuf = 0 ∧ (ready [0x00]).rcnt = 0 ∧ srcRest (ready [0x00]) = [0x00] := by decide +kernel

/-- MAXLEN bytes and MAXLEN + 1. -/
theorem witness_FscanCountsTheSource :
    srcLeft (ready (List.replicate Config.maxLen 0x41)) ≤ Config.maxLen ∧ srcLeft (ready []) ≤ Config.maxLen ∧
    (ready abra).src.pos ≤ (ready abra).src.data.length ∧
    Config.maxLen < srcLeft (ready (List.replicate (Config.maxLen + 1) 0x41)) := by
  have h : ∀ n, srcLeft (ready (List.replicate n 0x41)) = n := by
    intro n
    show (List.replicate n (0x41 : Byte)).length - 0 = n
    rw [List.length_replicate, Nat.sub_zero]
  rw [h, h]
  exact ⟨Nat.le_refl _, by decide, by decide, Nat.lt_succ_self _⟩

/-- K = 1 and K = 2. -/
theorem witness_TbuildBuildsOrFaults :
    kCount (table [(0x61, 7)]) < 2 ∧ 2 ≤ kCount (table [(0x00, 1), (0xFF, 1)]) := by decide +kernel

/-- Equal counts, and the larger byte value the rarer. -/
theorem witness_TbuildOrdersTwoSymbols :
    (0x00 : Byte) < 0xFF ∧ (∀ x, tget (table [(0x00, 1), (0xFF, 1)]) x ≠ 0 ↔ x = 0x00 ∨ x = 0xFF) ∧
    tget (table [(0x00, 1), (0xFF, 1)]) 0x00 ≤ tget (table [(0x00, 1), (0xFF, 1)]) 0xFF ∧
    (∀ x, tget (table [(0x61, 2), (0x62, 1)]) x ≠ 0 ↔ x = 0x61 ∨ x = 0x62) ∧
    tget (table [(0x61, 2), (0x62, 1)]) 0x62 < tget (table [(0x61, 2), (0x62, 1)]) 0x61 := by decide +kernel

theorem witness_TbuildMinimisesCodeLength :
    2 ≤ kCount (table [(0x00, 1), (0xFF, 1)]) ∧
    (Machine.Tree.node (.leaf 0xFF) (.leaf 0x00)).leaves.Perm (Machine.Tree.node (.leaf 0x00) (.leaf 0xFF)).leaves :=
  ⟨witness_TbuildBuildsOrFaults.2, List.Perm.swap _ _ _⟩

theorem witness_TbuildFollowsTheMergeRule :
    kCount (table [(0x61, 7)]) < 2 ∧ 2 ≤ kCount (table [(0x00, 1), (0xFF, 1)]) := witness_TbuildBuildsOrFaults

theorem witness_TwriteAppendsTheSerialisedTree : rich.tree = some abTree ∧ State.reset.tree = none := by decide

theorem witness_TreadReadsBackTheTree :
    abTree.valid = true ∧ srcRest (ready (serTree abTree)) = serTree abTree ++ [] ∧
    ¬((0x99 : Byte) = 0x00 ∧ (0x37 : Byte) = 0x01) ∧ ¬((0x05 : Byte) = 0x00 ∧ (0x01 : Byte) = 0x01) ∧
    srcRest (ready [0x99, 0x37, 0x05, 0x01, 0x00, 0x01, 0x00, 0x01, 0x62, 0x00, 0x00, 0x01, 0x00, 0x01]) =
      [0x99, 0x37] ++ [0x05, 0x01, 0x00, 0x01, 0x00, 0x01] ++ [0x62, 0x00, 0x00, 0x01, 0x00, 0x01] ++ [] := by decide

/-- A chain of n internal nodes, each with a leaf on its left (43_tree R157). -/
def chain : Nat → Tree
  | 0 => .leaf 0x41
  | n + 1 => .node (.leaf 0x42) (chain n)

/-- Cut at its 9th byte, the serialised tree with leaves 61 and 62; 255 internal nodes are 511 nodes, 256 are too many; a
child on either side alone. -/
theorem witness_TreadFaultsOnUnusableTrees :
    abTree.nodes ≤ Config.nodeCap ∧
    serTree abTree = [0x00, 0x00, 0x61, 0x00, 0x00, 0x01, 0x00, 0x01, 0x62] ++ [0x00, 0x00, 0x01, 0x00, 0x01] ∧
    srcRest (ready [0x00, 0x00, 0x61, 0x00, 0x00, 0x01, 0x00, 0x01, 0x62]) =
      [0x00, 0x00, 0x61, 0x00, 0x00, 0x01, 0x00, 0x01, 0x62] ∧
    (chain 255).nodes = Config.nodeCap ∧ Config.nodeCap < (chain 256).nodes ∧
    (Tree.leaf 0x61).nodes < Config.nodeCap ∧ ¬((0x00 : Byte) = 0x00 ∧ (0x00 : Byte) = 0x01) ∧
    srcRest (ready ([0x00, 0x00] ++ serTree (.leaf 0x61) ++ [0x00, 0x01])) =
      [0x00, 0x00] ++ serTree (.leaf 0x61) ++ [0x00, 0x01] ++ [] ∧
    srcRest (ready ([0x00, 0x00] ++ [0x00, 0x01] ++ serTree (.leaf 0x61))) =
      [0x00, 0x00] ++ [0x00, 0x01] ++ serTree (.leaf 0x61) ++ [] ∧
    srcRest (ready [0x00, 0x01]) = [0x00, 0x01] ++ [] ∧
    srcRest (ready [0x61, 0x00, 0x00, 0x01, 0x00, 0x01]) = [0x61, 0x00, 0x00, 0x01, 0x00, 0x01] ++ [] := by decide +kernel

/-- A source of the large tree. -/
theorem witness_TreadFaultsOnLargeTrees : srcRest (ready (serTree (chain 256))) = serTree (chain 256) ++ [] :=
  (List.append_nil _).symm

/-- A nested node with a right child only: the fault comes when its second child has been read (R149). -/
theorem witness_ReadsNode :
    ReadsNode 0 [0x00, 0x00, 0x61, 0x00, 0x00, 0x01, 0x00, 0x01, 0x62, 0x00, 0x00, 0x01, 0x63, 0x00, 0x00, 0x01, 0x00, 0x01]
      18 (.faults 0x06 3) :=
  .rightFaults (n := 6) (m := 10) (c1 := 2) (by decide) (by decide)
    (.leaf (n := 2) (m := 2) (by decide) (by decide) (.absent 2 _) (.absent 2 _))
    (.unary (n := 2) (m := 6) (c1 := 3) (c2 := 4) (l := none) (r := some (.leaf 0x63)) (by decide) (by decide) (.absent 3 _)
      (.leaf (n := 2) (m := 2) (by decide) (by decide) (.absent 4 _) (.absent 4 _)) (by decide))

theorem witness_TreadFaultsOnOverflow :
    srcRest (ready (List.replicate 1024 0x00)) = List.replicate 1024 0x00 ++ [] := by
  rw [List.append_nil]
  rfl

theorem witness_TreadEndsWithAValidTreeOrAFault : rich.SourceOk ∧ (ready []).SourceOk := by decide

theorem witness_TcodesKeepsTheLastPath : rich.tree = some abTree ∧ State.reset.tree = none := by decide

theorem witness_CodesArePrefixFreeAndBounded :
    rich.Inv ∧ rich.code = some (codeTable abTree) ∧ (0x61 : Byte) ≠ 0x62 ∧
    tget (codeTable abTree) 0x61 = some [false] ∧ tget (codeTable abTree) 0x62 = some [true] :=
  ⟨rich_inv, rfl, by decide, by decide +kernel, by decide +kernel⟩

theorem witness_ClenReportsTheLength :
    rich.code = some (codeTable abTree) ∧ tget (codeTable abTree) 0x7A = none ∧
    tget (codeTable abTree) 0x62 = some [true] ∧ State.reset.code = none := ⟨rfl, by decide +kernel, by decide +kernel, rfl⟩

theorem witness_PutsymWritesTheCode :
    rich.code = some (codeTable abTree) ∧ tget (codeTable abTree) 0x62 = some [true] ∧ rich.WriterOk ∧
    tget (codeTable abTree) 0x7A = none ∧ State.reset.code = none :=
  ⟨rfl, by decide +kernel, by decide, by decide +kernel, rfl⟩

/-- "ab" has codes; in "abc" the third byte has none. -/
theorem witness_HencEncodesTheSource :
    (coded []).code = some (codeTable abraTree) ∧ (coded []).WriterOk ∧
    (∀ x ∈ srcRest (coded [0x61, 0x62]), (tget (codeTable abraTree) x).isSome) ∧
    srcRest (coded [0x61, 0x62, 0x7A]) = [0x61, 0x62] ++ 0x7A :: [] ∧
    (∀ y ∈ ([0x61, 0x62] : List Byte), (tget (codeTable abraTree) y).isSome) ∧
    tget (codeTable abraTree) 0x7A = none ∧ State.reset.code = none :=
  ⟨rfl, by decide, by decide +kernel, by decide, by decide +kernel, by decide +kernel, rfl⟩

/-- The code of 0x62 across the reader and the source, and bits that end inside a code. -/
theorem witness_GetsymFollowsTheBits :
    (coded []).tree = some abraTree ∧ ({ coded [0x01] with rbuf := 0x03, rcnt := 2 } : State).ReaderOk ∧
    (0x72, [true, true, true]) ∈ derive abraTree [] ∧
    unreadBits { coded [0x01] with rbuf := 0x03, rcnt := 2 } =
      [true, true, true] ++ [false, false, false, false, false, false, false] ∧
    ({ coded [] with rbuf := 0x03, rcnt := 2 } : State).ReaderOk ∧
    (∀ a ∈ derive abraTree [], ¬ a.2 <+: unreadBits { coded [] with rbuf := 0x03, rcnt := 2 }) ∧
    State.reset.tree = none := by decide +kernel

/-- The payload of V-C28: two leaves 61, of which TCODES keeps the second path. -/
def twins : State := { ready [0x05] with tree := some (.node (.leaf 0x61) (.leaf 0x61)), len := 3 }

theorem witness_HdecDecodesLenSymbols :
    twins.tree = some (.node (.leaf 0x61) (.leaf 0x61)) ∧ twins.ReaderOk ∧
    twins.len.toNat = ([(0x61, [true]), (0x61, [false]), (0x61, [true])] : List (Byte × List Bit)).length ∧
    (∀ a ∈ ([(0x61, [true]), (0x61, [false]), (0x61, [true])] : List (Byte × List Bit)),
      a ∈ derive (.node (.leaf 0x61) (.leaf 0x61)) []) ∧
    unreadBits twins = ([(0x61, [true]), (0x61, [false]), (0x61, [true])] : List (Byte × List Bit)).flatMap Prod.snd ++
      [false, false, false, false, false] ∧
    (coded []).len.toNat = ([] : List (Byte × List Bit)).length ∧
    unreadBits (coded []) = ([] : List (Byte × List Bit)).flatMap Prod.snd ++ [] := by decide +kernel

/-- V-C28. -/
theorem test_hdec_duplicate : after .hdec twins (fun t => t.snk == [0x61, 0x61, 0x61] && t.rcnt == 5) := by decide +kernel

theorem witness_HdecEmitsExactlyLenOrFaults :
    rich.tree = some abTree ∧ rich.ReaderOk ∧ State.reset.tree = none := by decide

/-- V-H2, V-H3 and V-H7. -/
theorem witness_EncodeDecodeLaw :
    (coded abra).code = some (codeTable abraTree) ∧ (coded abra).wbuf = 0 ∧ (coded abra).wcnt = 0 ∧
    srcLeft (coded abra) ≤ Config.maxLen ∧ (∀ x ∈ srcRest (coded abra), x ∈ abraTree.leaves) ∧
    ({ coded [0x76, 0x51, 0x3B] with len := 11 } : State).tree = some abraTree ∧
    ({ coded [0x76, 0x51, 0x3B] with len := 11 } : State).rbuf = 0 ∧
    ({ coded [0x76, 0x51, 0x3B] with len := 11 } : State).rcnt = 0 ∧
    ({ coded [0x76, 0x51, 0x3B] with len := 11 } : State).len = BitVec.ofNat 32 (srcLeft (coded abra)) ∧
    srcRest { coded [0x76, 0x51, 0x3B] with len := 11 } = [0x76, 0x51, 0x3B] ++ [] :=
  ⟨rfl, rfl, rfl, by decide, by decide, rfl, rfl, rfl, by decide, by decide⟩

/-- A whole record with a byte after it, three bytes of a count, and a count without its value. -/
theorem witness_RdecExpandsTheRunRecord :
    srcRest (ready [0x03, 0x00, 0x00, 0x00, 0x7A, 0x99]) = le32 3 ++ [0x7A] ++ [0x99] ∧
    (srcRest (ready [0x03, 0x00, 0x00])).length < 4 ∧ (srcRest (ready [])).length < 4 ∧
    srcRest (ready [0x03, 0x00, 0x00, 0x00]) = le32 3 := by decide

/-- LEN = 1000: the record RENC writes, with a byte after it. -/
theorem witness_RunLengthRoundTrip :
    after (.renc 0x41) { State.reset with len := 1000 } (fun t => t.snk == [0xE8, 0x03, 0x00, 0x00, 0x41]) ∧
    srcRest (ready [0xE8, 0x03, 0x00, 0x00, 0x41, 0x99]) = [0xE8, 0x03, 0x00, 0x00, 0x41] ++ [0x99] := by decide +kernel

theorem witness_CmpAppendsTheContainer :
    srcLeft (ready []) ≤ Config.maxLen ∧ srcLeft (ready abra) ≤ Config.maxLen ∧
    kCount (countsOf [0x61]) < 2 ∧ 2 ≤ kCount (countsOf [0x61, 0x62]) := by decide +kernel

theorem witness_CmpIsTheSequenceOfUnitCommands :
    srcLeft (ready abra) ≤ Config.maxLen ∧ srcRest (ready []) = [] ∧
    (srcRest (ready [0x61, 0x61]) ≠ [] ∧ ∀ x ∈ srcRest (ready [0x61, 0x61]), x = 0x61) ∧
    (∃ x ∈ srcRest (ready abra), ∃ y ∈ srcRest (ready abra), x ≠ y) := by decide

theorem witness_CmpRejectsOversizedInput :
    Config.maxLen < srcLeft (ready (List.replicate (Config.maxLen + 1) 0x41)) :=
  witness_FscanCountsTheSource.2.2.2

/-- No byte value, one, two. -/
theorem witness_ContainerKindAndLength :
    srcLeft (ready abra) ≤ Config.maxLen ∧ (srcRest (ready [])).toFinset.card = 0 ∧
    (srcRest (ready [0x61, 0x61])).toFinset.card = 1 ∧ 2 ≤ (srcRest (ready [0x61, 0x62])).toFinset.card := by decide

/-- The empty container, V-C31 and V-C4. -/
theorem witness_DcmpDecodesAContainer :
    srcRest (ready []) = container [] ++ [] ∧
    srcRest (ready [0x52, 0x03, 0x00, 0x00, 0x00, 0x7A, 0x99]) = container [0x7A, 0x7A, 0x7A] ++ [0x99] ∧
    srcRest (ready [0x48, 0x02, 0x00, 0x00, 0x00, 0x00, 0x00, 0x61, 0x00, 0x00, 0x01, 0x00, 0x01, 0x62, 0x00, 0x00, 0x01,
      0x00, 0x01, 0x02]) = container [0x61, 0x62] ++ [] ∧
    ([0x61, 0x62] : List Byte).length ≤ Config.maxLen ∧ ([0x7A, 0x7A, 0x7A] : List Byte).toFinset.card = 1 ∧
    2 ≤ ([0x61, 0x62] : List Byte).toFinset.card := by decide +kernel

/-- V-C3 compressed and loaded as a source. -/
theorem witness_CompressDecompressRoundTrip :
    srcLeft (ready [0x61]) ≤ Config.maxLen ∧
    after .cmp (ready [0x61]) (fun t => t.snk == [0x52, 0x01, 0x00, 0x00, 0x00, 0x61]) ∧
    (ready [0x52, 0x01, 0x00, 0x00, 0x00, 0x61]).src =
      { data := [0x52, 0x01, 0x00, 0x00, 0x00, 0x61], pos := 0, mark := 0 } := ⟨by decide, test_cmp_small.1, by decide⟩

theorem witness_DcmpRejectsAnUnknownTag :
    srcRest (ready [0x58]) = 0x58 :: [] ∧ (0x58 : Byte) ≠ 0x48 ∧ (0x58 : Byte) ≠ 0x52 ∧
    srcRest (ready [0x00]) = 0x00 :: [] ∧ (0x00 : Byte) ≠ 0x48 := by decide

theorem witness_DcmpPerformsItsUnitCommands :
    (ready [0x52]).run ≠ .fault ∧ (∃ t, execSeq [.bwinit, .brinit, .getb] (ready [0x52]) = .next t) ∧
    srcRest (ready [0x52]) = 0x52 :: [] ∧ srcRest (ready [0x48, 0x0B]) = 0x48 :: [0x0B] :=
  ⟨by decide, ⟨_, rfl⟩, by decide, by decide⟩

/-- Two states that share nothing but the unread source, [0x63]. -/
theorem witness_CmpDependsOnlyOnTheSource :
    rich.Inv ∧ (hardReset (ready [0x63])).Inv ∧ rich.run = .idle ∧ (hardReset (ready [0x63])).run = .idle ∧
    srcRest rich = srcRest (hardReset (ready [0x63])) :=
  ⟨rich_inv, inv_hardReset (by decide), rfl, rfl, by decide⟩

theorem witness_DcmpDependsOnlyOnTheSource :
    rich.Inv ∧ (hardReset (ready [0x63])).Inv ∧ rich.run = .idle ∧ (hardReset (ready [0x63])).run = .idle ∧
    srcRest rich = srcRest (hardReset (ready [0x63])) := witness_CmpDependsOnlyOnTheSource

end Sys2Proof.Tests
end

section
/-! PROOFS. What a step can do: the state each command ends in, and every way a host action can go (60_exceptions R213,
20_memory R48). -/

namespace Sys2Proof.Machine

/-- The state in which the Operation of a command ends. -/
def afterExec : Instr → State → State
  | .nop, s => s
  | .srst, s => softReset s
  | .smark, s => srcMark s
  | .srew, s => srcRewind s
  | .setlen, s => (opSetlen s).final
  | .putb imm, s => snkWrite imm s
  | .getb, s => opGetb s
  | .putlen, s => opPutlen s
  | .getlen, s => (opGetlen s).final
  | .bwinit, s => writerInit s
  | .bput b, s => putBit b s
  | .bflush, s => flush s
  | .brinit, s => readerInit s
  | .bget, s => opBget s
  | .fclr, s => s.setFreq zeroFreq
  | .fscan, s => (opFscan s).final
  | .fset imm, s => s.setFreq (tset s.freq imm s.arg)
  | .fget imm, s => s.setRes (tget s.freq imm)
  | .tbuild, s => (opTbuild s).final
  | .twrite, s => (opTwrite s).final
  | .tread, s => (opTread s).final
  | .tcodes, s => (opTcodes s).final
  | .clen imm, s => (opClen imm s).final
  | .putsym imm, s => (opPutsym imm s).final
  | .henc, s => (opHenc s).final
  | .getsym, s => (opGetsym s).final
  | .hdec, s => (opHdec s).final
  | .renc imm, s => opRenc imm s
  | .rdec, s => (opRdec s).final
  | .cmp, s => (opCmp s).final
  | .dcmp, s => (opDcmp s).final

/-- Every command ends in a next state: no arm of `exec` stops the machine. -/
theorem exec_eq (i : Instr) (s : State) : exec i s = .next (afterExec i s) := by cases i <;> rfl

theorem eq_afterExec {i : Instr} {s t : State} (h : exec i s = .next t) : t = afterExec i s :=
  (Host.Outcome.next.inj ((exec_eq i s).symm.trans h)).symm

/-- A word written to CMD changes nothing, runs a command, or faults as illegal (R213, R214). -/
theorem writeCmd_cases (w : Word) (s : State) :
    writeCmd w s = .next s ∨ (∃ i, writeCmd w s = .next (afterExec i s)) ∨
      writeCmd w s = .next (enterFault .illcmd w s) := by
  cases hr : s.run with
  | busy => exact .inl (by simp only [writeCmd, hr])
  | fault =>
    by_cases hw : w = srstWord
    · exact .inr (.inl ⟨.srst, by simp only [writeCmd, hr, hw, if_true]; rfl⟩)
    · exact .inl (writeCmd_refused hr hw)
  | idle =>
    cases hd : decode w with
    | command i => exact .inr (.inl ⟨i, (writeCmd_idle hr hd).trans (exec_eq i s)⟩)
    | illegal why => exact .inr (.inr (writeCmd_illegal hr hd))

/-- A CSR write issues the word to CMD, or changes nothing but ARG (10_state R26). -/
theorem csrWrite_cases (c : Csr) (v : Word) (s : State) : c = .cmd ∨ ∃ a, csrWrite c v s = .next (s.setArg a) := by
  cases c with
  | cmd => exact .inl rfl
  | argLo | argHi => exact .inr ⟨_, rfl⟩
  | _ => exact .inr ⟨s.arg, rfl⟩

/-- A step that answers has performed the host's first action, or there was none. -/
theorem step_cases {s t : State} (h : step s = .next t) :
    (s.script = [] ∧ t = s) ∨ ∃ a rest, s.script = a :: rest ∧ hostEffect a (s.setScript rest) = .next t := by
  cases hs : s.script with
  | nil => exact .inl ⟨rfl, (Host.Outcome.next.inj ((step_nil hs).symm.trans h)).symm⟩
  | cons a rest =>
    refine .inr ⟨a, rest, rfl, ?_⟩
    simp only [step, nextMove, hs, hostAct] at h
    split at h
    · cases h
    · exact h

-- ## The CSR map by word index (10_state R25)

theorem csrAt_eq_cmd : ∀ {k : BitVec 6}, csrAt k = .cmd ↔ k = 0 := by decide

theorem csrAt_eq_argLo : ∀ {k : BitVec 6}, csrAt k = .argLo ↔ k = 2 := by decide

theorem csrAt_eq_argHi : ∀ {k : BitVec 6}, csrAt k = .argHi ↔ k = 3 := by decide

theorem csrAt_reserved : ∀ {k : BitVec 6}, 10 ≤ k → csrAt k = .reserved := by decide

/-- A write to a read-only or reserved register is ignored (R26). -/
theorem csrWrite_ignored {c : Csr} (v : Word) (s : State) (h0 : c ≠ .cmd) (h2 : c ≠ .argLo) (h3 : c ≠ .argHi) :
    csrWrite c v s = .next s := by
  cases c with
  | cmd => exact absurd rfl h0
  | argLo => exact absurd rfl h2
  | argHi => exact absurd rfl h3
  | _ => rfl

theorem kCount_zeroFreq : kCount zeroFreq = 0 := by simp [kCount, present]

/-- Every CSR reads 0 after reset (R25, R30). -/
theorem csrValue_reset (c : Csr) : csrValue c State.reset = 0 := by
  cases c with
  | kreg => exact congrArg (BitVec.ofNat 32) kCount_zeroFreq
  | _ => decide

end Sys2Proof.Machine
end

section
/-! PROOFS. The invariant of every reachable state (10_state R32): every command, and with it every step, keeps it. -/

namespace Sys2Proof.Machine

theorem sourceOk_of_inv {s : State} : s.Inv → s.SourceOk := fun ⟨_, _, _, _, _, hsrc⟩ => hsrc

/-- Every command keeps the invariant. -/
theorem inv_afterExec {s : State} (h : s.Inv) : ∀ i : Instr, (afterExec i s).Inv
  | .nop => h
  | .srst => inv_softReset (sourceOk_of_inv h)
  | .smark => inv_srcMark h
  | .srew => inv_srcRewind h
  | .setlen => inv_opSetlen h
  | .putb imm => inv_snkWrite imm h
  | .getb => inv_opGetb h
  | .putlen => inv_opPutlen h
  | .getlen => inv_opGetlen h
  | .bwinit => inv_writerInit h
  | .bput b => inv_putBit b h
  | .bflush => inv_flush h
  | .brinit => inv_readerInit h
  | .bget => inv_opBget h
  | .fclr => inv_setFreq _ h
  | .fscan => inv_opFscan h
  | .fset _ => inv_setFreq _ h
  | .fget _ => inv_setRes _ h
  | .tbuild => inv_opTbuild h
  | .twrite => inv_opTwrite h
  | .tread => inv_opTread h
  | .tcodes => inv_opTcodes h
  | .clen imm => inv_opClen imm h
  | .putsym imm => inv_opPutsym imm h
  | .henc => inv_opHenc h
  | .getsym => inv_opGetsym h
  | .hdec => inv_opHdec h
  | .renc imm => inv_opRenc imm h
  | .rdec => inv_opRdec h
  | .cmp => inv_opCmp h
  | .dcmp => inv_opDcmp h

theorem inv_writeCmd {w : Word} {s t : State} (hs : s.Inv) (h : writeCmd w s = .next t) : t.Inv := by
  rcases writeCmd_cases w s with e | ⟨i, e⟩ | e <;> rw [e] at h <;> cases h
  · exact hs
  · exact inv_afterExec hs i
  · exact inv_enterFault _ _ hs

/-- Every host action keeps the invariant. -/
theorem inv_hostEffect {a : HostAction} {s t : State} (hs : s.Inv) (h : hostEffect a s = .next t) : t.Inv := by
  cases a with
  | loadSource bytes => cases h; exact inv_loadSource bytes hs
  | takeSink => cases h; exact inv_setSnk _ (inv_answer _ hs)
  | writeArg v => cases h; exact inv_setArg v hs
  | issue w => exact inv_writeCmd hs h
  | writeCsr k v =>
    rcases csrWrite_cases (csrAt k) v s with e | ⟨a, e⟩
    · rw [hostEffect, e] at h
      exact inv_writeCmd hs h
    · rw [hostEffect, e] at h
      cases h
      exact inv_setArg a hs
  | readCsr k => cases h; exact inv_answer _ hs
  | reset => cases h; exact inv_hardReset (sourceOk_of_inv hs)

/-- Settles O16: by the ways a step can go, each of which keeps the invariant. -/
theorem everyStepKeepsInvariant : Obligations.EveryStepKeepsInvariant := by
  intro s t hs h
  rcases step_cases h with ⟨-, rfl⟩ | ⟨a, rest, -, he⟩
  · exact hs
  · exact inv_hostEffect (inv_setScript rest hs) he

/-- Settles O15: hardware reset establishes the invariant from any sound source, and leaves the reset state as it is. -/
theorem resetSatisfiesInvariant : Obligations.ResetSatisfiesInvariant :=
  inv_hardReset (s := State.reset) ⟨Nat.le_refl _, Nat.le_refl _⟩

/-- A code of a valid tree has 1 to MAX_CODE_LEN bits: the root is internal, and there are at most 256 leaves
(R20, R157). -/
theorem code_bounds {T : Tree} {v : Byte} {p : List Bit} (hv : T.valid = true) (h : (v, p) ∈ derive T []) :
    1 ≤ p.length ∧ p.length ≤ Config.maxCodeLen := by
  obtain ⟨hroot, hsize⟩ := Bool.and_eq_true_iff.1 hv
  constructor
  · cases T with
    | leaf => cases hroot
    | node l r => rcases mem_derive_node h with ⟨q, rfl, -⟩ | ⟨q, rfl, -⟩ <;> exact Nat.succ_pos _
  · have hlt := code_length h
    have hleaves := nodes_leaves T
    have hcap : T.nodes ≤ 511 := of_decide_eq_true hsize
    change p.length ≤ 255
    omega

/-- Settles O41: the code table is the tree's, whose codes are the paths to its leaves. -/
theorem codesArePrefixFreeAndBounded : Obligations.CodesArePrefixFreeAndBounded := by
  intro s c ⟨_, _, _, htree, hcode, _⟩ hc
  obtain ⟨T, hT, rfl⟩ := Option.map_eq_some_iff.1 (hcode c hc)
  refine ⟨fun v p hp => ?_, fun u v p q hne hp hq hpre => ?_⟩
  · exact code_bounds (htree T hT) (codeTable_sound hp)
  · exact hne (derive_prefix_free (codeTable_sound hp) (codeTable_sound hq) hpre).2

end Sys2Proof.Machine
end

section
/-! PROOFS. The first fault (10_state R17), the moves in BUSY (R27) and the words the host reads (R13, R18,
R24 to R26). -/

namespace Sys2Proof.Machine

/-- STATE, ERR and EINFO are as they were. -/
def SameFault (s t : State) : Prop := t.run = s.run ∧ t.err = s.err ∧ t.einfo = s.einfo

theorem sameFault_writeCmd {w : Word} {s t : State} (hr : s.run = .fault) (hw : w ≠ srstWord)
    (h : writeCmd w s = .next t) : SameFault s t := by
  rw [writeCmd_refused hr hw] at h
  cases h
  exact ⟨rfl, rfl, rfl⟩

/-- In FAULT a host action that is neither a reset nor SRST, in either of its two spellings, leaves the fault
recorded. -/
theorem sameFault_hostEffect {a : HostAction} {s t : State} (hr : s.run = .fault) (h : hostEffect a s = .next t)
    (hreset : a ≠ .reset) (hissue : a ≠ .issue srstWord) (hcsr : ∀ k, a = .writeCsr k srstWord → k ≠ 0) :
    SameFault s t := by
  cases a with
  | loadSource _ | takeSink | writeArg _ | readCsr _ => cases h; exact ⟨rfl, rfl, rfl⟩
  | issue w => exact sameFault_writeCmd hr (fun e => hissue (congrArg _ e)) h
  | writeCsr k v =>
    rcases csrWrite_cases (csrAt k) v s with e | ⟨a, e⟩
    · rw [hostEffect, e] at h
      exact sameFault_writeCmd hr (fun ev => hcsr k (congrArg _ ev) (csrAt_eq_cmd.1 e)) h
    · rw [hostEffect, e] at h
      cases h
      exact ⟨rfl, rfl, rfl⟩
  | reset => exact absurd rfl hreset

/-- Settles O8: by cases on the host action the step performs. -/
theorem firstFaultIsKept : Obligations.FirstFaultIsKept := by
  intro s t a rest hr hs h hreset hissue hcsr
  rw [step_cons hs (by simp [hr])] at h
  obtain ⟨hrun, herr, heinfo⟩ := sameFault_hostEffect (s := s.setScript rest) hr h hreset hissue hcsr
  exact ⟨hrun.trans hr, herr, heinfo⟩

/-- Settles O14: a step in BUSY performs the actions that the spec admits and no other. -/
theorem busyAndIdleHostMoves : Obligations.BusyAndIdleHostMoves := by
  intro s rest
  refine ⟨step_nil, fun w hr hs => ?_, fun hr hs => ?_, fun a hr hs ha => ?_⟩
  · rw [step_busy hs hr, if_neg (by simp [allowedWhileBusy])]
    simp only [hostEffect, writeCmd, hr]
  · rw [step_busy hs hr, if_neg (by decide)]
    rfl
  · rw [step_busy hs hr, if_pos ha]

/-- Settles O11: the map index by index, and a write by the register it meets. -/
theorem csrMapAndAccess : Obligations.CsrMapAndAccess := by
  refine ⟨fun s => ⟨rfl, rfl, halves_append s.arg, halves_append s.res, rfl, rfl, rfl, rfl, fun k hk => ?_⟩,
    fun k => csrValue_reset _, fun s rest k v hr hs => ⟨fun hk => ?_, fun hk => ?_, fun h0 h2 h3 => ?_⟩⟩
  · rw [csrAt_reserved hk]
    rfl
  · subst hk
    exact ⟨argWithLow s.arg v, step_cons hs hr, low_of_append _ v, high_of_append _ v⟩
  · subst hk
    exact ⟨argWithHigh s.arg v, step_cons hs hr, high_of_append v _, low_of_append v _⟩
  · rw [step_cons hs hr, hostEffect,
      csrWrite_ignored v _ (h0 ∘ csrAt_eq_cmd.1) (h2 ∘ csrAt_eq_argLo.1) (h3 ∘ csrAt_eq_argHi.1)]

/-- Settles O13: K is the length of a filtered list of the 256 byte values, counted as a set. -/
theorem kregCountsNonzeroEntries : Obligations.KregCountsNonzeroEntries := by
  intro s
  have hle := kCount_le s.freq
  refine ⟨?_, ?_, hle⟩
  · rw [kCount, present, filter_allBytes_card]
    congr 1
    ext v
    simp [tget]
  · rw [kregWord, BitVec.toNat_ofNat, Nat.mod_eq_of_lt (by omega)]

-- ## STATUS and BSTAT as strings of fields, the highest first

theorem statusWord_field (s : State) (start len : Nat) : (statusWord s).extractLsb' start len =
    BitVec.extractLsb' start len ((0#16) ++ s.err ++ (0#3) ++ BitVec.ofBool (cvalid s) ++ BitVec.ofBool (tvalid s) ++
      BitVec.ofBool s.eos ++ runBits s.run) := rfl

theorem statusWord_bit (s : State) (i : Nat) : (statusWord s).getLsbD i =
    BitVec.getLsbD ((0#16) ++ s.err ++ (0#3) ++ BitVec.ofBool (cvalid s) ++ BitVec.ofBool (tvalid s) ++
      BitVec.ofBool s.eos ++ runBits s.run) i := rfl

theorem bstatWord_field (s : State) (start len : Nat) : (bstatWord s).extractLsb' start len =
    BitVec.extractLsb' start len ((0#4) ++ s.rcnt ++ s.rbuf ++ (0#4) ++ s.wcnt ++ s.wbuf) := rfl

/-- Settles O12: each field is found behind the fields below it. -/
theorem statusAndBstatFields : Obligations.StatusAndBstatFields := by
  intro s
  simp only [statusWord_field, statusWord_bit, bstatWord_field, BitVec.extractLsb'_append_eq_of_le,
    BitVec.extractLsb'_append_eq_right, BitVec.extractLsb'_eq_self, BitVec.getLsbD_append, BitVec.getLsbD_ofBool,
    Nat.reduceLeDiff, Nat.reduceLT, Nat.reduceSub, if_true, if_false, decide_true, Bool.true_and, true_and]
  exact ⟨by cases s.run <;> rfl, rfl, rfl, rfl, rfl, rfl, rfl⟩

end Sys2Proof.Machine
end

section
/-! PROOFS. Frames: what each command leaves unchanged (10_state R10, "written by"), the source's bytes (R28) and the
sink's old content (R29) among it. -/

namespace Sys2Proof.Machine

-- ## Frames of commands as relations

/-- Only what the command i may write differs (R10). -/
def FrameOf (i : Instr) (s t : State) : Prop := t = writableBy i s t

theorem frame_refl (i : Instr) (s : State) : FrameOf i s s := by cases i <;> rfl

theorem frame_trans {i : Instr} {s t u : State} (h1 : FrameOf i s t) (h2 : FrameOf i t u) : FrameOf i s u := by
  unfold FrameOf at *
  rw [h2, h1]
  cases i <;> rfl

theorem frame_bind {i : Instr} {α β : Type} {s : State} {r : CmdResult α} {k : α → State → CmdResult β}
    (hr : FrameOf i s r.final) (hk : ∀ a t, FrameOf i t (k a t).final) : FrameOf i s (r.bind k).final :=
  bind_frame (F := FrameOf i) frame_trans hr hk

/-- A command that may write all that i writes has the wider frame. -/
theorem frame_mono {i j : Instr} {s t : State} (h : FrameOf i s t) (hij : ∀ u, FrameOf j s (writableBy i s u)) :
    FrameOf j s t := by
  rw [h]
  exact hij t

/-- A command that may move SRC.pos and fault has the frame of the readers. -/
theorem frame_of_readFrame {i : Instr} {s t : State} (h : readFrame s t)
    (hi : ∀ u : State, FrameOf i s (mayFault (atPos s u.src.pos) u)) : FrameOf i s t := by
  unfold readFrame at h
  rw [h]
  exact hi t

-- ## The checks of the preconditions

section
variable (i : Instr) (hi : ∀ e w s, FrameOf i s (enterFault e w s))
include hi

theorem frame_requireTree (s : State) : FrameOf i s (requireTree s).final := by
  unfold requireTree
  split
  · exact frame_refl i s
  · exact hi _ _ s

theorem frame_requireCode (s : State) : FrameOf i s (requireCode s).final := by
  unfold requireCode
  split
  · exact frame_refl i s
  · exact hi _ _ s

theorem frame_requireCodeOf (c : CodeTable) (v : Byte) (s : State) : FrameOf i s (requireCodeOf c v s).final := by
  unfold requireCodeOf
  split
  · exact frame_refl i s
  · exact hi _ _ s

end

-- ## The frame of each operation

theorem frame_setlen (s : State) : FrameOf .setlen s (opSetlen s).final := by
  unfold opSetlen lenOperand
  split <;> rfl

theorem frame_getb (s : State) : FrameOf .getb s (opGetb s) := by
  rcases srcRead_cases s with ⟨h, -⟩ | ⟨b, rest, -, h, -⟩ <;> rw [opGetb, h] <;> rfl

theorem frame_putlen (s : State) : FrameOf .putlen s (opPutlen s) := by
  rw [opPutlen, snkWriteAll_eq]
  rfl

theorem frame_getlen (s : State) : FrameOf .getlen s (opGetlen s).final :=
  frame_bind (frame_of_readFrame (readFrame_readIntFrom 4 0 0 s) fun _ => rfl) fun _ _ => rfl

theorem frame_bput (b : Bit) (s : State) : FrameOf (.bput b) s (putBit b s) := by
  rw [putBit_frame b s]
  rfl

theorem frame_bget (s : State) : FrameOf .bget s (opBget s) := by
  cases h : getBit s with
  | none =>
    rw [opBget, h]
    rfl
  | some p =>
    obtain ⟨b, s'⟩ := p
    rw [opBget, h, getBit_frame h]
    rfl

theorem frame_fscan (s : State) : FrameOf .fscan s (opFscan s).final := by
  refine frame_bind ?_ fun _ _ => rfl
  have h := scanFrame_scanFrom (srcLeft s) 0 (s.setFreq zeroFreq)
  unfold scanFrame at h
  rw [h]
  rfl

theorem frame_tbuild (s : State) : FrameOf .tbuild s (opTbuild s).final := by
  unfold opTbuild
  split <;> rfl

theorem frame_twrite (s : State) : FrameOf .twrite s (opTwrite s).final :=
  frame_bind (frame_requireTree .twrite (fun _ _ _ => rfl) s) fun T t => by
    rw [final_done, emitTree_eq]
    rfl

theorem frame_tread (s : State) : FrameOf .tread s (opTread s).final := by
  refine frame_trans (t := s.setTree none) rfl (frame_bind ?_ fun p t => ?_)
  · exact frame_of_readFrame (readFrame_readNode _ _ _) fun _ => rfl
  · match p.1 with
    | none | some (.leaf _) | some (.node _ _) => rfl

theorem frame_tcodes (s : State) : FrameOf .tcodes s (opTcodes s).final :=
  frame_bind (frame_requireTree .tcodes (fun _ _ _ => rfl) s) fun _ _ => rfl

theorem frame_clen (v : Byte) (s : State) : FrameOf (.clen v) s (opClen v s).final :=
  frame_bind (frame_requireCode (.clen v) (fun _ _ _ => rfl) s) fun _ _ => rfl

theorem frame_putsym (v : Byte) (s : State) : FrameOf (.putsym v) s (opPutsym v s).final :=
  frame_bind (frame_requireCode (.putsym v) (fun _ _ _ => rfl) s) fun c t =>
    frame_bind (frame_requireCodeOf (.putsym v) (fun _ _ _ => rfl) c v t) fun p u => by
      rw [final_done, putBits_frame p u]
      rfl

theorem frame_henc (s : State) : FrameOf .henc s (opHenc s).final :=
  frame_bind (frame_requireCode .henc (fun _ _ _ => rfl) s) fun c t => encodeFrame_encodeFrom c (srcLeft t) t

/-- GETSYM's walk writes no byte (44_vlc R168). -/
theorem frame_decodeSym (T : Tree) (s : State) : FrameOf .getsym s (decodeSym T s).final := by
  obtain ⟨hsnk, h⟩ := decodeSym_frame T s
  unfold decodeFrame at h
  rw [hsnk] at h
  rw [h]
  rfl

theorem frame_getsym (s : State) : FrameOf .getsym s (opGetsym s).final :=
  frame_bind (frame_requireTree .getsym (fun _ _ _ => rfl) s) fun T t => frame_bind (frame_decodeSym T t) fun _ _ => rfl

theorem frame_hdec (s : State) : FrameOf .hdec s (opHdec s).final :=
  frame_bind (frame_requireTree .hdec (fun _ _ _ => rfl) s) fun T t => decodeFrame_decodeSyms T t.len.toNat t

theorem frame_renc (v : Byte) (s : State) : FrameOf (.renc v) s (opRenc v s) := by
  rw [opRenc, snkWriteAll_eq]
  rfl

theorem frame_rdec (s : State) : FrameOf .rdec s (opRdec s).final :=
  frame_bind (frame_mono (frame_getlen s) fun _ => rfl) fun _ t =>
    frame_bind (frame_of_readFrame (readFrame_srcReadOr 0x10 t) fun _ => rfl) fun v u => by
      rw [final_done, snkWriteAll_eq]
      rfl

/-- CMP's frame is the union of those of its unit commands (46_codec R191). -/
theorem frame_compressHuffman (s : State) : FrameOf .cmp s (compressHuffman s).final := by
  have htag : FrameOf .cmp s (opPutlen (snkWrite Config.tagH s)) :=
    frame_trans (t := snkWrite Config.tagH s) rfl (frame_mono (frame_putlen _) fun _ => rfl)
  refine frame_trans htag ?_
  exact frame_bind (frame_mono (frame_tbuild _) fun _ => rfl) fun _ t =>
    frame_bind (frame_mono (frame_twrite t) fun _ => rfl) fun _ t =>
    frame_bind (frame_mono (frame_tcodes t) fun _ => rfl) fun _ t =>
    frame_bind (frame_trans (t := srcRewind t) rfl (frame_mono (frame_henc _) fun _ => rfl)) fun _ _ => rfl

theorem frame_compressByK (s : State) : FrameOf .cmp s (compressByK s).final := by
  unfold compressByK
  split
  · rfl
  · exact frame_trans (t := snkWrite Config.tagR s) rfl (frame_mono (frame_renc _ _) fun _ => rfl)
  · exact frame_compressHuffman s

theorem frame_cmp (s : State) : FrameOf .cmp s (opCmp s).final :=
  frame_trans (t := clearBuffers (srcMark s)) rfl
    (frame_bind (frame_mono (frame_fscan _) fun _ => rfl) fun _ t => frame_compressByK t)

/-- DCMP's frame is the union of those of its unit commands (46_codec R194). -/
theorem frame_decompressHuffman (s : State) : FrameOf .dcmp s (decompressHuffman s).final :=
  frame_bind (frame_mono (frame_getlen s) fun _ => rfl) fun _ t =>
    frame_bind (frame_mono (frame_tread t) fun _ => rfl) fun _ t => frame_mono (frame_hdec t) fun _ => rfl

theorem frame_decompressByTag (s : State) : FrameOf .dcmp s (decompressByTag s).final := by
  unfold decompressByTag
  split
  · rfl
  split
  · exact frame_mono (frame_rdec s) fun _ => rfl
  split
  · exact frame_decompressHuffman s
  · rfl

theorem frame_dcmp (s : State) : FrameOf .dcmp s (opDcmp s).final :=
  frame_trans (t := opGetb (clearBuffers s))
    (frame_trans (t := clearBuffers s) rfl (frame_mono (frame_getb _) fun _ => rfl)) (frame_decompressByTag _)

/-- Every command keeps to its frame; those not named above write what they write outright. -/
theorem frame_afterExec (i : Instr) (s : State) : FrameOf i s (afterExec i s) := by
  cases i with
  | setlen => exact frame_setlen s
  | getb => exact frame_getb s
  | putlen => exact frame_putlen s
  | getlen => exact frame_getlen s
  | bput b => exact frame_bput b s
  | bget => exact frame_bget s
  | fscan => exact frame_fscan s
  | tbuild => exact frame_tbuild s
  | twrite => exact frame_twrite s
  | tread => exact frame_tread s
  | tcodes => exact frame_tcodes s
  | clen v => exact frame_clen v s
  | putsym v => exact frame_putsym v s
  | henc => exact frame_henc s
  | getsym => exact frame_getsym s
  | hdec => exact frame_hdec s
  | renc v => exact frame_renc v s
  | rdec => exact frame_rdec s
  | cmp => exact frame_cmp s
  | dcmp => exact frame_dcmp s
  | nop | srst | smark | srew | putb | bwinit | bflush | brinit | fclr | fset | fget => rfl

/-- Settles O18: by the frame of each command's operation. -/
theorem everyCommandFrame : Obligations.EveryCommandFrame := by
  intro i s t h
  rw [eq_afterExec h]
  exact frame_afterExec i s

end Sys2Proof.Machine
end

section
/-! PROOFS. The streams under a command: the source's bytes stay (10_state R28), the sink only grows at its end
(R29). -/

namespace Sys2Proof.Machine

/-- The sink of s is an initial segment of the sink of t (R29). -/
def SinkGrows (s t : State) : Prop := s.snk <+: t.snk

theorem sinkGrows_refl (s : State) : SinkGrows s s := List.prefix_rfl

theorem sinkGrows_trans {s t u : State} (h1 : SinkGrows s t) (h2 : SinkGrows t u) : SinkGrows s u :=
  List.IsPrefix.trans h1 h2

theorem sinkGrows_bind {α β : Type} {s : State} {r : CmdResult α} {k : α → State → CmdResult β}
    (hr : SinkGrows s r.final) (hk : ∀ a t, SinkGrows t (k a t).final) : SinkGrows s (r.bind k).final :=
  bind_frame (F := SinkGrows) sinkGrows_trans hr hk

/-- A piece in the frame of a command that does not write the sink leaves it as it was. -/
theorem sinkGrows_of_frame {i : Instr} {s t : State} (h : FrameOf i s t) (hi : ∀ u, (writableBy i s u).snk = s.snk) :
    SinkGrows s t := by
  rw [h, SinkGrows, hi]

theorem sinkGrows_snkWrite (b : Byte) (s : State) : SinkGrows s (snkWrite b s) := List.prefix_append _ _

theorem sinkGrows_snkWriteAll (l : List Byte) (s : State) : SinkGrows s (snkWriteAll l s) := by
  rw [snkWriteAll_eq]
  exact List.prefix_append _ _

theorem sinkGrows_putBit (b : Bit) (s : State) : SinkGrows s (putBit b s) := by
  by_cases h : s.wcnt = 7
  · rw [putBit_full b s h]
    exact sinkGrows_snkWrite _ s
  · rw [putBit_more b s h]
    exact sinkGrows_refl s

theorem sinkGrows_putBits : ∀ (p : List Bit) (s : State), SinkGrows s (putBits p s)
  | [], s => sinkGrows_refl s
  | b :: p, s => sinkGrows_trans (sinkGrows_putBit b s) (sinkGrows_putBits p _)

theorem sinkGrows_requireTree (s : State) : SinkGrows s (requireTree s).final :=
  sinkGrows_of_frame (frame_requireTree .tbuild (fun _ _ _ => rfl) s) fun _ => rfl

theorem sinkGrows_requireCode (s : State) : SinkGrows s (requireCode s).final :=
  sinkGrows_of_frame (frame_requireCode .tbuild (fun _ _ _ => rfl) s) fun _ => rfl

theorem sinkGrows_requireCodeOf (c : CodeTable) (v : Byte) (s : State) : SinkGrows s (requireCodeOf c v s).final :=
  sinkGrows_of_frame (frame_requireCodeOf .tbuild (fun _ _ _ => rfl) c v s) fun _ => rfl

theorem sinkGrows_opTwrite (s : State) : SinkGrows s (opTwrite s).final :=
  sinkGrows_bind (sinkGrows_requireTree s) fun T t => by
    rw [final_done, emitTree_eq]
    exact List.prefix_append _ _

theorem sinkGrows_opPutsym (v : Byte) (s : State) : SinkGrows s (opPutsym v s).final :=
  sinkGrows_bind (sinkGrows_requireCode s) fun c t =>
    sinkGrows_bind (sinkGrows_requireCodeOf c v t) fun p u => sinkGrows_putBits p u

theorem sinkGrows_encodeFrom (c : CodeTable) : ∀ (left : Nat) (s : State), SinkGrows s (encodeFrom c left s).final
  | 0, s => sinkGrows_refl s
  | left + 1, s => by
    rw [encodeFrom]
    rcases srcRead_cases s with ⟨h, -⟩ | ⟨b, rest, -, h, -⟩
    · rw [h]
      exact sinkGrows_refl s
    · rw [h]
      refine sinkGrows_trans (t := s.setPos (s.src.pos + 1)) (sinkGrows_refl s) ?_
      exact sinkGrows_bind (sinkGrows_requireCodeOf c b _) fun p u =>
        sinkGrows_trans (sinkGrows_putBits p u) (sinkGrows_encodeFrom c left _)

theorem sinkGrows_opHenc (s : State) : SinkGrows s (opHenc s).final :=
  sinkGrows_bind (sinkGrows_requireCode s) fun c t => sinkGrows_encodeFrom c _ t

theorem sinkGrows_decodeSyms (T : Tree) : ∀ (left : Nat) (s : State), SinkGrows s (decodeSyms T left s).final
  | 0, s => sinkGrows_refl s
  | left + 1, s => by
    rw [decodeSyms]
    exact sinkGrows_bind (sinkGrows_of_frame (frame_decodeSym T s) fun _ => rfl) fun v t =>
      sinkGrows_trans (sinkGrows_snkWrite v t) (sinkGrows_decodeSyms T left _)

theorem sinkGrows_opHdec (s : State) : SinkGrows s (opHdec s).final :=
  sinkGrows_bind (sinkGrows_requireTree s) fun T t => sinkGrows_decodeSyms T _ t

theorem sinkGrows_opRenc (v : Byte) (s : State) : SinkGrows s (opRenc v s) :=
  sinkGrows_trans (sinkGrows_snkWriteAll _ s) (sinkGrows_snkWrite v _)

theorem sinkGrows_opGetlen (s : State) : SinkGrows s (opGetlen s).final :=
  sinkGrows_of_frame (frame_getlen s) fun _ => rfl

theorem sinkGrows_srcReadOr (info : Word) (s : State) : SinkGrows s (srcReadOr info s).final :=
  sinkGrows_of_frame (frame_of_readFrame (i := .getlen) (readFrame_srcReadOr info s) fun _ => rfl) fun _ => rfl

theorem sinkGrows_opRdec (s : State) : SinkGrows s (opRdec s).final :=
  sinkGrows_bind (sinkGrows_opGetlen s) fun _ t =>
    sinkGrows_bind (sinkGrows_srcReadOr 0x10 t) fun _ u => sinkGrows_snkWriteAll _ u

theorem sinkGrows_compressHuffman (s : State) : SinkGrows s (compressHuffman s).final := by
  have htag : SinkGrows s (opPutlen (snkWrite Config.tagH s)) :=
    sinkGrows_trans (sinkGrows_snkWrite _ s) (sinkGrows_snkWriteAll _ _)
  refine sinkGrows_trans htag ?_
  exact sinkGrows_bind (sinkGrows_of_frame (frame_tbuild _) fun _ => rfl) fun _ t =>
    sinkGrows_bind (sinkGrows_opTwrite t) fun _ t =>
    sinkGrows_bind (sinkGrows_of_frame (frame_tcodes t) fun _ => rfl) fun _ t =>
    sinkGrows_bind (sinkGrows_opHenc (srcRewind t)) fun _ t => sinkGrows_snkWrite t.wbuf t

theorem sinkGrows_compressByK (s : State) : SinkGrows s (compressByK s).final := by
  unfold compressByK
  split
  · exact sinkGrows_refl s
  · exact sinkGrows_trans (sinkGrows_snkWrite _ s) (sinkGrows_opRenc _ _)
  · exact sinkGrows_compressHuffman s

theorem sinkGrows_opCmp (s : State) : SinkGrows s (opCmp s).final := by
  have hscan : SinkGrows (clearBuffers (srcMark s)) (opFscan (clearBuffers (srcMark s))).final :=
    sinkGrows_of_frame (frame_fscan _) fun _ => rfl
  exact sinkGrows_bind hscan fun _ t => sinkGrows_compressByK t

theorem sinkGrows_decompressHuffman (s : State) : SinkGrows s (decompressHuffman s).final :=
  sinkGrows_bind (sinkGrows_opGetlen s) fun _ t =>
    sinkGrows_bind (sinkGrows_of_frame (frame_tread t) fun _ => rfl) fun _ t => sinkGrows_opHdec t

theorem sinkGrows_decompressByTag (s : State) : SinkGrows s (decompressByTag s).final := by
  unfold decompressByTag
  split
  · exact sinkGrows_refl s
  split
  · exact sinkGrows_opRdec s
  split
  · exact sinkGrows_decompressHuffman s
  · exact sinkGrows_refl s

theorem sinkGrows_opDcmp (s : State) : SinkGrows s (opDcmp s).final := by
  have hgetb : SinkGrows (clearBuffers s) (opGetb (clearBuffers s)) := sinkGrows_of_frame (frame_getb _) fun _ => rfl
  exact sinkGrows_trans hgetb (sinkGrows_decompressByTag _)

/-- No command removes or changes a byte of the sink; the last cases do not write it at all. -/
theorem sinkGrows_afterExec (i : Instr) (s : State) : SinkGrows s (afterExec i s) := by
  have hframe := frame_afterExec i s
  cases i with
  | putb v => exact sinkGrows_snkWrite v s
  | putlen => exact sinkGrows_snkWriteAll _ s
  | bput b => exact sinkGrows_putBit b s
  | bflush => exact sinkGrows_snkWrite s.wbuf s
  | twrite => exact sinkGrows_opTwrite s
  | putsym v => exact sinkGrows_opPutsym v s
  | henc => exact sinkGrows_opHenc s
  | hdec => exact sinkGrows_opHdec s
  | renc v => exact sinkGrows_opRenc v s
  | rdec => exact sinkGrows_opRdec s
  | cmp => exact sinkGrows_opCmp s
  | dcmp => exact sinkGrows_opDcmp s
  | nop | srst | smark | srew | setlen | getb | getlen | bwinit | brinit | bget | fclr | fscan | fset | fget | tbuild
  | tread | tcodes | clen | getsym => exact sinkGrows_of_frame hframe fun _ => rfl

/-- No command may write the source's bytes (R28). -/
theorem writableBy_data (i : Instr) (s t : State) : (writableBy i s t).src.data = s.src.data := by cases i <;> rfl

/-- Settles O19: the source's bytes by the frame, the sink by what each command appends. -/
theorem sourceIsFixedAndSinkOnlyGrows : Obligations.SourceIsFixedAndSinkOnlyGrows := by
  intro i s t h
  rw [eq_afterExec h]
  refine ⟨?_, sinkGrows_afterExec i s⟩
  rw [frame_afterExec i s, writableBy_data]

end Sys2Proof.Machine
end

section
/-! PROOFS. The host's actions outside BUSY (20_memory R48): a step is the effect of the host's first action. -/

namespace Sys2Proof.Machine

/-- What HostRead hands back is the register's value before the step, which taking the action off the list leaves as it
was (R26, R48). -/
theorem step_readCsr {s : State} {k : BitVec 6} {rest : List HostAction} (h : s.script = .readCsr k :: rest)
    (hr : s.run ≠ .busy) :
    step s = .next { s with script := rest, answers := s.answers ++ [.csr (csrValue (csrAt k) s)] } := by
  rw [step_cons h hr, hostEffect, csrValue_script]
  rfl

/-- A CSR write at offset 0 is a write to CMD (R26, R48). -/
theorem step_writeCsr_zero {s : State} {w : Word} {rest : List HostAction} (h : s.script = .writeCsr 0 w :: rest)
    (hr : s.run ≠ .busy) : step s = writeCmd w { s with script := rest } := by
  rw [step_cons h hr, hostEffect, csrAt_eq_cmd.2 rfl, csrWrite]

/-- Settles O10: outside BUSY a step is the effect of the host's first action, which for the actions that are neither a
CSR access nor a command sets the fields named outright. -/
theorem hostActionEffects : Obligations.HostActionEffects := by
  intro s rest hr
  refine ⟨fun bytes hs => ?loadSource, fun hs => ?takeSink, fun v hs => ?writeArg, fun w hs => ?issue,
    fun w hs => step_writeCsr_zero hs hr, fun k hs => step_readCsr hs hr, fun hs => ?reset⟩
  case loadSource | takeSink | writeArg | issue | reset => exact step_cons hs hr

end Sys2Proof.Machine
end

section
/-! PROOFS. Encoding (30_encoding R60 to R65): a word is its three fields, its opcode gives its form, and decoding and
encoding are inverse to one another on the legal words. -/

namespace Sys2Proof

-- ## The fields of a command word (R60)

@[simp] theorem rsv_cmdWord (op imm : Byte) : CmdWord.rsv (cmdWord op imm) = 0 := by
  unfold CmdWord.rsv cmdWord
  rw [BitVec.extractLsb'_append_eq_of_le (by decide), BitVec.extractLsb'_append_eq_left]
  rfl

@[simp] theorem imm8_cmdWord (op imm : Byte) : CmdWord.imm8 (cmdWord op imm) = imm := by
  unfold CmdWord.imm8 cmdWord
  rw [BitVec.extractLsb'_append_eq_of_le (by decide), BitVec.extractLsb'_append_eq_right]

@[simp] theorem op_cmdWord (op imm : Byte) : CmdWord.op (cmdWord op imm) = op := by
  unfold CmdWord.op cmdWord
  rw [BitVec.extractLsb'_append_eq_right]

/-- A word whose reserved bits are zero is put together from its opcode and immediate (R60). -/
theorem cmdWord_fields {w : Word} (h : CmdWord.rsv w = 0) : cmdWord (CmdWord.op w) (CmdWord.imm8 w) = w := by
  have hhi : CmdWord.rsv w ++ CmdWord.imm8 w = w.extractLsb' 8 24 :=
    BitVec.extractLsb'_append_extractLsb'_eq_extractLsb' rfl
  calc cmdWord (CmdWord.op w) (CmdWord.imm8 w)
      = (CmdWord.rsv w ++ CmdWord.imm8 w) ++ CmdWord.op w := by rw [h]; rfl
    _ = w.extractLsb' 8 24 ++ w.extractLsb' 0 8 := by rw [hhi]; rfl
    _ = w := BitVec.extractLsb'_append_extractLsb' (w := 24) (len := 8)

/-- A byte whose bits 7:1 are zero is the immediate of its bit 0 (R61, form B). -/
theorem bitImm_getLsbD : ∀ {b : Byte}, b.extractLsb' 1 7 = 0 → bitImm (b.getLsbD 0) = b := by decide +kernel

/-- The immediate of a bit operand is legal, and bit 0 of it is the operand (R61, form B). -/
theorem bitImm_legal : ∀ b : Bit, (bitImm b).extractLsb' 1 7 = 0 ∧ (bitImm b).getLsbD 0 = b := by decide

-- ## The form of an opcode (R61, R63)

/-- An opcode of form Z is its command's own, and the lists of R61 have it under neither other form. -/
theorem opForm_z {op : Byte} {i : Instr} (h : opForm op = some (.z i)) :
    encode i = cmdWord op 0 ∧ op ∉ formIOpcodes ∧ op ≠ formBOpcode := by
  unfold opForm at h
  split at h <;> cases h <;> exact ⟨rfl, by decide, by decide⟩

theorem opForm_imm {op : Byte} {mk : Byte → Instr} (h : opForm op = some (.imm mk)) :
    (∀ imm, encode (mk imm) = cmdWord op imm) ∧ op ∈ formIOpcodes := by
  unfold opForm at h
  split at h <;> cases h <;> exact ⟨fun _ => rfl, by decide⟩

theorem opForm_bit {op : Byte} {mk : Bit → Instr} (h : opForm op = some (.bit mk)) :
    (∀ b, encode (mk b) = cmdWord op (bitImm b)) ∧ op = formBOpcode := by
  unfold opForm at h
  split at h <;> cases h
  exact ⟨fun _ => rfl, rfl⟩

-- ## What decoding gives, by the form of the opcode (R64)

theorem decode_reserved {w : Word} (h : CmdWord.rsv w ≠ 0) : decode w = .illegal .reservedBits := if_pos h

theorem decode_unused {w : Word} (hr : CmdWord.rsv w = 0) (hf : opForm (CmdWord.op w) = none) :
    decode w = .illegal .unknownOpcode := by simp [decode, hr, hf]

theorem decode_z {w : Word} {i : Instr} (hr : CmdWord.rsv w = 0) (hf : opForm (CmdWord.op w) = some (.z i)) :
    decode w = if CmdWord.imm8 w = 0 then .command i else .illegal .immediateNotZero := by simp [decode, hr, hf]

theorem decode_imm {w : Word} {mk : Byte → Instr} (hr : CmdWord.rsv w = 0)
    (hf : opForm (CmdWord.op w) = some (.imm mk)) : decode w = .command (mk (CmdWord.imm8 w)) := by
  simp [decode, hr, hf]

theorem decode_bit {w : Word} {mk : Bit → Instr} (hr : CmdWord.rsv w = 0)
    (hf : opForm (CmdWord.op w) = some (.bit mk)) :
    decode w = if (CmdWord.imm8 w).extractLsb' 1 7 = 0 then .command (mk ((CmdWord.imm8 w).getLsbD 0))
      else .illegal .bitOperand := by simp [decode, hr, hf]

theorem decode_cmdWord_z {op : Byte} {i : Instr} (h : opForm op = some (.z i)) :
    decode (cmdWord op 0) = .command i := by rw [decode_z (by simp) (by simpa using h)]; simp

theorem decode_cmdWord_imm {op imm : Byte} {mk : Byte → Instr} (h : opForm op = some (.imm mk)) :
    decode (cmdWord op imm) = .command (mk imm) := by rw [decode_imm (by simp) (by simpa using h)]; simp

theorem decode_cmdWord_bit {op : Byte} {b : Bit} {mk : Bit → Instr} (h : opForm op = some (.bit mk)) :
    decode (cmdWord op (bitImm b)) = .command (mk b) := by
  obtain ⟨hlegal, hb⟩ := bitImm_legal b
  rw [decode_bit (by simp) (by simpa using h), imm8_cmdWord, if_pos hlegal, hb]

/-- Settles O1: the row of each command gives its opcode back its form. -/
theorem decodeEncodeRoundTrip : Obligations.DecodeEncodeRoundTrip := by
  intro i
  cases i with
  | putb | fset | fget | clen | putsym | renc => exact decode_cmdWord_imm rfl
  | bput => exact decode_cmdWord_bit rfl
  | nop | srst | smark | srew | setlen | getb | putlen | getlen | bwinit | bflush | brinit | bget | fclr | fscan | tbuild
  | twrite | tread | tcodes | henc | getsym | hdec | rdec | cmp | dcmp => exact decode_cmdWord_z rfl

/-- Settles O2: in every form the command's word has the fields of the word it was decoded from. -/
theorem encodeDecodeRoundTrip : Obligations.EncodeDecodeRoundTrip := by
  intro w i hd
  by_cases hr : CmdWord.rsv w = 0
  case neg => simp [decode_reserved hr] at hd
  have hw := cmdWord_fields hr
  cases hf : opForm (CmdWord.op w) with
  | none => simp [decode_unused hr hf] at hd
  | some f =>
    cases f with
    | z j =>
      obtain ⟨henc, -⟩ := opForm_z hf
      rw [decode_z hr hf] at hd
      split at hd <;> cases hd
      next himm => rw [henc, ← himm, hw]
    | imm mk =>
      obtain ⟨henc, -⟩ := opForm_imm hf
      rw [decode_imm hr hf] at hd
      cases hd
      rw [henc, hw]
    | bit mk =>
      obtain ⟨henc, -⟩ := opForm_bit hf
      rw [decode_bit hr hf] at hd
      split at hd <;> cases hd
      next himm => rw [henc, bitImm_getLsbD himm, hw]

/-- Settles O5: the legal words are the words of their commands; the last fails R65 (d). -/
theorem sampleCommandWordsDecode : Obligations.SampleCommandWordsDecode :=
  ⟨decodeEncodeRoundTrip (.putb 0x48), decodeEncodeRoundTrip (.bput true), decodeEncodeRoundTrip (.fset 0xFF),
    decodeEncodeRoundTrip (.clen 0x41), decodeEncodeRoundTrip (.putsym 0x61), decodeEncodeRoundTrip (.renc 0x41),
    decodeEncodeRoundTrip .dcmp, by decide⟩

end Sys2Proof
end

section
/-! PROOFS. Illegal words (30_encoding R64, R65): the four grounds by the form of the opcode, the rows of the opcode map,
and the fault an illegal word raises. -/

namespace Sys2Proof

-- ## The grounds of R65, by the form of the opcode

theorem badReserved_iff (w : Word) : CmdWord.badReserved w = true ↔ CmdWord.rsv w ≠ 0 := bne_iff_ne

/-- R65 (b): the opcode has no form. -/
theorem badOpcode_iff (w : Word) : CmdWord.badOpcode w = true ↔ opForm (CmdWord.op w) = none := by
  have h : ∀ op : Byte, (!opRows.any fun r => CmdWord.op r.pattern == op) = (opForm op).isNone := by decide +kernel
  rw [← Option.isNone_iff_eq_none, ← h]
  rfl

/-- R65 (c): the form is Z, and imm8 is not zero. -/
theorem badImmediate_iff (w : Word) :
    CmdWord.badImmediate w = true ↔ (∃ i, opForm (CmdWord.op w) = some (.z i)) ∧ CmdWord.imm8 w ≠ 0 := by
  have hop := badOpcode_iff w
  unfold CmdWord.badImmediate
  cases hf : opForm (CmdWord.op w) with
  | none => simp [hop.2 hf]
  | some f =>
    have hused : CmdWord.badOpcode w = false := by simpa [hf] using hop
    cases f with
    | z i =>
      obtain ⟨-, hI, hB⟩ := opForm_z hf
      simp [hused, hI, hB]
    | imm mk =>
      obtain ⟨-, hI⟩ := opForm_imm hf
      simp [hI]
    | bit mk =>
      obtain ⟨-, hB⟩ := opForm_bit hf
      simp [hB]

/-- R65 (d): the form is B, and imm8[7:1] is not zero. -/
theorem badBitOperand_iff (w : Word) :
    CmdWord.badBitOperand w = true ↔
      (∃ mk, opForm (CmdWord.op w) = some (.bit mk)) ∧ (CmdWord.imm8 w).extractLsb' 1 7 ≠ 0 := by
  have hform : CmdWord.op w = formBOpcode ↔ ∃ mk, opForm (CmdWord.op w) = some (.bit mk) :=
    ⟨fun e => ⟨.bput, by rw [e]; rfl⟩, fun ⟨_, hf⟩ => (opForm_bit hf).2⟩
  unfold CmdWord.badBitOperand
  rw [Bool.and_eq_true, beq_iff_eq, bne_iff_ne, hform]

/-- The decoder answers `why` for the word: that ground holds and, if it is not `rsv`, the test of `rsv` has passed. -/
def RejectedFor (w : Word) : IllegalWord → Prop
  | .reservedBits => CmdWord.badReserved w
  | .unknownOpcode => ¬CmdWord.badReserved w ∧ CmdWord.badOpcode w
  | .immediateNotZero => ¬CmdWord.badReserved w ∧ CmdWord.badImmediate w
  | .bitOperand => ¬CmdWord.badReserved w ∧ CmdWord.badBitOperand w

/-- The order of the tests (R64): `rsv` first; of the other three grounds no two hold of one opcode. -/
theorem decode_eq_illegal_iff (w : Word) (why : IllegalWord) : decode w = .illegal why ↔ RejectedFor w why := by
  simp only [RejectedFor, badReserved_iff, badOpcode_iff, badImmediate_iff, badBitOperand_iff]
  by_cases hr : CmdWord.rsv w = 0
  case neg =>
    rw [decode_reserved hr]
    cases why <;> simp_all
  cases hf : opForm (CmdWord.op w) with
  | none =>
    rw [decode_unused hr hf]
    cases why <;> simp [hr]
  | some f =>
    cases f with
    | z i =>
      rw [decode_z hr hf]
      cases why <;> split <;> simp_all
    | imm mk =>
      rw [decode_imm hr hf]
      cases why <;> simp [hr]
    | bit mk =>
      rw [decode_bit hr hf]
      cases why <;> split <;> simp_all

/-- A word is illegal exactly when one of the four grounds of R65 holds of it. -/
theorem decode_illegal_iff (w : Word) : (∃ why, decode w = .illegal why) ↔
    (CmdWord.badReserved w ∨ CmdWord.badOpcode w ∨ CmdWord.badImmediate w ∨ CmdWord.badBitOperand w) := by
  simp only [decode_eq_illegal_iff]
  constructor
  · rintro ⟨why, h⟩
    cases why with
    | reservedBits => exact .inl h
    | unknownOpcode => exact .inr (.inl h.2)
    | immediateNotZero => exact .inr (.inr (.inl h.2))
    | bitOperand => exact .inr (.inr (.inr h.2))
  · intro h
    by_cases hr : CmdWord.badReserved w = true
    · exact ⟨.reservedBits, hr⟩
    · rcases h with h | h | h | h
      · exact absurd h hr
      · exact ⟨.unknownOpcode, hr, h⟩
      · exact ⟨.immediateNotZero, hr, h⟩
      · exact ⟨.bitOperand, hr, h⟩

/-- The opcodes that R63 leaves unused (R65). -/
theorem opForm_eq_none_iff (op : Byte) : opForm op = none ↔
    (0x09 ≤ op.toNat ∧ op.toNat ≤ 0x0F) ∨ (0x15 ≤ op.toNat ∧ op.toNat ≤ 0x1F) ∨ (0x24 ≤ op.toNat ∧ op.toNat ≤ 0x2F) ∨
      (0x35 ≤ op.toNat ∧ op.toNat ≤ 0x3F) ∨ (0x44 ≤ op.toNat ∧ op.toNat ≤ 0x4F) ∨
      (0x52 ≤ op.toNat ∧ op.toNat ≤ 0x6F) ∨ (0x72 ≤ op.toNat ∧ op.toNat ≤ 0xFF) := by
  rw [← Option.isNone_iff_eq_none]
  revert op
  decide +kernel

-- ## The rows of the opcode map (R63)

/-- The bits of imm8 that a row of the form compares with zero (R61, R63). -/
def OpForm.fixedImm : OpForm → Byte
  | .z _ => BitVec.allOnes 8
  | .imm _ => 0
  | .bit _ => 0xFE

/-- A byte whose bits 7:1 are compared with zero is a bit operand (R61, form B). -/
theorem extractLsb'_eq_zero_of_and : ∀ {b : Byte}, b &&& 0xFE = 0 → b.extractLsb' 1 7 = 0 := by decide +kernel

/-- Each row compares rsv and op in full, and of imm8 the bits that its form fixes; only op need not be zero. -/
theorem opRows_fields : ∀ r ∈ opRows,
    CmdWord.rsv r.mask = BitVec.allOnes 16 ∧ CmdWord.op r.mask = BitVec.allOnes 8 ∧
      CmdWord.rsv r.pattern = 0 ∧ CmdWord.imm8 r.pattern = 0 ∧
      (opForm (CmdWord.op r.pattern)).map OpForm.fixedImm = some (CmdWord.imm8 r.mask) := by decide +kernel

/-- What a word that matches a row looks like. -/
theorem fields_of_matchesWord {r : OpRow} {w : Word} (hr : r ∈ opRows) (hw : r.matchesWord w = true) :
    CmdWord.rsv w = 0 ∧ ∃ f, opForm (CmdWord.op w) = some f ∧ CmdWord.imm8 w &&& f.fixedImm = 0 := by
  obtain ⟨hmr, hmo, hpr, hpi, hform⟩ := opRows_fields r hr
  have heq : w &&& r.mask = r.pattern := beq_iff_eq.1 hw
  have hrsv : CmdWord.rsv w &&& CmdWord.rsv r.mask = CmdWord.rsv r.pattern := by
    rw [← heq]; exact BitVec.extractLsb'_and.symm
  have himm : CmdWord.imm8 w &&& CmdWord.imm8 r.mask = CmdWord.imm8 r.pattern := by
    rw [← heq]; exact BitVec.extractLsb'_and.symm
  have hop : CmdWord.op w &&& CmdWord.op r.mask = CmdWord.op r.pattern := by
    rw [← heq]; exact BitVec.extractLsb'_and.symm
  rw [hmr, hpr, BitVec.and_allOnes] at hrsv
  rw [hmo, BitVec.and_allOnes] at hop
  rw [← hop] at hform
  obtain ⟨f, hf, hfix⟩ := Option.map_eq_some_iff.1 hform
  exact ⟨hrsv, f, hf, by rw [hfix, himm, hpi]⟩

/-- A word that matches a row of the opcode map is legal. -/
theorem decode_of_matchesWord {r : OpRow} {w : Word} (hr : r ∈ opRows) (hw : r.matchesWord w = true) :
    ∃ i, decode w = .command i := by
  obtain ⟨hrsv, f, hf, himm⟩ := fields_of_matchesWord hr hw
  cases f with
  | z i => exact ⟨_, (decode_z hrsv hf).trans (if_pos (BitVec.and_allOnes.symm.trans himm))⟩
  | imm mk => exact ⟨_, decode_imm hrsv hf⟩
  | bit mk => exact ⟨_, (decode_bit hrsv hf).trans (if_pos (extractLsb'_eq_zero_of_and himm))⟩

/-- The word of each command matches its own row and no other. -/
theorem rowLegality (i : Instr) : Laws.RowLegality.Statement i := by
  cases i with
  | nop => exact Laws.RowLegality.nop
  | srst => exact Laws.RowLegality.srst
  | smark => exact Laws.RowLegality.smark
  | srew => exact Laws.RowLegality.srew
  | setlen => exact Laws.RowLegality.setlen
  | putb imm => exact Laws.RowLegality.putb imm
  | getb => exact Laws.RowLegality.getb
  | putlen => exact Laws.RowLegality.putlen
  | getlen => exact Laws.RowLegality.getlen
  | bwinit => exact Laws.RowLegality.bwinit
  | bput b => exact Laws.RowLegality.bput b
  | bflush => exact Laws.RowLegality.bflush
  | brinit => exact Laws.RowLegality.brinit
  | bget => exact Laws.RowLegality.bget
  | fclr => exact Laws.RowLegality.fclr
  | fscan => exact Laws.RowLegality.fscan
  | fset imm => exact Laws.RowLegality.fset imm
  | fget imm => exact Laws.RowLegality.fget imm
  | tbuild => exact Laws.RowLegality.tbuild
  | twrite => exact Laws.RowLegality.twrite
  | tread => exact Laws.RowLegality.tread
  | tcodes => exact Laws.RowLegality.tcodes
  | clen imm => exact Laws.RowLegality.clen imm
  | putsym imm => exact Laws.RowLegality.putsym imm
  | henc => exact Laws.RowLegality.henc
  | getsym => exact Laws.RowLegality.getsym
  | hdec => exact Laws.RowLegality.hdec
  | renc imm => exact Laws.RowLegality.renc imm
  | rdec => exact Laws.RowLegality.rdec
  | cmp => exact Laws.RowLegality.cmp
  | dcmp => exact Laws.RowLegality.dcmp

/-- Settles O3: a legal word is its command's, which matches one row; a word that matches a row is legal. -/
theorem everyWordMatchesOneRowOrIsIllegal : Obligations.EveryWordMatchesOneRowOrIsIllegal := by
  intro w
  refine ⟨?rows, decode_eq_illegal_iff w .reservedBits, decode_eq_illegal_iff w .unknownOpcode,
    decode_eq_illegal_iff w .immediateNotZero, decode_eq_illegal_iff w .bitOperand⟩
  cases hd : decode w with
  | command i =>
    obtain ⟨hrow, -⟩ := rowLegality i
    rwa [encodeDecodeRoundTrip w i hd] at hrow
  | illegal why =>
    refine List.filter_eq_nil_iff.2 fun r hr hw => ?_
    obtain ⟨i, hi⟩ := decode_of_matchesWord hr hw
    cases hd.symm.trans hi

/-- Settles O4: by the grounds, the unused opcodes, and command acceptance in IDLE (60_exceptions R213). -/
theorem illegalWordsFaultWithTheWord : Obligations.IllegalWordsFaultWithTheWord := by
  refine ⟨decode_illegal_iff, fun w => (badOpcode_iff w).trans (opForm_eq_none_iff _), ?fault⟩
  intro s rest w why hs hr hd
  have hbusy : s.run ≠ .busy := by simp [hr]
  rw [Machine.step_cons hs hbusy]
  exact Machine.writeCmd_illegal hr hd

end Sys2Proof
end

section
/-! PROOFS. The word of a command as a number (30_encoding R60, R63, R67). -/

namespace Sys2Proof.Machine

/-- R67: a word with rsv = 0 is op + 256·imm8. -/
theorem cmdWord_toNat (op imm : Byte) : (cmdWord op imm).toNat = op.toNat + 256 * imm.toNat := by
  have hop := op.isLt
  rw [cmdWord, BitVec.toNat_append, BitVec.toNat_append, BitVec.toNat_ofNat, Nat.zero_mod, Nat.zero_shiftLeft,
    Nat.zero_or, ← Nat.shiftLeft_add_eq_or_of_lt hop, Nat.shiftLeft_eq]
  omega

/-- A command decodes from its word, so only the word's value is left to say. -/
theorem hasWord_iff {i : Instr} {n : Nat} : hasWord i n ↔ (encode i).toNat = n :=
  and_iff_left (decodeEncodeRoundTrip i)

end Sys2Proof.Machine
end

section
/-! PROOFS. Control and byte streams (40_control_stream R90 to R98), and RENC (45_rle R181). -/

namespace Sys2Proof.Machine

/-- Settles O20: the operations of R90, R92 and R93 are the updates named. -/
theorem nopMarkAndRewind : Obligations.NopMarkAndRewind := fun _ =>
  ⟨hasWord_iff.2 rfl, hasWord_iff.2 rfl, hasWord_iff.2 rfl, rfl, rfl, rfl⟩

/-- Settles O21: by the fields of a soft reset, FREQ entry by entry. -/
theorem srstResetsAllButArg : Obligations.SrstResetsAllButArg := by
  intro s
  have hfreq : ∀ v, tget (softReset s).freq v = 0 := tget_zeroFreq
  exact ⟨hasWord_iff.2 rfl, softReset s, rfl, rfl, rfl, rfl, rfl, rfl, rfl, rfl, rfl, hfreq, rfl, rfl, rfl, rfl, rfl, rfl,
    rfl, rfl, rfl⟩

-- ## SETLEN

/-- ARG is at most MAXLEN exactly when its high half is zero (R94). -/
theorem high_eq_zero_iff (a : Dword) : a.extractLsb' 32 32 = 0 ↔ a.toNat ≤ Config.maxLen := by
  have ha := a.isLt
  rw [← BitVec.toNat_inj, BitVec.extractLsb'_toNat, Nat.shiftRight_eq_div_pow, BitVec.ofNat_eq_ofNat, BitVec.toNat_zero,
    Config.maxLen]
  omega

theorem opSetlen_of_le {s : State} (h : s.arg.toNat ≤ Config.maxLen) :
    opSetlen s = .done () (s.setLen (s.arg.extractLsb' 0 32)) := by
  rw [opSetlen, lenOperand, if_pos ((high_eq_zero_iff _).2 h), bind_done]

theorem opSetlen_of_lt {s : State} (h : Config.maxLen < s.arg.toNat) :
    opSetlen s = raise .operand (s.arg.extractLsb' 32 32) s := by
  rw [opSetlen, lenOperand, if_neg fun hz => Nat.not_le.2 h ((high_eq_zero_iff _).1 hz), bind_raise]

/-- Settles O22: by whether ARG fits LEN. -/
theorem setlenLoadsLenOrFaults : Obligations.SetlenLoadsLenOrFaults := by
  intro s
  refine ⟨hasWord_iff.2 rfl, fun hle => ?_, fun hlt => ?_⟩
  · rw [exec_eq, afterExec, opSetlen_of_le hle]; rfl
  · rw [exec_eq, afterExec, opSetlen_of_lt hlt]; rfl

-- ## Writing bytes

/-- RENC appends the run record, LE32(LEN) and the byte (45_rle R180, R181). -/
theorem opRenc_eq (v : Byte) (s : State) : opRenc v s = s.setSnk (s.snk ++ (le32 s.len ++ [v])) := by
  rw [opRenc, snkWriteAll_eq, snkWrite, State.setSnk_snk, List.append_assoc]; rfl

/-- Settles O23: SnkWrite of each byte in order appends the list. -/
theorem byteWritesAppend : Obligations.ByteWritesAppend := by
  intro s imm
  refine ⟨hasWord_iff.2 (cmdWord_toNat 0x05 imm), hasWord_iff.2 rfl, hasWord_iff.2 (cmdWord_toNat 0x50 imm), rfl,
    ?putlen, ?renc⟩
  case putlen => rw [exec_eq, afterExec, opPutlen, snkWriteAll_eq]; rfl
  case renc => rw [exec_eq, afterExec, opRenc_eq]; rfl

-- ## Reading bytes

/-- Settles O24: by whether a byte is left. -/
theorem getbReadsAByteOrSetsEos : Obligations.GetbReadsAByteOrSetsEos := by
  intro s
  refine ⟨hasWord_iff.2 rfl, fun b rest hcons => ?_, fun hnil => ?_⟩
  · rw [exec_eq, afterExec, opGetb_cons hcons]; rfl
  · rw [exec_eq, afterExec, opGetb_nil hnil]; rfl

/-- GETLEN with four bytes left (R98). -/
theorem opGetlen_four {s : State} {b0 b1 b2 b3 : Byte} {rest : List Byte}
    (h : srcRest s = b0 :: b1 :: b2 :: b3 :: rest) :
    opGetlen s = .done () ((s.setPos (s.src.pos + 4)).setLen
      (BitVec.ofNat 32 (b0.toNat + 256 * b1.toNat + 65536 * b2.toNat + 16777216 * b3.toNat))) := by
  rw [opGetlen, readInt_four h, bind_done]

/-- GETLEN with fewer than four bytes left (R98). -/
theorem opGetlen_short {s : State} (h : (srcRest s).length < 4) :
    opGetlen s =
      raise .trunc (BitVec.ofNat 32 (srcRest s).length) (s.setPos (s.src.pos + (srcRest s).length)) := by
  rw [opGetlen, readInt_short h, bind_raise]

/-- Settles O25: by whether four bytes are left. -/
theorem getlenReadsAnInteger : Obligations.GetlenReadsAnInteger := by
  intro s
  refine ⟨hasWord_iff.2 rfl, fun b0 b1 b2 b3 rest hfour => ?_, fun hshort => ?_⟩
  · rw [exec_eq, afterExec, opGetlen_four hfour]; rfl
  · rw [exec_eq, afterExec, opGetlen_short hshort]; rfl

end Sys2Proof.Machine
end

section
/-! PROOFS. Bit streams (41_bitstream R111 to R119). -/

namespace Sys2Proof.Machine

/-- Settles O26: the operations of R114, R116 and R117 are the updates named. -/
theorem bufferCommandsEmptyTheBuffers : Obligations.BufferCommandsEmptyTheBuffers := fun _ =>
  ⟨hasWord_iff.2 rfl, hasWord_iff.2 rfl, hasWord_iff.2 rfl, rfl, rfl, rfl⟩

/-- Settles O27: by whether seven bits are pending; seen as bits, it is the law of PutBit. -/
theorem bputPlacesTheBit : Obligations.BputPlacesTheBit := by
  intro s b
  refine ⟨hasWord_iff.2 (by cases b <;> rfl), ⟨fun hmore => ?more, fun hfull => ?full⟩,
    fun hw => ⟨putBit b s, rfl, putBit_spec b s hw⟩⟩
  case more => rw [exec_eq, afterExec, putBit_more b s hmore]; rfl
  case full => rw [exec_eq, afterExec, putBit_full b s hfull, hfull]; rfl

-- ## Reading bits

/-- GetBit() with a bit held (R113). -/
theorem getBit_held {s : State} (h : s.rcnt ≠ 0) :
    getBit s = some (s.rbuf.getLsbD 0, s.setReader (s.rbuf >>> 1) (s.rcnt - 1)) :=
  if_neg h

/-- GetBit() with no bit held and a byte left (R113). -/
theorem getBit_fetch {s : State} {x : Byte} {rest : List Byte} (h : s.rcnt = 0) (hx : srcRest s = x :: rest) :
    getBit s = some (x.getLsbD 0, (s.setPos (s.src.pos + 1)).setReader (x >>> 1) 7) := by
  have hcount : (8 : BitVec 4) - 1 = 7 := by decide
  rw [getBit, if_pos h, srcRead_cons hx, ← hcount]
  rfl

/-- GetBit() with no bit held and no byte left (R113). -/
theorem getBit_end {s : State} (h : s.rcnt = 0) (hx : srcRest s = []) : getBit s = none := by
  rw [getBit, if_pos h, srcRead_nil hx]

theorem resOfBit_eq (b : Bit) : resOfBit b = (BitVec.ofBool b).setWidth 64 := by cases b <;> rfl

/-- BGET when a bit is returned (R118). -/
theorem opBget_some {s s' : State} {b : Bit} (h : getBit s = some (b, s')) :
    opBget s = gotData ((BitVec.ofBool b).setWidth 64) s' := by
  rw [opBget, h, ← resOfBit_eq]

/-- BGET at the end of the stream (R118). -/
theorem opBget_none {s : State} (h : getBit s = none) : opBget s = endOfStream s := by rw [opBget, h]

/-- Settles O28: by the ways GetBit() can go. -/
theorem bgetTakesTheLowBit : Obligations.BgetTakesTheLowBit := by
  intro s
  refine ⟨hasWord_iff.2 rfl, fun hheld => ?held, fun x rest hnone hcons => ?fetch, fun hnone hnil => ?atEnd⟩
  case held => rw [exec_eq, afterExec, opBget_some (getBit_held hheld)]; rfl
  case fetch => rw [exec_eq, afterExec, opBget_some (getBit_fetch hnone hcons)]; rfl
  case atEnd => rw [exec_eq, afterExec, opBget_none (getBit_end hnone hnil)]; rfl

/-- From a sound reader, the bits asked for are the unread ones, as far as they go. -/
theorem readBits_eq_take {s : State} (hr : s.ReaderOk) (n : Nat) : readBits n s = (unreadBits s).take n := by
  induction n generalizing s with
  | zero => rfl
  | succ n ih =>
    rcases getBit_cases s hr with ⟨hget, hnil⟩ | ⟨b, rest, s', hcons, hget, hrest, hr', -⟩
    · rw [readBits, hget, hnil, List.take_nil]
    · rw [readBits, hget, hcons, List.take_succ_cons, ← hrest, ← ih hr']

-- ## Writing bits

/-- BPUT of each bit in order and BFLUSH are PutBit of each and Flush(). -/
theorem execSeq_bputs_bflush (p : List Bit) (s : State) :
    execSeq (p.map .bput ++ [.bflush]) s = .next (flush (putBits p s)) := by
  induction p generalizing s with
  | nil => rfl
  | cons b p ih => exact ih (putBit b s)

/-- The bytes that bits p, written from an empty writer and flushed, give (R112). -/
def flushedBytes (p : List Bit) : List Byte := pack p ++ flushByte p

theorem flush_putBits_snk {s : State} (hb : s.wbuf = 0) (hc : s.wcnt = 0) (p : List Bit) :
    (flush (putBits p s)).snk = s.snk ++ flushedBytes p := by
  have hw : s.WriterOk := by rw [State.WriterOk, hb, hc]; decide
  have hempty : writtenBits s = unpack s.snk := by rw [writtenBits, pendingBits, hc]; exact List.append_nil _
  obtain ⟨hw', hbits⟩ := putBits_spec p s hw
  rw [flush_written hw' (hbits.trans (congrArg (· ++ p) hempty)), flushedBytes, List.append_assoc]

theorem flushedBytes_length (p : List Bit) : (flushedBytes p).length = p.length / 8 + 1 := by
  rw [flushedBytes, flushByte, List.length_append, pack_length]
  split
  · rw [List.length_singleton]; omega
  · rw [List.length_nil]; omega

/-- As bits, the flushed bytes are p and zeros up to their end (R119). -/
theorem unpack_flushedBytes (p : List Bit) :
    unpack (flushedBytes p) = p ++ List.replicate (8 - p.length % 8) false := by
  rw [flushedBytes, flushByte, unpack_append, unpack_pack]
  split
  case isTrue h8 =>
    have hpack : 8 * ((p.length + 7) / 8) - p.length = 0 := by omega
    rw [hpack, h8, List.replicate_zero, List.append_nil]
    rfl
  case isFalse h8 =>
    have hpack : 8 * ((p.length + 7) / 8) - p.length = 8 - p.length % 8 := by omega
    rw [hpack, unpack_nil, List.append_nil]

/-- Bit i of a byte list stands at position i mod 8 of byte i/8 (R52). -/
theorem getElem?_unpack {xs : List Byte} {i : Nat} (h : i < 8 * xs.length) :
    (unpack xs)[i]? = some ((xs.getD (i / 8) 0).getLsbD (i % 8)) := by
  induction xs generalizing i with
  | nil => exact absurd h (Nat.not_lt_zero i)
  | cons x xs ih =>
    rw [List.length_cons] at h
    rw [unpack_cons]
    rcases Nat.lt_or_ge i 8 with hi | hi
    · rw [List.getElem?_append_left (by simpa using hi), Nat.div_eq_of_lt hi, Nat.mod_eq_of_lt hi, bitsOfByte]
      simp [hi]
    · obtain ⟨j, rfl⟩ := Nat.exists_eq_add_of_le' hi
      rw [List.getElem?_append_right (by simp), bitsOfByte_length, Nat.add_sub_cancel, ih (by omega),
        Nat.add_div_right j (by decide), Nat.add_mod_right, List.getD_cons_succ]

/-- Settles O29: the bytes flushed hold the bits written and then zeros, and a sound reader returns what they hold. -/
theorem writtenBitsAreReadBack : Obligations.WrittenBitsAreReadBack := by
  intro s p hb hc
  have hlen := flushedBytes_length p
  have hbits := unpack_flushedBytes p
  refine ⟨flush (putBits p s), flushedBytes p, 8 - p.length % 8, execSeq_bputs_bflush p s, flush_putBits_snk hb hc p,
    rfl, rfl, hlen, fun i hi => ?placed, by omega, by omega, fun u hub huc hu more => ?readBack⟩
  case placed =>
    have hget := getElem?_unpack (xs := flushedBytes p) (i := i) (by omega)
    rw [hbits, List.getElem?_append_left hi, List.getElem?_eq_getElem hi] at hget
    exact (Option.some.inj hget).symm
  case readBack =>
    have hr : u.ReaderOk := by rw [State.ReaderOk, hub, huc]; decide
    rw [readBits_eq_take hr, unreadBits_fresh huc, hu, hbits]
    exact List.take_of_length_le (by simp)

end Sys2Proof.Machine
end

section
/-! PROOFS. The frequency table (42_frequency R125 to R133), and CMP on a source too long to scan (46_codec R191). -/

namespace Sys2Proof.Machine

-- ## Counts as numbers

/-- A count that fits LEN is below 2^64, so the table's entry is the count itself (R125, R130). -/
theorem tget_countsOf_toNat {xs : List Byte} (h : xs.length ≤ Config.maxLen) (v : Byte) :
    (tget (countsOf xs) v).toNat = xs.count v := by
  have hc : xs.count v ≤ xs.length := List.count_le_length
  rw [Config.maxLen] at h
  rw [tget_countsOf, BitVec.toNat_ofNat, Nat.mod_eq_of_lt (by omega)]

/-- The table that a scan past the limit leaves: the counts of the first MAXLEN bytes (R131). -/
theorem tget_countsOf_take_toNat (xs : List Byte) (v : Byte) :
    (tget (countsOf (xs.take Config.maxLen)) v).toNat = (xs.take Config.maxLen).count v :=
  tget_countsOf_toNat (List.length_take_le _ _) v

-- ## The commands

-- The updates agree whatever table the scan leaves, so the table is generalized before they are compared: unfolding them
-- would otherwise evaluate its 256 entries.

/-- Settles O31: by whether the scan meets byte number 2^32. -/
theorem fscanCountsTheSource : Obligations.FscanCountsTheSource := by
  intro s
  refine ⟨hasWord_iff.2 rfl, fun hle => ?counted, fun hlt => ?size⟩
  case counted =>
    have hcount := tget_countsOf_toNat ((srcRest_length s).trans_le hle)
    have htotal := (counts_total _ _ hcount).trans (srcRest_length s)
    refine ⟨countsOf (srcRest s), ?_, hcount, htotal, Nat.add_sub_cancel'⟩
    rw [exec_eq, afterExec, opFscan_ok hle]
    generalize countsOf (srcRest s) = f
    rfl
  case size =>
    refine ⟨countsOf ((srcRest s).take Config.maxLen), ?_, tget_countsOf_take_toNat _⟩
    rw [exec_eq, afterExec, opFscan_size hlt]
    rfl

/-- CMP on a source longer than MAXLEN ends at the fault of its scan (46_codec R191, 60_exceptions R216). -/
theorem opCmp_size {s : State} (h : Config.maxLen < srcLeft s) :
    opCmp s = raise .size 0 (((clearBuffers (srcMark s)).setFreq (countsOf ((srcRest s).take Config.maxLen))).setPos
      (s.src.pos + Config.maxLen + 1)) := by
  rw [opCmp, opFscan_size (s := clearBuffers (srcMark s)) h, bind_raise]
  rfl

/-- Settles O53: the mark is set and the buffers are cleared before the scan faults, and nothing after it runs. -/
theorem cmpRejectsOversizedInput : Obligations.CmpRejectsOversizedInput := by
  intro s hlt
  refine ⟨countsOf ((srcRest s).take Config.maxLen), ?_, tget_countsOf_take_toNat _⟩
  rw [exec_eq, afterExec, opCmp_size hlt]
  generalize countsOf ((srcRest s).take Config.maxLen) = f
  rfl

/-- Settles O30: by what a table returns after the write of one entry or of all. -/
theorem frequencyTableAccess : Obligations.FrequencyTableAccess := by
  intro s imm
  refine ⟨hasWord_iff.2 rfl, hasWord_iff.2 (cmdWord_toNat 0x22 imm), hasWord_iff.2 (cmdWord_toNat 0x23 imm),
    ⟨zeroFreq, rfl, tget_zeroFreq, kCount_zeroFreq⟩, ⟨tset s.freq imm s.arg, rfl, ?same, fun v hv => ?other⟩, rfl⟩
  case same => exact tget_tset_self s.freq imm s.arg
  case other => exact tget_tset_ne s.freq s.arg hv.symm

end Sys2Proof.Machine
end

section
/-! PROOFS. What the commands on trees and codes require: TVALID and CVALID (60_exceptions R211, 10_state R16). -/

namespace Sys2Proof.Machine

theorem requireTree_some {s : State} {T : Tree} (h : s.tree = some T) : requireTree s = .done T s := by
  rw [requireTree, h]

theorem requireTree_none {s : State} (h : s.tree = none) : requireTree s = raise .precond 2 s := by
  rw [requireTree, h]

theorem requireCode_some {s : State} {c : CodeTable} (h : s.code = some c) : requireCode s = .done c s := by
  rw [requireCode, h]

theorem requireCode_none {s : State} (h : s.code = none) : requireCode s = raise .precond 3 s := by
  rw [requireCode, h]

end Sys2Proof.Machine
end

section
/-! PROOFS. Building a tree: TBUILD (43_tree R140 to R145). -/

namespace Sys2Proof.Machine

/-- TBUILD when too few byte values are present (R142). -/
theorem execTbuild_few {s : State} (h : kCount s.freq < 2) : exec .tbuild s = .next (faulting s 0x02 1) := by
  rw [exec_eq, afterExec, opTbuild, buildTree_none.2 h]; rfl

/-- TBUILD when a tree is built (R142). -/
theorem execTbuild_built {s : State} {T : Tree} (h : buildTree s.freq = some T) :
    exec .tbuild s = .next { s with tree := some T, code := none } := by
  rw [exec_eq, afterExec, opTbuild, h]; rfl

/-- Settles O32: by whether `buildTree` builds, from the shape of what it builds. -/
theorem tbuildBuildsOrFaults : Obligations.TbuildBuildsOrFaults := by
  intro s
  refine ⟨hasWord_iff.2 rfl, execTbuild_few, fun hk => ?_⟩
  obtain ⟨T, hT⟩ := buildTree_isSome hk
  obtain ⟨hleaves, hroot, -⟩ := buildTree_some hT
  obtain ⟨hvalid, hnodes⟩ := buildTree_valid hT
  have hcap : T.nodes ≤ Config.nodeCap := by
    have := kCount_le s.freq
    rw [Config.nodeCap]; omega
  exact ⟨T, execTbuild_built hT, hroot, hleaves.nodup_iff.2 (present_nodup _),
    fun v => hleaves.mem_iff.trans mem_present, hnodes, hcap⟩

-- ## Two byte values

theorem present_pair {f : FreqTable} {u v : Byte} (hlt : u < v) (h : ∀ x, tget f x ≠ 0 ↔ x = u ∨ x = v) :
    present f = [u, v] := by
  have hmem (x : Byte) : x ∈ present f ↔ x ∈ [u, v] := by
    rw [mem_present, h x, List.mem_cons, List.mem_singleton]
  exact (present_sorted f).eq_of_mem_iff (List.pairwise_pair.2 hlt) hmem

/-- One merge: the entry that comes first becomes the left child (R142, R144). -/
theorem mergeAll_pair (s : Nat) (a b : Entry) :
    mergeAll 1 s a [b] = if a.before b then .node a.t b.t else .node b.t a.t := by
  cases h : a.before b <;> simp [mergeAll, extractMin, mergeEntries, h]

theorem buildTree_pair {f : FreqTable} {u v : Byte} (h : present f = [u, v]) :
    buildTree f = some (if tget f u ≤ tget f v then .node (.leaf u) (.leaf v) else .node (.leaf v) (.leaf u)) := by
  have hbuild : buildTree f = some (mergeAll 1 (kCount f) { w := (tget f u).toNat, s := 0, t := .leaf u }
      [{ w := (tget f v).toNat, s := 1, t := .leaf v }]) := by
    rw [buildTree, h]; rfl
  have hbefore : Entry.before { w := (tget f u).toNat, s := 0, t := .leaf u }
      { w := (tget f v).toNat, s := 1, t := .leaf v } = decide (tget f u ≤ tget f v) := by
    rw [Entry.before, decide_eq_decide, BitVec.le_def]
    simp only
    omega
  rw [hbuild, mergeAll_pair, hbefore]
  simp only [decide_eq_true_eq]

/-- Settles O33: the seeds are u and v in this order, and the one merge compares their counts. -/
theorem tbuildOrdersTwoSymbols : Obligations.TbuildOrdersTwoSymbols := by
  intro s u v hlt hpresent
  have hbuild := buildTree_pair (present_pair hlt hpresent)
  refine ⟨fun hle => execTbuild_built ?_, fun hgt => execTbuild_built ?_⟩
  · rw [hbuild, if_pos hle]
  · rw [hbuild, if_neg (BitVec.not_le.2 hgt)]

-- ## The merging loop

/-- A built tree is what the merging loop leaves of the seeds (R142). -/
theorem buildTree_eq_mergeAll {f : FreqTable} {T : Tree} (h : buildTree f = some T) :
    ∃ e rest, seedFrom f 0 (present f) = e :: rest ∧ T = mergeAll rest.length (kCount f) e rest := by
  unfold buildTree at h
  split at h
  case h_1 => cases h
  case h_2 => cases h
  case h_3 e x xs hseeds => exact ⟨e, x :: xs, hseeds, (Option.some.inj h).symm⟩

/-- The leaves of a tree as pairs of a count and a depth. -/
def leafPairs (f : FreqTable) (U : Tree) : List (Nat × Nat) :=
  (derive U []).map fun a => ((tget f a.1).toNat, a.2.length)

theorem pairCost_leafPairs (f : FreqTable) (U : Tree) : pairCost (leafPairs f U) = weightedLength f U := by
  rw [pairCost, leafPairs, List.map_map]; rfl

theorem leafPairs_depths (f : FreqTable) (U : Tree) : LeafDepths ((leafPairs f U).map Prod.snd) := by
  have hdepths : (leafPairs f U).map Prod.snd = depthsOf U := by rw [leafPairs, List.map_map]; rfl
  exact hdepths ▸ leafDepths_depthsOf U

theorem leafPairs_weights (f : FreqTable) (U : Tree) :
    (leafPairs f U).map Prod.fst = U.leaves.map fun v => (tget f v).toNat := by
  rw [← derive_bytes U [], leafPairs, List.map_map, List.map_map]; rfl

/-- The built tree is no worse than any tree with its leaves (R145). -/
theorem buildTree_least {f : FreqTable} {T U : Tree} (hT : buildTree f = some T) (hU : U.leaves.Perm T.leaves) :
    weightedLength f T ≤ weightedLength f U := by
  obtain ⟨e, rest, hseeds, rfl⟩ := buildTree_eq_mergeAll hT
  obtain ⟨hweights, hlength⟩ := seedFrom_start f 0 (present f)
  have hpairs : ((leafPairs f U).map Prod.fst).Perm ((e :: rest).map Entry.w) := by
    rw [leafPairs_weights, ← hseeds, seedFrom_weights]
    exact (hU.trans (buildTree_some hT).1).map _
  rw [hseeds] at hweights hlength
  have hleast := mergeAll_least f rest.length (kCount f) e rest (Nat.le_refl _) hweights _ hpairs (leafPairs_depths f U)
  rwa [hlength, Nat.zero_add, pairCost_leafPairs] at hleast

/-- Settles O34: by the exchange argument for the merging loop. -/
theorem tbuildMinimisesCodeLength : Obligations.TbuildMinimisesCodeLength := by
  intro s hk
  obtain ⟨T, hT⟩ := buildTree_isSome hk
  exact ⟨T, execTbuild_built hT, fun U hU => buildTree_least hT hU⟩

/-- The seeds are merged by the loop of R142, K being the next sequence number. -/
theorem buildTree_mergesTo {f : FreqTable} {T : Tree} (h : buildTree f = some T) :
    MergesTo (seedFrom f 0 (present f)) (kCount f) T := by
  obtain ⟨e, rest, hseeds, rfl⟩ := buildTree_eq_mergeAll h
  have hnumbers := seedFrom_numbers f 0 (present f)
  rw [hseeds] at hnumbers ⊢
  refine mergeAll_mergesTo _ _ e rest (Nat.le_refl _) (hnumbers ▸ List.nodup_range') fun x hx => ?_
  have hmem : x.s ∈ List.range' 0 (present f).length := hnumbers ▸ List.mem_map_of_mem hx
  rw [List.mem_range'_1] at hmem
  rw [kCount]; omega

/-- Settles O35: the seeds are the leaves of the bytes present, in their order. -/
theorem tbuildFollowsTheMergeRule : Obligations.TbuildFollowsTheMergeRule := by
  intro s
  refine ⟨hasWord_iff.2 rfl, execTbuild_few, fun hk => ?_⟩
  obtain ⟨T, hT⟩ := buildTree_isSome hk
  have hlen := seedFrom_length s.freq 0 (present s.freq)
  refine ⟨T, seedFrom s.freq 0 (present s.freq), execTbuild_built hT, ?loop, fun v => ?bytes, fun i hi => ?seed⟩
  case loop => rw [hlen]; exact buildTree_mergesTo hT
  case bytes =>
    have hleaves : (seedFrom s.freq 0 (present s.freq)).flatMap (fun e => e.t.leaves) = present s.freq :=
      seedFrom_leaves s.freq 0 _
    rw [hleaves, mem_present]
  case seed =>
    have hseed (j : Nat) (hj : j < (seedFrom s.freq 0 (present s.freq)).length) :=
      seedFrom_getElem s.freq 0 (present s.freq) j hj (hlen ▸ hj)
    refine ⟨(present s.freq)[i]'(hlen ▸ hi), by rw [hseed i hi, Nat.zero_add], fun j hji u hu => ?_⟩
    rw [hseed j (Nat.lt_trans hji hi)] at hu
    cases hu
    exact List.pairwise_iff_getElem.1 (present_sorted s.freq) j i _ _ hji

end Sys2Proof.Machine
end

section
/-! PROOFS. Trees as bytes: TWRITE and TREAD (43_tree R147 to R153, R159). -/

namespace Sys2Proof.Machine

-- ## Writing

/-- Settles O36: Emit appends the serialisation. -/
theorem twriteAppendsTheSerialisedTree : Obligations.TwriteAppendsTheSerialisedTree := by
  intro s
  refine ⟨hasWord_iff.2 rfl, fun T hT => ⟨?written, serTree_length T⟩, fun hnone => ?absent⟩
  case written => rw [exec_eq, afterExec, opTwrite, requireTree_some hT, bind_done, emitTree_eq]; rfl
  case absent => rw [exec_eq, afterExec, opTwrite, requireTree_none hnone, bind_raise]; rfl

-- ## Reading

/-- TREAD leaves what R150 gives for any way ReadNode() ends on the unread bytes. -/
theorem execTread_of_readsNode {s : State} {bytes : List Byte} {n : Nat} {r : NodeEnd} (hs : srcRest s = bytes)
    (h : ReadsNode 0 bytes n r) : exec .tread s = .next (afterTread s n r) :=
  execTread_follows (hs ▸ h)

/-- A leaf is any pair but the sentinel before two sentinels: its second byte is not checked (R148, R151). -/
theorem readsNode_leaf {c : Nat} {b0 b1 : Byte} (rest : List Byte) (pair : ¬(b0 = 0x00 ∧ b1 = 0x01))
    (room : c ≠ Config.nodeCap) :
    ReadsNode c (b0 :: b1 :: 0x00 :: 0x01 :: 0x00 :: 0x01 :: rest) 6 (.read (some (.leaf b0)) (c + 1)) :=
  .leaf pair room (.absent (c + 1) (0x00 :: 0x01 :: rest)) (.absent (c + 1) rest)

/-- Settles O37: by the round trip of a serialised tree, and by ReadNode() on two leaves. -/
theorem treadReadsBackTheTree : Obligations.TreadReadsBackTheTree := by
  refine ⟨hasWord_iff.2 rfl, fun s T rest hv hs => ?roundTrip, fun s b0 b1 m u v rest hroot hleaf hs => ?unchecked⟩
  case roundTrip => rw [exec_eq, afterExec, opTread_serTree hv hs]; rfl
  case unchecked =>
    have hl := readsNode_leaf (c := 1) ([v, 0x00, 0x00, 0x01, 0x00, 0x01] ++ rest) hleaf (by decide)
    have hr := readsNode_leaf (c := 2) (b0 := v) (b1 := 0x00) rest (by simp) (by decide)
    exact execTread_of_readsNode hs (.node hroot (by decide) hl hr)

/-- Settles O38: by what ReadNode() does on each of the sources. -/
theorem treadFaultsOnUnusableTrees : Obligations.TreadFaultsOnUnusableTrees := by
  refine ⟨hasWord_iff.2 rfl, fun s rest => ?_⟩
  refine ⟨readsNode_total Config.nodeCap 0 (srcRest s) (Nat.zero_add _), fun n r h => execTread_follows h,
    fun T q z hT hq hz hs => ?cut, fun T hT hs => ?large,
    fun T b0 b1 hT hpair => ⟨fun hs => ?leftOnly, fun hs => ?rightOnly⟩, fun hs => ?absent, fun v hs => ?leaf, fun hs => ?chain⟩
  case cut => exact execTread_of_readsNode hs (readsNode_cut T 0 q z ((Nat.zero_add _).trans_le hT) hq hz)
  case large =>
    obtain ⟨n, hn, h⟩ := readsNode_large T 0 rest (Nat.zero_le _) (by omega)
    exact ⟨n, hn, execTread_of_readsNode hs h⟩
  case leftOnly =>
    have h := readsNode_leftOnly (c := 0) rest hpair ((Nat.zero_add _).trans_lt hT)
    rw [show 2 + (serTree T).length + 2 = 4 + (serTree T).length by omega] at h
    exact execTread_of_readsNode (by simpa using hs) h
  case rightOnly =>
    have h := readsNode_rightOnly (c := 0) rest hpair ((Nat.zero_add _).trans_lt hT)
    exact execTread_of_readsNode (by simpa using hs) h
  case absent => exact execTread_of_readsNode hs (.absent 0 rest)
  case leaf => exact execTread_of_readsNode hs (readsNode_leaf (c := 0) rest (by simp) (by decide))
  case chain => exact execTread_of_readsNode hs (readsNode_chain Config.nodeCap 0 rest (Nat.zero_add _))

/-- Everything TREAD can do from a position inside the source: it reads a valid tree, or ends in one of its six faults
(R150, R153). -/
theorem opTread_cases {s : State} (hp : s.src.pos ≤ s.src.data.length) :
    ∃ p, s.src.pos ≤ p ∧ p ≤ s.src.data.length ∧
      ((∃ T, T.valid = true ∧ opTread s = .done () ((s.setPos p).setTree (some T))) ∨
       (∃ e info, (TreeFault e info ∨ e = .tree ∧ (info = 1 ∨ info = 2)) ∧
         opTread s = raise e info ((s.setTree none).setPos p))) := by
  rcases readNode_cases (Config.nodeCap + 1) 0 (s.setTree none) (Nat.zero_le _) hp with
    ⟨t, p, hr, hcap, hle, hin⟩ | ⟨e, info, p, hr, hfault, hle, hin⟩
  · refine ⟨p, hle, hin, ?_⟩
    match t, hr, hcap with
    | none, hr, _ => exact .inr ⟨.tree, 1, .inr ⟨rfl, .inl rfl⟩, by rw [opTread, hr, bind_done]; rfl⟩
    | some (.leaf v), hr, _ => exact .inr ⟨.tree, 2, .inr ⟨rfl, .inr rfl⟩, by rw [opTread, hr, bind_done]; rfl⟩
    | some (.node l r), hr, hcap =>
      rw [Nat.zero_add] at hcap
      exact .inl ⟨.node l r, decide_eq_true hcap, by rw [opTread, hr, bind_done]; rfl⟩
  · exact ⟨p, hle, hin, .inr ⟨e, info, .inl hfault, by rw [opTread, hr, bind_raise]⟩⟩

/-- Settles O39: by the ways TREAD can end. -/
theorem treadEndsWithAValidTreeOrAFault : Obligations.TreadEndsWithAValidTreeOrAFault := by
  intro s hsource
  obtain ⟨p, hle, hin, ⟨T, hv, hread⟩ | ⟨e, info, hfault, hread⟩⟩ := opTread_cases hsource.1
  · exact ⟨(s.setPos p).setTree (some T), by rw [exec_eq, afterExec, hread]; rfl, hle, hin, .inl ⟨T, hv, rfl⟩⟩
  · refine ⟨enterFault e info ((s.setTree none).setPos p), by rw [exec_eq, afterExec, hread]; rfl, hle, hin,
      .inr ⟨e.number, info, rfl, ?_⟩⟩
    rcases hfault with (⟨rfl, rfl | rfl⟩ | ⟨rfl, rfl⟩ | ⟨rfl, rfl⟩) | ⟨rfl, rfl | rfl⟩ <;> decide

end Sys2Proof.Machine
end

section
/-! PROOFS. The code table: TCODES and CLEN (43_tree R154 to R158). -/

namespace Sys2Proof.Machine

/-- The last assignment to a byte is the one that stays (R155, R156). -/
theorem tget_assignCodes (l : List (Byte × List Bit)) (c : CodeTable) (v : Byte) :
    tget (assignCodes l c) v = ((l.reverse.find? fun a => a.1 == v).map Prod.snd).or (tget c v) := by
  induction l generalizing c with
  | nil => rfl
  | cons a l ih =>
    obtain ⟨u, p⟩ := a
    rw [assignCodes, ih, List.reverse_cons, List.find?_append, Option.map_or, Option.or_assoc]
    congr 1
    by_cases huv : u = v
    · subst huv; simp [tget_tset_self]
    · simp [tget_tset_ne c _ huv, huv]

theorem tget_codeTable (T : Tree) (v : Byte) :
    tget (codeTable T) v = ((derive T []).reverse.find? fun a => a.1 == v).map Prod.snd := by
  rw [codeTable, tget_assignCodes, tget_noCodes, Option.or_none]

/-- Below an internal root a path has a branch (R157). -/
theorem length_pos_of_mem_derive {T : Tree} (hT : T.isNode = true) {v : Byte} {p : List Bit} (h : (v, p) ∈ derive T []) :
    1 ≤ p.length := by
  cases T with
  | leaf w => cases hT
  | node l r =>
    rcases mem_derive_node h with ⟨q, rfl, -⟩ | ⟨q, rfl, -⟩ <;> exact Nat.le_add_left 1 q.length

/-- Settles O40: by what the assignments leave in the table. -/
theorem tcodesKeepsTheLastPath : Obligations.TcodesKeepsTheLastPath := by
  intro s
  refine ⟨hasWord_iff.2 rfl, fun T hT => ⟨codeTable T, ?derived, tget_codeTable T,
    fun hroot v p hp => length_pos_of_mem_derive hroot (codeTable_sound hp)⟩, fun hnone => ?absent⟩
  case derived => rw [exec_eq, afterExec, opTcodes, requireTree_some hT, bind_done]; rfl
  case absent => rw [exec_eq, afterExec, opTcodes, requireTree_none hnone, bind_raise]; rfl

/-- CLEN with a code table (R158). -/
theorem execClen_eq {s : State} {c : CodeTable} (v : Byte) (h : s.code = some c) :
    exec (.clen v) s = .next { s with res := clenResult (tget c v) } := by
  rw [exec_eq, afterExec, opClen, requireCode_some h, bind_done]; rfl

/-- Settles O42: by the entry of the table. -/
theorem clenReportsTheLength : Obligations.ClenReportsTheLength := by
  intro s imm
  refine ⟨hasWord_iff.2 (cmdWord_toNat 0x34 imm), fun c hc hnone => ?noCode, fun c p hc hp => ?code,
    fun hnone => ?absent⟩
  case noCode => rw [execClen_eq imm hc, hnone]; rfl
  case code => rw [execClen_eq imm hc, hp]; rfl
  case absent => rw [exec_eq, afterExec, opClen, requireCode_none hnone, bind_raise]; rfl

end Sys2Proof.Machine
end

section
/-! PROOFS. Encoding with a code table: PUTSYM and HENC (44_vlc R165 to R167). -/

namespace Sys2Proof.Machine

-- ## PUTSYM

theorem execPutsym_eq {s : State} {c : CodeTable} (v : Byte) (h : s.code = some c) :
    exec (.putsym v) s = .next ((requireCodeOf c v s).bind fun p t => .done () (putBits p t)).final := by
  rw [exec_eq, afterExec, opPutsym, requireCode_some h, bind_done]

/-- Settles O43: by the entry of the table; writing the code is the law of PutBit. -/
theorem putsymWritesTheCode : Obligations.PutsymWritesTheCode := by
  intro s imm
  refine ⟨hasWord_iff.2 (cmdWord_toNat 0x40 imm), fun c p hc hp hw => ?coded, fun c hc hnone => ?noCode,
    fun hnone => ?absent⟩
  case coded =>
    obtain ⟨hw', hbits⟩ := putBits_spec p s hw
    refine ⟨putBits p s, ?_, hw', hbits, putBits_frame p s⟩
    rw [execPutsym_eq imm hc, requireCodeOf_some s hp, bind_done, final_done]
  case noCode => rw [execPutsym_eq imm hc, requireCodeOf_none s hnone, bind_raise]; rfl
  case absent => rw [exec_eq, afterExec, opPutsym, requireCode_none hnone, bind_raise]; rfl

-- ## HENC

theorem execHenc_eq {s : State} {c : CodeTable} (h : s.code = some c) :
    exec .henc s = .next (encodeFrom c (srcLeft s) s).final := by
  rw [exec_eq, afterExec, opHenc, requireCode_some h, bind_done]

/-- An encoding run that has reached position p, as a state. -/
theorem eq_atPos_of_encoderFrame {s t : State} {p : Nat} (h : encoderFrame s t) (hp : t.src.pos = p) :
    t = { atPos s p with wbuf := t.wbuf, wcnt := t.wcnt, snk := t.snk } := hp ▸ h

/-- HENC when every unread byte has a code (R167). -/
theorem execHenc_coded {s : State} {c : CodeTable} (hc : s.code = some c) (hw : s.WriterOk)
    (hcoded : ∀ x ∈ srcRest s, (tget c x).isSome) :
    ∃ t, exec .henc s = .next t ∧ t.WriterOk ∧ writtenBits t = writtenBits s ++ payloadBits c (srcRest s) ∧
      t = { atPos s (s.src.pos + srcLeft s) with wbuf := t.wbuf, wcnt := t.wcnt, snk := t.snk } := by
  obtain ⟨t, hrun, hw', hbits, hpos, hframe⟩ := encodeFrom_all hw hcoded
  exact ⟨t, by rw [execHenc_eq hc, hrun, final_done], hw', hbits, eq_atPos_of_encoderFrame hframe hpos⟩

/-- Settles O44: by how the loop over the unread bytes ends. -/
theorem hencEncodesTheSource : Obligations.HencEncodesTheSource := by
  intro s
  refine ⟨hasWord_iff.2 rfl, fun c => execHenc_coded, fun c xs x rest hc hw hrest hcoded hnone => ?noCode,
    fun hnone => ?absent⟩
  case noCode =>
    obtain ⟨t, hrun, hw', hbits, hpos, hframe⟩ := encodeFrom_nocode hw hrest hcoded hnone
    refine ⟨enterFault .nocode (infoOfByte x) t, by rw [execHenc_eq hc, hrun, final_raise], hw', hbits, ?_⟩
    exact congrArg (enterFault .nocode (infoOfByte x)) (eq_atPos_of_encoderFrame hframe hpos)
  case absent => rw [exec_eq, afterExec, opHenc, requireCode_none hnone, bind_raise]; rfl

end Sys2Proof.Machine
end

section
/-! PROOFS. Decoding with a tree: GETSYM and HDEC (44_vlc R168 to R171). -/

namespace Sys2Proof.Machine

/-- A walk that has reached position p, as a state. -/
theorem eq_atPos_of_readerFrame {s t : State} {p : Nat} (h : readerFrame s t) (hp : t.src.pos = p) :
    t = { atPos s p with rbuf := t.rbuf, rcnt := t.rcnt } := hp ▸ h

theorem snk_of_readerFrame {s t : State} (h : readerFrame s t) : t.snk = s.snk := by
  unfold readerFrame at h
  rw [h]
  rfl

-- ## GETSYM

theorem execGetsym_eq {s : State} {T : Tree} (h : s.tree = some T) :
    exec .getsym s = .next ((decodeSym T s).bind fun v t => .done () (t.setRes (resOfByte v))).final := by
  rw [exec_eq, afterExec, opGetsym, requireTree_some h, bind_done]

/-- Settles O45: by whether the unread bits begin with the path of a leaf. -/
theorem getsymFollowsTheBits : Obligations.GetsymFollowsTheBits := by
  intro s
  refine ⟨hasWord_iff.2 rfl, fun T v p rest hT hr hleaf hbits => ?leaf, fun T hT hr hnone => ?cut,
    fun hnone => ?absent⟩
  case leaf =>
    obtain ⟨t, hsym, hrest, hr', hframe, hused⟩ := decodeSym_path hleaf hr hbits
    refine ⟨t.setRes (resOfByte v), by rw [execGetsym_eq hT, hsym, bind_done, final_done], hr', hrest, ?_⟩
    exact congrArg (State.setRes · (resOfByte v)) (eq_atPos_of_readerFrame hframe (consumed_pos hr.1 hused))
  case cut => rw [execGetsym_eq hT, decodeSym_cut hr hnone, bind_raise]; rfl
  case absent => rw [exec_eq, afterExec, opGetsym, requireTree_none hnone, bind_raise]; rfl

-- ## HDEC

theorem execHdec_eq {s : State} {T : Tree} (h : s.tree = some T) :
    exec .hdec s = .next (decodeSyms T s.len.toNat s).final := by
  rw [exec_eq, afterExec, opHdec, requireTree_some h, bind_done]

/-- Settles O46: the loop follows the paths, and the reader has gone as far as their bits. -/
theorem hdecDecodesLenSymbols : Obligations.HdecDecodesLenSymbols := by
  refine ⟨hasWord_iff.2 rfl, fun s T symbols rest hT hr hlen hleaves hbits => ?_⟩
  obtain ⟨t, hrun, hsnk, hrest, hr', hframe, hused⟩ := decodeSyms_paths symbols s rest hr hleaves hbits
  have hdone : decodeSyms T s.len.toNat s = .done () t := by rw [hlen]; exact hrun 0
  refine ⟨t, by rw [execHdec_eq hT, hdone, final_done], hr', hrest, ?_⟩
  rw [← hsnk, ← consumed_pos hr.1 hused]
  exact hframe

/-- DecodeSym() from any reader, sound or not: a byte, or ERR_TRUNC(0x30) (R168). -/
theorem decodeSym_ends (T : Tree) (s : State) :
    ∃ t, readerFrame s t ∧ ((∃ v, decodeSym T s = .done v t) ∨ decodeSym T s = raise .trunc 0x30 t) := by
  induction T generalizing s with
  | leaf v => exact ⟨s, readerFrame_refl s, .inl ⟨v, rfl⟩⟩
  | node l r ihl ihr =>
    rw [decodeSym]
    cases hget : getBit s with
    | none => exact ⟨s, readerFrame_refl s, .inr rfl⟩
    | some taken =>
      obtain ⟨b, u⟩ := taken
      have hframe : readerFrame s u := getBit_frame hget
      cases b with
      | false => obtain ⟨t, htail, hend⟩ := ihl u; exact ⟨t, readerFrame_trans hframe htail, hend⟩
      | true => obtain ⟨t, htail, hend⟩ := ihr u; exact ⟨t, readerFrame_trans hframe htail, hend⟩

/-- HDEC's loop from any reader: as many bytes as asked for, or fewer and ERR_TRUNC(0x30) (R170, R171). -/
theorem decodeSyms_ends (T : Tree) (n : Nat) (s : State) :
    ∃ t out, decoderFrame s t ∧ t.snk = s.snk ++ out ∧
      ((decodeSyms T n s = .done () t ∧ out.length = n) ∨
       (decodeSyms T n s = raise .trunc 0x30 t ∧ out.length < n)) := by
  induction n generalizing s with
  | zero => exact ⟨s, [], rfl, (List.append_nil _).symm, .inl ⟨rfl, rfl⟩⟩
  | succ n ih =>
    rw [decodeSyms]
    obtain ⟨u, hsym, ⟨v, hleaf⟩ | hcut⟩ := decodeSym_ends T s
    · obtain ⟨t, out, hframe, hsnk, hend⟩ := ih (snkWrite v u)
      have hfirst : decoderFrame s (snkWrite v u) :=
        decoderFrame_trans (decoderFrame_of_reader hsym) (decoderFrame_snkWrite v u)
      rw [hleaf, bind_done]
      refine ⟨t, v :: out, decoderFrame_trans hfirst hframe, ?_, ?_⟩
      · rw [hsnk, snkWrite_snk, snk_of_readerFrame hsym, List.append_assoc, List.singleton_append]
      · simpa only [List.length_cons, Nat.add_right_cancel_iff, Nat.add_lt_add_iff_right] using hend
    · rw [hcut, bind_raise]
      refine ⟨u, [], decoderFrame_of_reader hsym, ?_, .inr ⟨rfl, Nat.succ_pos n⟩⟩
      rw [snk_of_readerFrame hsym, List.append_nil]

/-- A decoding run writes no fault field. -/
theorem faultFields_of_decoderFrame {s t : State} (h : decoderFrame s t) :
    t.run = s.run ∧ t.err = s.err ∧ t.einfo = s.einfo := by
  unfold decoderFrame at h
  rw [h]
  exact ⟨rfl, rfl, rfl⟩

/-- Settles O47: by how the loop ends, from a sound reader and from any other. -/
theorem hdecEmitsExactlyLenOrFaults : Obligations.HdecEmitsExactlyLenOrFaults := by
  refine ⟨hasWord_iff.2 rfl, fun s => ⟨fun T hT => ?tree, fun hnone => ?absent⟩⟩
  case absent => rw [exec_eq, afterExec, opHdec, requireTree_none hnone, bind_raise]; rfl
  case tree =>
    rw [execHdec_eq hT]
    by_cases hr : s.ReaderOk
    · obtain ⟨symbols, hleaves, ⟨t, hrun, hlen, hsnk, hbits, -, hframe, -⟩ | ⟨cut, hlen, hbits, hnone, hrun⟩⟩ :=
        decodeSyms_cases (t := T) s.len.toNat hr
      · obtain ⟨hrunField, herr, heinfo⟩ := faultFields_of_decoderFrame hframe
        exact ⟨t, symbols.map Prod.fst, by rw [hrun, final_done], hsnk, .inl ⟨hrunField, herr, heinfo,
          (List.length_map _).trans hlen, fun _ => ⟨symbols, hleaves, rfl, hbits⟩⟩⟩
      · exact ⟨_, symbols.map Prod.fst, by rw [hrun, final_raise]; rfl, rfl, .inr ⟨rfl, rfl, rfl,
          (List.length_map _).trans_lt hlen, fun _ => ⟨symbols, cut, hleaves, rfl, hbits, hnone, rfl⟩⟩⟩
    · obtain ⟨t, out, hframe, hsnk, ⟨hrun, hlen⟩ | ⟨hrun, hlen⟩⟩ := decodeSyms_ends T s.len.toNat s
      · obtain ⟨hrunField, herr, heinfo⟩ := faultFields_of_decoderFrame hframe
        exact ⟨t, out, by rw [hrun, final_done], hsnk, .inl ⟨hrunField, herr, heinfo, hlen, fun h => absurd h hr⟩⟩
      · exact ⟨enterFault .trunc 0x30 t, out, by rw [hrun, final_raise], hsnk, .inr ⟨rfl, rfl, rfl, hlen,
          fun h => absurd h hr⟩⟩

end Sys2Proof.Machine
end

section
/-! PROOFS. Decoding what was encoded: HENC and BFLUSH, then HDEC (44_vlc R172). -/

namespace Sys2Proof.Machine

theorem writerOk_of_empty {s : State} (hb : s.wbuf = 0) (hc : s.wcnt = 0) : s.WriterOk := by
  rw [State.WriterOk, hb, hc]; decide

theorem readerOk_of_empty {s : State} (hb : s.rbuf = 0) (hc : s.rcnt = 0) : s.ReaderOk := by
  rw [State.ReaderOk, hb, hc]; decide

theorem writtenBits_of_empty {s : State} (hc : s.wcnt = 0) : writtenBits s = unpack s.snk := by
  rw [writtenBits, pendingBits, hc]; exact List.append_nil _

/-- From an empty writer HENC and BFLUSH write the bytes of the payload (R167, 41_bitstream R112). -/
theorem execSeq_henc_bflush {s : State} {T : Tree} (hcode : s.code = some (codeTable T)) (hb : s.wbuf = 0)
    (hc : s.wcnt = 0) (hleaves : ∀ x ∈ srcRest s, x ∈ T.leaves) :
    ∃ t, execSeq [.henc, .bflush] s = .next t ∧
      t.snk = s.snk ++ flushedBytes (payloadBits (codeTable T) (srcRest s)) := by
  have hcoded : ∀ x ∈ srcRest s, (tget (codeTable T) x).isSome := fun x hx => by
    obtain ⟨p, hp, -⟩ := codeTable_mem (hleaves x hx)
    exact Option.isSome_iff_exists.2 ⟨p, hp⟩
  obtain ⟨t, hexec, hw, hbits, -⟩ := execHenc_coded hcode (writerOk_of_empty hb hc) hcoded
  rw [writtenBits_of_empty hc] at hbits
  refine ⟨flush t, by rw [execSeq, hexec]; rfl, ?_⟩
  rw [flush_written hw hbits, flushedBytes, List.append_assoc]

/-- HDEC turns the bytes of a payload back into the bytes encoded, whatever follows them (R170, R172). -/
theorem execHdec_flushedBytes {u : State} {T : Tree} {xs rest : List Byte} (hT : u.tree = some T) (hb : u.rbuf = 0)
    (hc : u.rcnt = 0) (hlen : u.len.toNat = xs.length) (hleaves : ∀ x ∈ xs, x ∈ T.leaves)
    (hsrc : srcRest u = flushedBytes (payloadBits (codeTable T) xs) ++ rest) :
    ∃ v, exec .hdec u = .next v ∧ v.snk = u.snk ++ xs ∧ v.run = u.run := by
  have hbits := unreadBits_fresh hc
  rw [hsrc, unpack_append, unpack_flushedBytes, List.append_assoc] at hbits
  obtain ⟨v, hrun, hsnk, -, -, hframe, -⟩ := decodeSyms_run xs u _ (readerOk_of_empty hb hc) hleaves hbits
  refine ⟨v, by rw [execHdec_eq hT, hlen, hrun, final_done], hsnk, ?_⟩
  obtain ⟨hrunField, -⟩ := faultFields_of_decoderFrame hframe
  exact hrunField

/-- Settles O48: the bytes written are those of the payload, and HDEC reads them back. -/
theorem encodeDecodeLaw : Obligations.EncodeDecodeLaw := by
  intro s T hcode hb hc hmax hleaves
  obtain ⟨t, hexec, hsnk⟩ := execSeq_henc_bflush hcode hb hc hleaves
  refine ⟨t, flushedBytes (payloadBits (codeTable T) (srcRest s)), hexec, hsnk, fun u rest hT hrb hrc hlen hsrc => ?_⟩
  have hcount : u.len.toNat = (srcRest s).length := by
    rw [Config.maxLen] at hmax
    rw [hlen, BitVec.toNat_ofNat, Nat.mod_eq_of_lt (by omega), srcRest_length]
  exact execHdec_flushedBytes hT hrb hrc hcount hleaves hsrc

end Sys2Proof.Machine
end

section
/-! PROOFS. The run record: RDEC, and RDEC on what RENC wrote (45_rle R180 to R183). -/

namespace Sys2Proof.Machine

/-- RDEC when the source ends inside the count (R182). -/
theorem opRdec_short {s : State} (h : (srcRest s).length < 4) :
    opRdec s = raise .trunc (BitVec.ofNat 32 (srcRest s).length) (s.setPos (s.src.pos + (srcRest s).length)) := by
  rw [opRdec, opGetlen_short h, bind_raise]

/-- RDEC when the source ends between the count and the value (R182). -/
theorem opRdec_noValue {s : State} {n : Word} (h : srcRest s = le32 n) :
    opRdec s = raise .trunc 0x10 ((s.setPos (s.src.pos + 4)).setLen n) := by
  have hcount : srcRest s = le32 n ++ [] := by rw [h, List.append_nil]
  have hnil : srcRest ((s.setPos (s.src.pos + 4)).setLen n) = [] := srcRest_drop (xs := le32 n) hcount
  rw [opRdec, opGetlen_le32 hcount, bind_done, srcReadOr_nil _ hnil, bind_raise]

/-- RDEC on a whole run record (R182). -/
theorem execRdec_record {s : State} {n : Word} {v : Byte} {rest : List Byte} (h : srcRest s = le32 n ++ [v] ++ rest) :
    exec .rdec s =
      .next { atPos s (s.src.pos + 5) with len := n, snk := s.snk ++ List.replicate n.toNat v } := by
  rw [exec_eq, afterExec, opRdec_record h]; rfl

/-- Settles O49: by how much of the record the source holds. -/
theorem rdecExpandsTheRunRecord : Obligations.RdecExpandsTheRunRecord := by
  intro s
  refine ⟨hasWord_iff.2 rfl, fun n v rest => execRdec_record, fun hshort => ?short, fun n hcount => ?noValue⟩
  case short => rw [exec_eq, afterExec, opRdec_short hshort]; rfl
  case noValue => rw [exec_eq, afterExec, opRdec_noValue hcount]; rfl

/-- Settles O50: RENC writes the record of LEN and v, and RDEC expands it. -/
theorem runLengthRoundTrip : Obligations.RunLengthRoundTrip := by
  intro s u v rest
  refine ⟨opRenc v s, le32 s.len ++ [v], exec_eq _ s, by rw [opRenc_eq]; rfl, fun hrecord => ?_⟩
  exact ⟨_, execRdec_record hrecord, rfl, rfl, rfl⟩

end Sys2Proof.Machine
end

section
/-! PROOFS. The container as a function of its input (46_codec R190 to R193): its kind, and how long it is. -/

namespace Sys2Proof.Machine

-- ## The alphabet of the input

/-- After a scan K is the number of distinct byte values scanned (10_state R18, R190). -/
theorem kCount_countsOf {xs : List Byte} (h : xs.length ≤ Config.maxLen) : kCount (countsOf xs) = xs.toFinset.card := by
  rw [kCount, ← List.toFinset_card_of_nodup (present_nodup _)]
  refine congrArg Finset.card (Finset.ext fun v => ?_)
  rw [List.mem_toFinset, List.mem_toFinset, mem_present_countsOf h]

theorem present_of_forall_eq {xs : List Byte} {v : Byte} (hl : xs.length ≤ Config.maxLen) (hne : xs ≠ [])
    (h : ∀ x ∈ xs, x = v) : present (countsOf xs) = [v] := by
  obtain ⟨w, rest, rfl⟩ := List.exists_cons_of_ne_nil hne
  obtain rfl := h w List.mem_cons_self
  exact present_single hl (List.all_eq_true.2 fun x hx => beq_iff_eq.2 (h x (List.mem_cons_of_mem _ hx)))

theorem present_of_exists_ne {xs : List Byte} (hl : xs.length ≤ Config.maxLen) (h : ∃ x ∈ xs, ∃ y ∈ xs, x ≠ y) :
    ∃ a b l, present (countsOf xs) = a :: b :: l := by
  obtain ⟨x, hx, y, hy, hne⟩ := h
  have hk : 2 ≤ (present (countsOf xs)).length := by
    rw [← kCount, kCount_countsOf hl]
    exact Finset.one_lt_card.2 ⟨x, List.mem_toFinset.2 hx, y, List.mem_toFinset.2 hy, hne⟩
  match present (countsOf xs), hk with
  | a :: b :: l, _ => exact ⟨a, b, l, rfl⟩

-- ## Its kind

/-- Container(S) is empty, a run record behind its tag, or a Huffman container, by the number of distinct byte values
(R192, R193). -/
theorem container_cases {xs : List Byte} (hl : xs.length ≤ Config.maxLen) :
    (xs.toFinset.card = 0 ∧ container xs = []) ∨
      (xs.toFinset.card = 1 ∧ ∃ n v, container xs = Config.tagR :: (le32 n ++ [v])) ∨
      (2 ≤ xs.toFinset.card ∧ ∃ T, buildTree (countsOf xs) = some T ∧ container xs = huffmanContainer xs T) := by
  match xs with
  | [] => exact .inl ⟨rfl, rfl⟩
  | v :: vs =>
    cases hall : vs.all (fun x => x == v) with
    | true =>
      refine .inr (.inl ⟨card_one hall, BitVec.ofNat 32 (v :: vs).length, v, ?_⟩)
      simp only [container, hall, if_true]
      rfl
    | false =>
      have hk := card_many hall
      obtain ⟨T, hT⟩ := buildTree_isSome ((kCount_countsOf hl).symm ▸ hk)
      refine .inr (.inr ⟨hk, T, hT, ?_⟩)
      simp only [container, hall, hT]
      rfl

/-- The parts of a Huffman container (R193, 30_encoding R74). -/
theorem huffmanContainer_eq (xs : List Byte) (T : Tree) : huffmanContainer xs T =
    Config.tagH :: (le32 (BitVec.ofNat 32 xs.length) ++ (serTree T ++ flushedBytes (payloadBits (codeTable T) xs))) := by
  simp [huffmanContainer, flushedBytes]

/-- The length of a Huffman container: tag, count, tree, payload and flush (30_encoding R77, R80). -/
theorem huffmanContainer_length {xs : List Byte} {T : Tree} (hl : xs.length ≤ Config.maxLen)
    (hT : buildTree (countsOf xs) = some T) : (huffmanContainer xs T).length =
      1 + 4 + (8 * xs.toFinset.card - 2) + (payloadBits (codeTable T) xs).length / 8 + 1 := by
  obtain ⟨-, hnodes⟩ := buildTree_valid hT
  rw [kCount_countsOf hl] at hnodes
  have hleaves := nodes_leaves T
  have htree := serTree_length T
  have hlen : (le32 (BitVec.ofNat 32 xs.length)).length = 4 := rfl
  rw [huffmanContainer_eq, List.length_cons, List.length_append, List.length_append, flushedBytes_length]
  omega

end Sys2Proof.Machine
end

section
/-! PROOFS. CMP: what it leaves, and its unit commands (46_codec R191 to R193, R196). -/

namespace Sys2Proof.Machine

-- ## What CMP leaves

/-- What CMP leaves, as an update of the state: its frame, with the fields R191 names. -/
theorem eq_of_compressedFrom {s t : State} (hframe : FrameOf .cmp s t) (h : CompressedFrom s t) :
    t = { s with snk := s.snk ++ container (srcRest s), len := BitVec.ofNat 32 (srcLeft s), freq := t.freq,
                 src := { s.src with pos := s.src.pos + srcLeft s, mark := s.src.pos },
                 wbuf := 0, wcnt := 0, rbuf := 0, rcnt := 0, tree := t.tree, code := t.code } := by
  obtain ⟨hsnk, hlen, -, hsrc, ⟨hwbuf, hwcnt⟩, ⟨hrbuf, hrcnt⟩, ⟨-, -, hrun, -, herr, heinfo, -⟩, -⟩ := h
  unfold FrameOf writableBy mayFault at hframe
  rw [hsnk, hlen, hsrc, hwbuf, hwcnt, hrbuf, hrcnt, hrun, herr, heinfo] at hframe
  exact hframe

/-- CMP on at most MAXLEN unread bytes (R191, R193). -/
theorem execCmp_container {s : State} (h : srcLeft s ≤ Config.maxLen) :
    ∃ t, exec .cmp s = .next t ∧ CompressedFrom s t := by
  obtain ⟨t, hrun, ht⟩ := opCmp_container h
  exact ⟨t, by rw [exec_eq, afterExec, hrun, final_done], ht⟩

/-- Settles O51: by the frame of CMP and the fields it leaves; K tells which tables it leaves. -/
theorem cmpAppendsTheContainer : Obligations.CmpAppendsTheContainer := by
  refine ⟨hasWord_iff.2 rfl, fun s hle => ?_⟩
  obtain ⟨t, hexec, ht⟩ := execCmp_container hle
  refine ⟨t, hexec, eq_of_compressedFrom ?frame ht, fun v => ?counts, fun hk => ?few, fun hk => ?many⟩
  case frame => rw [eq_afterExec hexec]; exact frame_cmp s
  case counts => rw [ht.freq]; exact tget_countsOf_toNat ((srcRest_length s).trans_le hle) v
  case few =>
    rw [ht.freq] at hk
    rcases ht.tables with ⟨-, htables⟩ | ⟨T, hT, -⟩
    · exact htables
    · rw [buildTree_none.2 hk] at hT; cases hT
  case many =>
    rw [ht.freq] at hk ⊢
    rcases ht.tables with ⟨hfew, -⟩ | htables
    · omega
    · exact htables

/-- Settles O54: by the kind of the container CMP appends. -/
theorem containerKindAndLength : Obligations.ContainerKindAndLength := by
  intro s hle
  obtain ⟨t, hexec, ht⟩ := execCmp_container hle
  have hl := (srcRest_length s).trans_le hle
  refine ⟨t, container (srcRest s), hexec, ht.snk, ?_⟩
  rcases container_cases hl with ⟨hk, hc⟩ | ⟨hk, n, v, hc⟩ | ⟨hk, T, hT, hc⟩
  · exact ⟨fun _ => hc, fun _ => by omega, fun _ => by omega⟩
  · exact ⟨fun _ => by omega, fun _ => by rw [hc]; exact ⟨rfl, rfl⟩, fun _ => by omega⟩
  · refine ⟨fun _ => by omega, fun _ => by omega, fun _ => ⟨by rw [hc, huffmanContainer_eq]; rfl, codeTable T, ?_, ?_⟩⟩
    · rcases ht.tables with ⟨hfew, -⟩ | ⟨U, hU, -, hcode⟩
      · rw [kCount_countsOf hl] at hfew; omega
      · rw [hcode, Option.some.inj (hU.symm.trans hT)]
    · rw [hc, huffmanContainer_length hl hT]

-- ## Its unit commands

/-- A list of commands ends in the state that each in turn leaves. -/
theorem execSeq_eq (is : List Instr) (s : State) : execSeq is s = .next (is.foldl (fun t i => afterExec i t) s) := by
  induction is generalizing s with
  | nil => rfl
  | cons i is ih => rw [execSeq, exec_eq]; exact ih _

/-- If a sequence of two pieces ends normally, so does the first, and the second goes on from its state. -/
theorem bind_final_of_done {r : CmdResult Unit} {k : Unit → State → CmdResult Unit} {t : State}
    (h : r.bind k = .done () t) : k () r.final = .done () t := by
  cases r with
  | done a s => exact h
  | faulted s => cases h

/-- The branch k ≥ 2 of CMP, when it ends normally, is the list of its unit commands (R191). -/
theorem compressHuffman_units {s t : State} (h : compressHuffman s = .done () t) :
    t = [.putb Config.tagH, .putlen, .tbuild, .twrite, .tcodes, .srew, .henc, .bflush].foldl
      (fun u i => afterExec i u) s := by
  have hflush := bind_final_of_done (bind_final_of_done (bind_final_of_done (bind_final_of_done h)))
  cases hflush
  rfl

/-- CMP is its scan and then the branch on the bytes scanned (R191). -/
theorem opCmp_scanned {s : State} (h : srcLeft s ≤ Config.maxLen) :
    ∃ u, u = (opFscan (clearBuffers (srcMark s))).final ∧ u.freq = countsOf (srcRest s) ∧ opCmp s = compressByK u := by
  have hscan := opFscan_ok (s := clearBuffers (srcMark s)) h
  exact ⟨_, rfl, by rw [hscan]; rfl, by rw [opCmp, hscan, bind_done, final_done]⟩

/-- Settles O52: CMP is its scan and then the branch on the number of byte values; as it ends without a fault, so does
every one of its units. -/
theorem cmpIsTheSequenceOfUnitCommands : Obligations.CmpIsTheSequenceOfUnitCommands := by
  intro s hle start
  have hl := (srcRest_length s).trans_le hle
  obtain ⟨u, hu, hfreq, hcmp⟩ := opCmp_scanned hle
  have hstart : start.foldl (fun t i => afterExec i t) s = u := hu.symm
  refine ⟨fun hnil => ?empty, fun v hne hall => ?run, fun hdistinct => ?huffman⟩
  case empty =>
    have hbranch : compressByK u = .done () u := by rw [compressByK, hfreq, hnil, present_nil]
    rw [exec_eq, afterExec, hcmp, hbranch, execSeq_eq, hstart, final_done]
  case run =>
    have hbranch : compressByK u = .done () (opRenc v (snkWrite Config.tagR u)) := by
      rw [compressByK, hfreq, present_of_forall_eq hl hne hall]
    rw [exec_eq, afterExec, hcmp, hbranch, execSeq_eq, List.foldl_append, hstart, final_done]
    rfl
  case huffman =>
    obtain ⟨a, b, l, hp⟩ := present_of_exists_ne hl hdistinct
    have hbranch : compressByK u = compressHuffman u := by rw [compressByK, hfreq, hp]
    obtain ⟨t, hdone, -⟩ := opCmp_container hle
    have hunits := compressHuffman_units ((hcmp.trans hbranch).symm.trans hdone)
    rw [exec_eq, afterExec, hdone, execSeq_eq, List.foldl_append, hstart, final_done, hunits]
    rfl

-- ## What CMP depends on

/-- Outside FAULT no fault is recorded (10_state R17). -/
theorem noFault_of_idle {s : State} (h : s.Inv) (hr : s.run = .idle) : s.err = 0 ∧ s.einfo = 0 := by
  obtain ⟨⟨-, herr, heinfo, -⟩, -⟩ := h
  refine ⟨?_, heinfo (by simp [hr])⟩
  by_contra hne
  rw [herr.2 hne] at hr
  cases hr

/-- CMP on a longer source: the scan's fault, nothing in the sink (R131, R191). -/
theorem execCmp_size {s : State} (h : Config.maxLen < srcLeft s) :
    exec .cmp s = .next (enterFault .size 0 (((clearBuffers (srcMark s)).setFreq
      (countsOf ((srcRest s).take Config.maxLen))).setPos (s.src.pos + Config.maxLen + 1))) := by
  rw [exec_eq, afterExec, opCmp_size h, final_raise]

/-- Settles O59: on either side of MAXLEN what CMP leaves is given by the unread bytes. -/
theorem cmpDependsOnlyOnTheSource : Obligations.CmpDependsOnlyOnTheSource := by
  intro s1 s2 hinv1 hinv2 hidle1 hidle2 hrest
  have hleft : srcLeft s1 = srcLeft s2 := by rw [← srcRest_length, hrest, srcRest_length]
  by_cases hle : srcLeft s1 ≤ Config.maxLen
  case pos =>
    obtain ⟨herr1, heinfo1⟩ := noFault_of_idle hinv1 hidle1
    obtain ⟨herr2, heinfo2⟩ := noFault_of_idle hinv2 hidle2
    obtain ⟨t1, hexec1, h1⟩ := execCmp_container hle
    obtain ⟨t2, hexec2, h2⟩ := execCmp_container (hleft ▸ hle)
    obtain ⟨-, -, hrun1, -, hkerr1, hkeinfo1, -⟩ := h1.kept
    obtain ⟨-, -, hrun2, -, hkerr2, hkeinfo2, -⟩ := h2.kept
    exact ⟨t1, t2, container (srcRest s1), hexec1, hexec2, h1.snk, hrest ▸ h2.snk, by rw [hrun1, hrun2, hidle1, hidle2],
      by rw [hkerr1, hkerr2, herr1, herr2], by rw [hkeinfo1, hkeinfo2, heinfo1, heinfo2], by rw [h1.freq, h2.freq, hrest],
      fun _ => by rw [h1.len, h2.len, hleft], by rw [h1.writer.1, h2.writer.1], by rw [h1.writer.2, h2.writer.2],
      by rw [h1.reader.1, h2.reader.1], by rw [h1.reader.2, h2.reader.2]⟩
  case neg =>
    have hlt := Nat.lt_of_not_le hle
    refine ⟨_, _, [], execCmp_size hlt, execCmp_size (hleft ▸ hlt), ?_⟩
    rw [hrest]
    simp [clearBuffers]

end Sys2Proof.Machine
end

section
/-! PROOFS. DCMP: the ways it can go by the tag, what it does on a container, and its unit commands (46_codec R194, R195,
R197, R199). -/

namespace Sys2Proof.Machine

-- ## The tag

/-- The state behind the tag b: the bit buffers empty, one byte consumed and held in RES (R194). -/
def tagRead (b : Byte) (s : State) : State := gotData (resOfByte b) ((clearBuffers s).setPos (s.src.pos + 1))

theorem opGetb_tag {s : State} {b : Byte} {rest : List Byte} (h : srcRest s = b :: rest) :
    opGetb (clearBuffers s) = tagRead b s := opGetb_cons h

theorem srcRest_tagRead {s : State} {b : Byte} {rest : List Byte} (h : srcRest s = b :: rest) :
    srcRest (tagRead b s) = rest := srcRest_setPos h

theorem extractLsb'_resOfByte (b : Byte) : (resOfByte b).extractLsb' 0 8 = b := by
  have hb := b.isLt
  apply BitVec.eq_of_toNat_eq
  rw [resOfByte, BitVec.extractLsb'_toNat, BitVec.toNat_setWidth, Nat.shiftRight_zero]
  omega

theorem resOfByte_inj {a b : Byte} (h : resOfByte a = resOfByte b) : a = b := by
  rw [← extractLsb'_resOfByte a, h, extractLsb'_resOfByte]

/-- DCMP on an empty source (R194). -/
theorem opDcmp_nil {s : State} (h : srcRest s = []) : opDcmp s = .done () (endOfStream (clearBuffers s)) := by
  rw [opDcmp, opGetb_nil (s := clearBuffers s) h]
  rfl

/-- DCMP behind the tag 'R' (R194). -/
theorem opDcmp_run {s : State} {rest : List Byte} (h : srcRest s = Config.tagR :: rest) :
    opDcmp s = opRdec (tagRead Config.tagR s) := by
  rw [opDcmp, opGetb_tag h, decompressByTag_run rfl rfl]

/-- DCMP behind the tag 'H' (R194). -/
theorem opDcmp_huffman {s : State} {rest : List Byte} (h : srcRest s = Config.tagH :: rest) :
    opDcmp s = decompressHuffman (tagRead Config.tagH s) := by
  rw [opDcmp, opGetb_tag h, decompressByTag_huffman rfl rfl]

/-- DCMP behind any other byte (R195). -/
theorem opDcmp_unknown {s : State} {b : Byte} {rest : List Byte} (h : srcRest s = b :: rest) (hH : b ≠ Config.tagH)
    (hR : b ≠ Config.tagR) : opDcmp s = raise .tag (infoOfByte b) (tagRead b s) := by
  have heos : ¬(tagRead b s).eos = true := Bool.false_ne_true
  have hres : (tagRead b s).res = resOfByte b := rfl
  rw [opDcmp, opGetb_tag h, decompressByTag, if_neg heos, hres, if_neg (hR ∘ resOfByte_inj), if_neg (hH ∘ resOfByte_inj),
    extractLsb'_resOfByte]

/-- Settles O57: by the way DCMP goes behind such a byte. -/
theorem dcmpRejectsAnUnknownTag : Obligations.DcmpRejectsAnUnknownTag := by
  intro s b rest hrest hH hR
  rw [exec_eq, afterExec, opDcmp_unknown hrest hH hR]
  rfl

-- ## Containers

/-- DCMP on a container, whatever follows it (R194). -/
theorem execDcmp_container {s : State} {bytes rest : List Byte} (hl : bytes.length ≤ Config.maxLen)
    (h : srcRest s = container bytes ++ rest) (hrest : bytes = [] → rest = []) :
    ∃ t, exec .dcmp s = .next t ∧ DecompressedTo s t bytes := by
  obtain ⟨t, hrun, ht⟩ := opDcmp_container hl h hrest
  exact ⟨t, by rw [exec_eq, afterExec, hrun, final_done], ht⟩

/-- Settles O55: by the three outcomes of DCMP on a container, which exclude each other by the number of byte values. -/
theorem dcmpDecodesAContainer : Obligations.DcmpDecodesAContainer := by
  refine ⟨hasWord_iff.2 rfl, fun s bytes rest hl h hrest => ?_⟩
  obtain ⟨t, hexec, ht⟩ := execDcmp_container hl h hrest
  obtain ⟨-, hrun, herr, heinfo, hfreq, -⟩ := ht.kept
  refine ⟨t, hexec, ht.snk, hrun, herr, heinfo, hfreq, ht.mark, ht.writer.1, ht.writer.2, ?_⟩
  rcases ht.outcome with ⟨rfl, rfl⟩ | ⟨hk, heos, hres, hlen, htree, hcode, hpos, hrbuf, hrcnt⟩ |
    ⟨hk, heos, hres, hlen, T, hT, htree, hcode, hpos, hrbuf, hrcnt⟩
  · exact ⟨by simp [endOfStream], fun _ => ⟨rfl, rfl, rfl, rfl, rfl⟩, fun hne => absurd rfl hne, fun _ => ⟨rfl, rfl⟩,
      fun hk => by simp at hk, fun hk => by simp at hk⟩
  · have hne : bytes ≠ [] := by rintro rfl; simp at hk
    exact ⟨by simp [heos, hne], fun hnil => absurd hnil hne, fun _ => hlen, fun _ => ⟨hrbuf, hrcnt⟩,
      fun _ => ⟨hres, hpos, htree, hcode⟩, fun hmany => by omega⟩
  · have hne : bytes ≠ [] := by rintro rfl; simp at hk
    exact ⟨by simp [heos, hne], fun hnil => absurd hnil hne, fun _ => hlen, fun hfew => by omega, fun hone => by omega,
      fun _ => ⟨T, hT, hres, htree, hcode, hpos, hrbuf, hrcnt⟩⟩

/-- Settles O56: CMP appends the container, and DCMP on it appends the input. -/
theorem compressDecompressRoundTrip : Obligations.CompressDecompressRoundTrip := by
  intro s u hle
  obtain ⟨t, hexec, ht⟩ := execCmp_container hle
  refine ⟨t, container (srcRest s), hexec, ht.snk, fun hsrc => ?_⟩
  have hrest : srcRest u = container (srcRest s) ++ [] := by rw [srcRest, hsrc, List.drop_zero, List.append_nil]
  obtain ⟨r, hexec', hr⟩ := execDcmp_container ((srcRest_length s).trans_le hle) hrest fun _ => rfl
  obtain ⟨-, hrun, herr, -⟩ := hr.kept
  exact ⟨r, hexec', hr.snk, hrun, herr⟩

-- ## GETLEN and TREAD, by the unread bytes

/-- Whether GETLEN faults, and what it reads, is given by the unread bytes (40_control_stream R98). -/
theorem opGetlen_cases (bytes : List Byte) :
    (∀ s, srcRest s = bytes →
        opGetlen s = raise .trunc (BitVec.ofNat 32 bytes.length) (s.setPos (s.src.pos + bytes.length))) ∨
      (∃ n, ∀ s, srcRest s = bytes → opGetlen s = .done () ((s.setPos (s.src.pos + 4)).setLen n)) := by
  rcases Nat.lt_or_ge bytes.length 4 with hshort | hfour
  · refine .inl ?_
    rintro s rfl
    exact opGetlen_short hshort
  · match bytes, hfour with
    | b0 :: b1 :: b2 :: b3 :: rest, _ => exact .inr ⟨_, fun s hs => opGetlen_four hs⟩

/-- ReadNode() ended with a tree that TREAD accepts: its root is internal (43_tree R150). -/
def NodeEnd.usable : NodeEnd → Bool
  | .read (some (.node _ _)) _ => true
  | .read none _ | .read (some (.leaf _)) _ | .faults _ _ => false

/-- TREAD ends normally exactly when ReadNode() ends with a usable tree (43_tree R150). -/
theorem opTread_eq {s : State} {n : Nat} {r : NodeEnd} (h : ReadsNode 0 (srcRest s) n r) :
    opTread s = if r.usable then .done () (afterTread s n r) else .faulted (afterTread s n r) := by
  have hread := readsNode_sound h (Config.nodeCap + 1) (s.setTree none) (Nat.zero_le _) (Nat.lt_succ_self _) rfl
  match r, hread with
  | .faults e info, ⟨code, hcode, hread⟩ =>
    subst hcode
    rw [opTread, hread]
    rfl
  | .read none c, hread | .read (some (.leaf v)) c, hread | .read (some (.node l r)) c, hread =>
    rw [opTread, show readNode _ _ _ = _ from hread]
    rfl

theorem afterTread_run (s : State) (n : Nat) (r : NodeEnd) :
    (afterTread s n r).run = if r.usable then s.run else .fault := by
  match r with
  | .faults e info | .read none c | .read (some (.leaf v)) c | .read (some (.node l r)) c => rfl

theorem afterTread_len (s : State) (n : Nat) (r : NodeEnd) : (afterTread s n r).len = s.len := by
  match r with
  | .faults _ _ | .read none _ | .read (some (.leaf _)) _ | .read (some (.node _ _)) _ => rfl

theorem afterTread_tree (s t : State) (n : Nat) (r : NodeEnd) :
    (afterTread s n r).tree = (afterTread t n r).tree := by
  match r with
  | .faults _ _ | .read none _ | .read (some (.leaf _)) _ | .read (some (.node _ _)) _ => rfl

-- ## The unit commands

/-- The branch 'H' of DCMP when GETLEN faults (R194, R216). -/
theorem decompressHuffman_of_getlen_faulted {s t : State} (h : opGetlen s = .faulted t) :
    decompressHuffman s = .faulted t := by rw [decompressHuffman, h, bind_faulted]

/-- The branch 'H' of DCMP when TREAD faults (R194, R216). -/
theorem decompressHuffman_of_tread_faulted {s t u : State} (h : opGetlen s = .done () t) (ht : opTread t = .faulted u) :
    decompressHuffman s = .faulted u := by rw [decompressHuffman, h, bind_done, ht, bind_faulted]

/-- The branch 'H' of DCMP when neither faults is HDEC (R194). -/
theorem decompressHuffman_of_tread_done {s t u : State} (h : opGetlen s = .done () t) (ht : opTread t = .done () u) :
    decompressHuffman s = opHdec u := by rw [decompressHuffman, h, bind_done, ht, bind_done]

/-- Settles O58: by the tag, and for 'H' by whether GETLEN and TREAD fault. -/
theorem dcmpPerformsItsUnitCommands : Obligations.DcmpPerformsItsUnitCommands := by
  intro s rest hrun s1 hseq
  have hs1 : s1 = opGetb (clearBuffers s) := (Host.Outcome.next.inj hseq).symm
  refine ⟨fun hR => ?run, fun hH => ?huffman⟩
  case run => rw [exec_eq, exec_eq, afterExec, afterExec, opDcmp_run hR, hs1, opGetb_tag hR]; rfl
  case huffman =>
    have hdcmp : exec .dcmp s = .next (decompressHuffman s1).final := by
      rw [exec_eq, afterExec, opDcmp_huffman hH, hs1, opGetb_tag hH]; rfl
    have hrun1 : s1.run = s.run := by rw [hs1, opGetb_tag hH]; rfl
    rw [hdcmp]
    rcases opGetlen_cases (srcRest s1) with hshort | ⟨n, hlen⟩
    · have hfault := hshort s1 rfl
      refine ⟨_, by rw [exec_eq, afterExec, hfault, final_raise], .inl ⟨rfl, ?_⟩⟩
      rw [decompressHuffman_of_getlen_faulted hfault, final_faulted]
    · have hdone := hlen s1 rfl
      generalize hs2 : (s1.setPos (s1.src.pos + 4)).setLen n = s2 at hdone
      have hrun2 : s2.run ≠ .fault := by rw [← hs2]; exact hrun1 ▸ hrun
      obtain ⟨k, r, hread⟩ := readsNode_total Config.nodeCap 0 (srcRest s2) (Nat.zero_add _)
      have htread := opTread_eq hread
      have hrun3 := afterTread_run s2 k r
      refine ⟨s2, by rw [exec_eq, afterExec, hdone, final_done],
        .inr ⟨hrun2, afterTread s2 k r, execTread_follows hread, ?_⟩⟩
      cases hr : r.usable with
      | false =>
        rw [hr] at htread hrun3
        exact .inl ⟨hrun3, by rw [decompressHuffman_of_tread_faulted hdone htread, final_faulted]⟩
      | true =>
        rw [hr] at htread hrun3
        refine .inr ⟨fun h => hrun2 (hrun3.symm.trans h), ?_⟩
        rw [decompressHuffman_of_tread_done hdone htread, exec_eq, afterExec]

end Sys2Proof.Machine
end

section
/-! PROOFS. DCMP depends only on the unread source (46_codec R196): from two states that agree on the source, the bit
buffers and the fault fields, its units take the same way and keep the agreement. -/

namespace Sys2Proof.Machine

-- ## Agreement of states and of results

/-- s and t agree in what DCMP reads and what R196 compares, and have appended the same bytes to the sinks x and y. -/
structure SameView (x y : List Byte) (s t : State) : Prop where
  rest : srcRest s = srcRest t
  reader : s.rbuf = t.rbuf ∧ s.rcnt = t.rcnt
  writer : s.wbuf = t.wbuf ∧ s.wcnt = t.wcnt
  eos : s.eos = t.eos
  fault : s.run = t.run ∧ s.err = t.err ∧ s.einfo = t.einfo
  sink : ∃ out, s.snk = x ++ out ∧ t.snk = y ++ out

/-- Two pieces end the same way, with the same value, in states that agree. -/
inductive SameEnd (x y : List Byte) {α : Type} : CmdResult α → CmdResult α → Prop where
  | done (a : α) {s t : State} (h : SameView x y s t) : SameEnd x y (.done a s) (.done a t)
  | faulted {s t : State} (h : SameView x y s t) : SameEnd x y (.faulted s) (.faulted t)

section
variable {x y : List Byte} {s t : State}

theorem SameEnd.final {α : Type} {p q : CmdResult α} (h : SameEnd x y p q) : SameView x y p.final q.final := by
  cases h with
  | done _ h | faulted h => exact h

theorem SameEnd.bind {α β : Type} {p q : CmdResult α} {k : α → State → CmdResult β} (h : SameEnd x y p q)
    (hk : ∀ a s t, SameView x y s t → SameEnd x y (k a s) (k a t)) : SameEnd x y (p.bind k) (q.bind k) := by
  cases h with
  | done a h => exact hk a _ _ h
  | faulted h => exact .faulted h

-- ## Updates

theorem SameView.setPos_add (h : SameView x y s t) (n : Nat) :
    SameView x y (s.setPos (s.src.pos + n)) (t.setPos (t.src.pos + n)) :=
  { h with rest := by rw [srcRest_setPos_add, srcRest_setPos_add, h.rest] }

theorem SameView.setReader (h : SameView x y s t) (b : Byte) (n : BitVec 4) :
    SameView x y (s.setReader b n) (t.setReader b n) := { h with reader := ⟨rfl, rfl⟩ }

theorem SameView.setLen (h : SameView x y s t) (n : Word) : SameView x y (s.setLen n) (t.setLen n) := { h with }

theorem SameView.append (h : SameView x y s t) (l : List Byte) :
    SameView x y (s.setSnk (s.snk ++ l)) (t.setSnk (t.snk ++ l)) := by
  obtain ⟨out, hs, ht⟩ := h.sink
  exact { h with sink := ⟨out ++ l, by simp [hs], by simp [ht]⟩ }

theorem SameView.raise (h : SameView x y s t) {α : Type} (e : FaultCode) (info : Word) :
    SameEnd x y (raise e info s : CmdResult α) (raise e info t) := .faulted { h with fault := ⟨rfl, rfl, rfl⟩ }

/-- TREAD, after the same way of ReadNode(), keeps the agreement (43_tree R150). -/
theorem SameView.afterTread (h : SameView x y s t) (n : Nat) (r : NodeEnd) :
    SameView x y (afterTread s n r) (afterTread t n r) := by
  have hrest := (h.setPos_add n).rest
  match r with
  | .read (some (.node _ _)) _ => exact { h with rest := hrest }
  | .faults _ _ | .read none _ | .read (some (.leaf _)) _ => exact { h with rest := hrest, fault := ⟨rfl, rfl, rfl⟩ }

-- ## The units of DCMP

/-- GetBit() returns the same bit, or the end, in both (41_bitstream R113). -/
theorem SameView.getBit_cases (h : SameView x y s t) :
    (getBit s = none ∧ getBit t = none) ∨
      ∃ b s' t', getBit s = some (b, s') ∧ getBit t = some (b, t') ∧ SameView x y s' t' := by
  obtain ⟨hrbuf, hrcnt⟩ := h.reader
  by_cases hc : s.rcnt = 0
  · cases hx : srcRest s with
    | nil => exact .inl ⟨getBit_end hc hx, getBit_end (hrcnt ▸ hc) (h.rest ▸ hx)⟩
    | cons b rest =>
      exact .inr ⟨_, _, _, getBit_fetch hc hx, getBit_fetch (hrcnt ▸ hc) (h.rest ▸ hx), (h.setPos_add 1).setReader _ _⟩
  · refine .inr ⟨_, _, _, getBit_held hc, ?_, h.setReader _ _⟩
    rw [getBit_held (hrcnt ▸ hc), hrbuf, hrcnt]

theorem SameView.decodeSym (h : SameView x y s t) (T : Tree) : SameEnd x y (decodeSym T s) (decodeSym T t) := by
  induction T generalizing s t with
  | leaf v => exact .done v h
  | node l r ihl ihr =>
    rw [Machine.decodeSym, Machine.decodeSym]
    rcases h.getBit_cases with ⟨hs, ht⟩ | ⟨b, s', t', hs, ht, h'⟩
    · rw [hs, ht]
      exact h.raise _ _
    · rw [hs, ht]
      cases b with
      | false => exact ihl h'
      | true => exact ihr h'

theorem SameView.decodeSyms (h : SameView x y s t) (T : Tree) (n : Nat) :
    SameEnd x y (decodeSyms T n s) (decodeSyms T n t) := by
  induction n generalizing s t with
  | zero => exact .done () h
  | succ n ih => exact (h.decodeSym T).bind fun v s' t' h' => ih (h'.append [v])

/-- HDEC on the same LEN and TREE (44_vlc R170). -/
theorem SameView.opHdec (h : SameView x y s t) (hlen : s.len = t.len) (htree : s.tree = t.tree) :
    SameEnd x y (opHdec s) (opHdec t) := by
  cases hT : s.tree with
  | none =>
    rw [Machine.opHdec, requireTree_none hT, Machine.opHdec, requireTree_none (htree ▸ hT)]
    exact h.raise _ _
  | some T =>
    rw [Machine.opHdec, requireTree_some hT, Machine.opHdec, requireTree_some (htree ▸ hT), bind_done, bind_done, hlen]
    exact h.decodeSyms T _

/-- RDEC (45_rle R182). -/
theorem SameView.opRdec (h : SameView x y s t) : SameEnd x y (opRdec s) (opRdec t) := by
  rw [Machine.opRdec, Machine.opRdec]
  rcases opGetlen_cases (srcRest s) with hshort | ⟨n, hlen⟩
  · rw [hshort s rfl, hshort t h.rest.symm]
    exact (h.setPos_add _).raise _ _
  · rw [hlen s rfl, hlen t h.rest.symm, bind_done, bind_done]
    have hcount := (h.setPos_add 4).setLen n
    cases hx : srcRest ((s.setPos (s.src.pos + 4)).setLen n) with
    | nil =>
      rw [srcReadOr_nil _ hx, srcReadOr_nil _ (hcount.rest ▸ hx)]
      exact hcount.raise _ _
    | cons v rest =>
      rw [srcReadOr_cons _ hx, srcReadOr_cons _ (hcount.rest ▸ hx), bind_done, bind_done, snkWriteAll_eq, snkWriteAll_eq]
      exact .done () ((hcount.setPos_add 1).append _)

/-- The branch 'H' of DCMP (R194): the unread bytes tell how GETLEN and ReadNode() end. -/
theorem SameView.decompressHuffman (h : SameView x y s t) : SameEnd x y (decompressHuffman s) (decompressHuffman t) := by
  rw [Machine.decompressHuffman, Machine.decompressHuffman]
  rcases opGetlen_cases (srcRest s) with hshort | ⟨n, hlen⟩
  · rw [hshort s rfl, hshort t h.rest.symm]
    exact (h.setPos_add _).raise _ _
  · rw [hlen s rfl, hlen t h.rest.symm, bind_done, bind_done]
    have hcount := (h.setPos_add 4).setLen n
    obtain ⟨k, r, hread⟩ := readsNode_total Config.nodeCap 0 _ (Nat.zero_add _)
    have htree := hcount.afterTread k r
    rw [opTread_eq hread, opTread_eq (hcount.rest ▸ hread)]
    cases r.usable with
    | false => exact .faulted htree
    | true => exact htree.opHdec (by rw [afterTread_len, afterTread_len]; rfl) (afterTread_tree _ _ k r)

end

-- ## DCMP

/-- From the same unread bytes and the same fault fields, DCMP ends the same way in states that agree (R196). -/
theorem sameEnd_opDcmp {s t : State} (hrest : srcRest s = srcRest t)
    (hfault : s.run = t.run ∧ s.err = t.err ∧ s.einfo = t.einfo) : SameEnd s.snk t.snk (opDcmp s) (opDcmp t) := by
  have hsink : ∃ out, s.snk = s.snk ++ out ∧ t.snk = t.snk ++ out := ⟨[], by simp⟩
  cases hs : srcRest s with
  | nil =>
    rw [opDcmp_nil hs, opDcmp_nil (hrest ▸ hs)]
    exact .done () ⟨hrest, ⟨rfl, rfl⟩, ⟨rfl, rfl⟩, rfl, hfault, hsink⟩
  | cons b rest =>
    have ht : srcRest t = b :: rest := hrest ▸ hs
    have htag : SameView s.snk t.snk (tagRead b s) (tagRead b t) :=
      ⟨(srcRest_tagRead hs).trans (srcRest_tagRead ht).symm, ⟨rfl, rfl⟩, ⟨rfl, rfl⟩, rfl, hfault, hsink⟩
    by_cases hR : b = Config.tagR
    · subst hR
      rw [opDcmp_run hs, opDcmp_run ht]
      exact htag.opRdec
    · by_cases hH : b = Config.tagH
      · subst hH
        rw [opDcmp_huffman hs, opDcmp_huffman ht]
        exact htag.decompressHuffman
      · rw [opDcmp_unknown hs hH hR, opDcmp_unknown ht hH hR]
        exact htag.raise _ _

/-- Settles O60: an idle block holds no fault, so the two states agree from the start. -/
theorem dcmpDependsOnlyOnTheSource : Obligations.DcmpDependsOnlyOnTheSource := by
  intro s1 s2 hinv1 hinv2 hidle1 hidle2 hrest
  obtain ⟨herr1, heinfo1⟩ := noFault_of_idle hinv1 hidle1
  obtain ⟨herr2, heinfo2⟩ := noFault_of_idle hinv2 hidle2
  have hend := sameEnd_opDcmp hrest
    ⟨hidle1.trans hidle2.symm, herr1.trans herr2.symm, heinfo1.trans heinfo2.symm⟩
  obtain ⟨-, ⟨hrbuf, hrcnt⟩, ⟨hwbuf, hwcnt⟩, heos, ⟨hrun, herr, heinfo⟩, out, hsnk1, hsnk2⟩ := hend.final
  exact ⟨(opDcmp s1).final, (opDcmp s2).final, out, exec_eq .dcmp s1, exec_eq .dcmp s2, hsnk1, hsnk2, hrun, herr, heinfo,
    heos, hwbuf, hwcnt, hrbuf, hrcnt⟩

end Sys2Proof.Machine
end

section
/-! PROOFS. Command acceptance as a step (60_exceptions R213, R214): a command issued in IDLE, and the host's actions in
FAULT. -/

namespace Sys2Proof.Machine

/-- R213, line 4: a legal word issued in IDLE runs its command. -/
theorem step_issue_idle {s : State} {rest : List HostAction} {w : Word} {i : Instr} (h : s.script = .issue w :: rest)
    (hr : s.run = .idle) (hd : decode w = .command i) : step s = exec i { s with script := rest } := by
  rw [step_cons h (by simp [hr])]
  exact writeCmd_idle hr hd

/-- Placing a word puts its issue in front of the host's list. -/
theorem withFetchWord_script (s : State) (w : Word) : (s.withFetchWord 32 w.toNat).script = .issue w :: s.script := by
  rw [State.withFetchWord, placeCommand, State.setScript_script, Nat.mod_eq_of_lt w.isLt, BitVec.ofNat_toNat,
    BitVec.setWidth_eq]

/-- In FAULT the word of SRST runs SRST. -/
theorem writeCmd_srst {s : State} (hr : s.run = .fault) : writeCmd srstWord s = exec .srst s := by
  simp only [writeCmd, hr, if_true]

/-- Settles O6: a placed command is an issued word, which decodes back to the command. -/
theorem stepRunsTheIssuedCommand : Obligations.StepRunsTheIssuedCommand :=
  ⟨fun _ _ _ _ h hr hd => step_issue_idle h hr hd,
    fun s i hr => step_issue_idle (withFetchWord_script s (encode i)) hr (decodeEncodeRoundTrip i)⟩

/-- Settles O7: a step in FAULT is the effect of the host's first action, and a word is refused unless it is SRST's. -/
theorem faultStateRefusesAllButSrst : Obligations.FaultStateRefusesAllButSrst := by
  intro s rest hr
  have hbusy : s.run ≠ .busy := by simp [hr]
  refine ⟨fun w hs hw => ?refused, fun hs => ?srst, fun v hs => ?writeArg, fun k hs => step_readCsr hs hbusy⟩
  case writeArg => exact step_cons hs hbusy
  case refused =>
    rw [step_cons hs hbusy]
    exact writeCmd_refused hr hw
  case srst =>
    rw [step_cons hs hbusy]
    exact writeCmd_srst hr

end Sys2Proof.Machine
end

section
/-! PROOFS. Hardware reset (70_reset_and_hazards R240, R242) and safety (R257): from every state of a run a step answers a
next state. -/

namespace Sys2Proof.Machine

-- ## Every step answers

/-- A word written to CMD always has its effect (60_exceptions R213, R214). -/
theorem writeCmd_answers (w : Word) (s : State) : ∃ t, writeCmd w s = .next t := by
  rcases writeCmd_cases w s with h | ⟨i, h⟩ | h <;> exact ⟨_, h⟩

/-- A CSR write always has its effect (10_state R26, R27). -/
theorem csrWrite_answers (c : Csr) (v : Word) (s : State) : ∃ t, csrWrite c v s = .next t := by
  rcases csrWrite_cases c v s with rfl | ⟨a, h⟩
  · exact writeCmd_answers v s
  · exact ⟨_, h⟩

/-- Every host action has its effect (20_memory R48). -/
theorem hostEffect_answers (a : HostAction) (s : State) : ∃ t, hostEffect a s = .next t := by
  cases a with
  | issue w => exact writeCmd_answers w s
  | writeCsr k v => exact csrWrite_answers (csrAt k) v s
  | loadSource | takeSink | writeArg | readCsr | reset => exact ⟨_, rfl⟩

/-- Outside BUSY a step answers a next state. -/
theorem step_answers {s : State} (hr : s.run ≠ .busy) : ∃ t, step s = .next t := by
  cases hs : s.script with
  | nil => exact ⟨s, step_nil hs⟩
  | cons a rest =>
    rw [step_cons hs hr]
    exact hostEffect_answers a _

/-- Settles O17: the invariant shuts out BUSY, the one state of the block in which a host action has no move. -/
theorem invariantStatesNeverStop : Obligations.InvariantStatesNeverStop := by
  intro s ⟨⟨hbusy, _⟩, _⟩
  exact step_answers hbusy

-- ## Hardware reset

/-- A reset acts in every STATE, BUSY included (70_reset_and_hazards R240). -/
theorem step_reset {s : State} {rest : List HostAction} (h : s.script = .reset :: rest) :
    step s = .next (hardReset { s with script := rest }) := by
  by_cases hr : s.run = .busy
  · exact step_busy h hr
  · exact step_cons h hr

/-- Settles O9: the step is a hardware reset, whose fields are those of the reset state but for the environment's. -/
theorem hardwareResetState : Obligations.HardwareResetState := by
  intro s rest h
  have hfreq : ∀ v, tget (hardReset { s with script := rest }).freq v = 0 := tget_zeroFreq
  exact ⟨_, step_reset h, rfl, rfl, rfl, rfl, rfl, rfl, rfl, rfl, rfl, hfreq, rfl, rfl, rfl, rfl, rfl, rfl, rfl, rfl⟩

end Sys2Proof.Machine
end
